-- ==== Sys2Proof/Word.lean ====
section
/-! DEFINITION. The 64-bit Word of the block and its plainest arithmetic (spec/00_scope.md R6, R9, R10). -/

namespace Sys2Proof

/-- "an opaque 64-bit unsigned integer, the unit of storage for both schemes" (R12). Bit 0 is the
least significant bit, bit 63 the most significant one (R9). -/
abbrev Word := BitVec 64

/-- `mask(b) = 2^b - 1` for `0 ≤ b ≤ 64`, the Word with its low `b` bits set (R10). -/
def lowMask (b : Nat) : Word := (1#64 <<< b) - 1#64

end Sys2Proof
end

