-- ==== Sys2Proof/Config.lean ====
section
/-! DEFINITION. What is fixed for one instance of the block: the constants of R6 and R7, the open
parameters of R8, and the free values (constants without a body, of which nothing can be proved). -/

namespace Sys2Proof

/-- BLOCK_LEN: the values in one block of the fixed-width scheme (R6). -/
def Config.blockLen : Nat := 32

/-- BW_MIN: the least legal bit width of the fixed-width scheme (R6). -/
def Config.bwMin : Nat := 1

/-- BW_MAX: the greatest legal bit width of the fixed-width scheme (R6). -/
def Config.bwMax : Nat := 32

/-- NSEL: the catalog entries (R6). -/
def Config.nsel : Nat := 16

/-- PAYLOAD_W: the bits of a Simple8b word below its selector (R6). -/
def Config.payloadWidth : Nat := 60

/-- RUN_MAX: the longest run one Simple8b word holds (R6). -/
def Config.runMax : Nat := 240

/-- `P_ZERO_WIDTH` of R8: what the fixed-width scheme does at bit width 0 (R71). -/
inductive ZeroWidth where
  | fault
  | accept
deriving DecidableEq, Repr

/-- `P_FAULT_OUTPUT` of R8: what the output buffer holds after a faulting command (R126). -/
inductive FaultOutput where
  | any
  | untouched
deriving DecidableEq, Repr

/-- The open parameters one instance of the block is built with (R8). They are no register: no
command reads or writes them as data, and no step changes them. -/
structure Params where
  zeroWidth   : ZeroWidth
  faultOutput : FaultOutput
deriving DecidableEq, Repr

/-- The defaults R8 gives: `P_ZERO_WIDTH = fault`, `P_FAULT_OUTPUT = any`. -/
def Params.default : Params := { zeroWidth := .fault, faultOutput := .any }

/-! Each free value takes first the number of the engine that draws it, so that the free values of two
engines are not known to be equal (R134, notes/assumptions/22.md). -/

/-- FREE VALUE. Element `k` of an output buffer whose contents the spec leaves unspecified (R126,
R139, U6), at draw `n` of engine `unit`. -/
opaque Config.freeOut : (unit n k : Nat) → Word

/-- FREE VALUE. Element `i` of an input buffer that the host's list does not hold although the
descriptor's LEN promises it, at draw `n` of engine `unit` (notes/assumptions/2.md). -/
opaque Config.freeIn : (unit n i : Nat) → Word

/-- FREE VALUE. The response register where the spec leaves it unspecified (R25, U4, U6), at draw `n` of
engine `unit`. -/
opaque Config.freeRsp : (unit n : Nat) → Word

/-- FREE VALUE. Word `i` (0 or 1) of the descriptor register after a reset (R25, U4) and between commands
(R14, R17), at draw `n` of engine `unit`. -/
opaque Config.freeDesc : (unit n i : Nat) → Word

end Sys2Proof
end

