-- ==== Sys2Proof/Syntax.lean ====
section
/-! DEFINITION. The instructions: one constructor per row of spec/opcode_table.json. The eight `CMD`
rows are the commands a host issues (R50), each with the descriptor fields it uses (R16, R53); the
sixteen `S8W` rows are the Simple8b words a decode command reads (R54, R66), each with its payload. -/

namespace Sys2Proof

/-- The two encoding formats of spec/opcode_table.json (R66): a command's descriptor, and a Simple8b
word. Which one a word is read as depends on where it stands: the descriptor port or an input buffer. -/
inductive Format where
  | cmd
  | s8w
deriving DecidableEq, Repr

/-- The instructions. Operands that count or index are natural numbers (WellFormed bounds them by
their field's width); `m` is the masked flag; a payload is the 60 bits below the selector. -/
inductive Instr where
  /-- FW.ENC (R72) -/
  | fwEnc (bw : Nat) (m : Bool) (cap len : Nat)
  /-- FW.DEC (R76) -/
  | fwDec (bw cap len : Nat)
  /-- CAT.RD (R86) -/
  | catRd (sel cap : Nat)
  /-- S8.CHOOSE (R91) -/
  | s8Choose (len : Nat)
  /-- S8.ENCSEL (R96) -/
  | s8Encsel (sel cap len : Nat)
  /-- S8.DECSEL (R101) -/
  | s8Decsel (cap len : Nat)
  /-- S8.ENC (R108) -/
  | s8Enc (cap len : Nat)
  /-- S8.DEC (R113) -/
  | s8Dec (cap len : Nat)
  /-- S8W.SEL0: 240 zeros, no fields (R81) -/
  | s8wSel0 (payload : BitVec 60)
  /-- S8W.SEL1: 120 zeros, no fields (R81) -/
  | s8wSel1 (payload : BitVec 60)
  /-- S8W.SEL2: 60 fields of 1 bit (R81) -/
  | s8wSel2 (payload : BitVec 60)
  /-- S8W.SEL3: 30 fields of 2 bits (R81) -/
  | s8wSel3 (payload : BitVec 60)
  /-- S8W.SEL4: 20 fields of 3 bits (R81) -/
  | s8wSel4 (payload : BitVec 60)
  /-- S8W.SEL5: 15 fields of 4 bits (R81) -/
  | s8wSel5 (payload : BitVec 60)
  /-- S8W.SEL6: 12 fields of 5 bits (R81) -/
  | s8wSel6 (payload : BitVec 60)
  /-- S8W.SEL7: 10 fields of 6 bits (R81) -/
  | s8wSel7 (payload : BitVec 60)
  /-- S8W.SEL8: 8 fields of 7 bits, irregular (R81) -/
  | s8wSel8 (payload : BitVec 60)
  /-- S8W.SEL9: 7 fields of 8 bits, irregular (R81) -/
  | s8wSel9 (payload : BitVec 60)
  /-- S8W.SEL10: 6 fields of 10 bits (R81) -/
  | s8wSel10 (payload : BitVec 60)
  /-- S8W.SEL11: 5 fields of 12 bits (R81) -/
  | s8wSel11 (payload : BitVec 60)
  /-- S8W.SEL12: 4 fields of 15 bits (R81) -/
  | s8wSel12 (payload : BitVec 60)
  /-- S8W.SEL13: 3 fields of 20 bits (R81) -/
  | s8wSel13 (payload : BitVec 60)
  /-- S8W.SEL14: 2 fields of 30 bits (R81) -/
  | s8wSel14 (payload : BitVec 60)
  /-- S8W.SEL15: 1 field of 60 bits (R81) -/
  | s8wSel15 (payload : BitVec 60)
deriving DecidableEq, Repr

/-- The format of an instruction's row in spec/opcode_table.json. -/
def Instr.format : Instr → Format
  | .fwEnc .. => .cmd
  | .fwDec .. => .cmd
  | .catRd .. => .cmd
  | .s8Choose .. => .cmd
  | .s8Encsel .. => .cmd
  | .s8Decsel .. => .cmd
  | .s8Enc .. => .cmd
  | .s8Dec .. => .cmd
  | .s8wSel0 _ => .s8w
  | .s8wSel1 _ => .s8w
  | .s8wSel2 _ => .s8w
  | .s8wSel3 _ => .s8w
  | .s8wSel4 _ => .s8w
  | .s8wSel5 _ => .s8w
  | .s8wSel6 _ => .s8w
  | .s8wSel7 _ => .s8w
  | .s8wSel8 _ => .s8w
  | .s8wSel9 _ => .s8w
  | .s8wSel10 _ => .s8w
  | .s8wSel11 _ => .s8w
  | .s8wSel12 _ => .s8w
  | .s8wSel13 _ => .s8w
  | .s8wSel14 _ => .s8w
  | .s8wSel15 _ => .s8w

end Sys2Proof
end

