-- ==== Sys2Proof/WellFormed.lean ====
section
/-! DEFINITION. Which instruction terms a descriptor or a Simple8b word can express: every operand
fits the width of its descriptor field (R16, R46). -/

namespace Sys2Proof

/-- BW is 6 bits: 0 to 63 representable (R16, R47). -/
def bwFits (bw : Nat) : Bool := bw < 64

/-- SEL is 4 bits (R16). -/
def selFits (sel : Nat) : Bool := sel < 16

/-- CAP and LEN are 32 bits each (R7, R16). -/
def countFits (n : Nat) : Bool := n < 2 ^ 32

/-- Every operand fits its field. A Simple8b word's payload is 60 bits by its type, and no selector
is illegal (R57), so every `S8W` term is well formed. -/
def WellFormed : Instr → Bool
  | .fwEnc bw _ cap len => bwFits bw && countFits cap && countFits len
  | .fwDec bw cap len => bwFits bw && countFits cap && countFits len
  | .catRd sel cap => selFits sel && countFits cap
  | .s8Choose len => countFits len
  | .s8Encsel sel cap len => selFits sel && countFits cap && countFits len
  | .s8Decsel cap len => countFits cap && countFits len
  | .s8Enc cap len => countFits cap && countFits len
  | .s8Dec cap len => countFits cap && countFits len
  | .s8wSel0 _ => true
  | .s8wSel1 _ => true
  | .s8wSel2 _ => true
  | .s8wSel3 _ => true
  | .s8wSel4 _ => true
  | .s8wSel5 _ => true
  | .s8wSel6 _ => true
  | .s8wSel7 _ => true
  | .s8wSel8 _ => true
  | .s8wSel9 _ => true
  | .s8wSel10 _ => true
  | .s8wSel11 _ => true
  | .s8wSel12 _ => true
  | .s8wSel13 _ => true
  | .s8wSel14 _ => true
  | .s8wSel15 _ => true

end Sys2Proof
end

