-- ==== Sys2Proof/Decode.lean ====
section
/-! DEFINITION. Decoding, total and rejecting by name, and after it the encoder: the command
descriptor (R45 to R53) and the Simple8b word (R54, R57, R66). -/

namespace Sys2Proof

/-! ## Fields of the descriptor (R46, R47) -/

/-- OP = D0[63:60] (R47). -/
def fieldOp (d0 : Word) : Nat := (d0.extractLsb' 60 4).toNat

/-- BW = D0[59:54] (R47). -/
def fieldBw (d0 : Word) : Nat := (d0.extractLsb' 54 6).toNat

/-- M = D0[53] (R47). -/
def fieldM (d0 : Word) : Bool := d0.getLsbD 53

/-- SEL = D0[52:49] (R47). -/
def fieldSel (d0 : Word) : Nat := (d0.extractLsb' 49 4).toNat

/-- RSV = D0[48:0] (R47). -/
def fieldRsv (d0 : Word) : Nat := (d0.extractLsb' 0 49).toNat

/-- CAP = D1[63:32] (R47). -/
def fieldCap (d1 : Word) : Nat := (d1.extractLsb' 32 32).toNat

/-- LEN = D1[31:0] (R47). -/
def fieldLen (d1 : Word) : Nat := (d1.extractLsb' 0 32).toNat

/-! ## Decoding -/

/-- Why words do not decode to an instruction. -/
inductive Reject where
  /-- RSV is not zero (R52). -/
  | reservedBits
  /-- OP is 0 or 9 to 15 (R51). -/
  | reservedOp
  /-- Fewer words than the format has (R45: a descriptor is two words, a Simple8b word is one). -/
  | tooShort
deriving DecidableEq, Repr

/-- The command a descriptor names: RSV is tested before OP (R66, R123 items 1 and 2), and a field
the command does not use is ignored (R53). -/
def decodeCommand (d0 d1 : Word) : Except Reject Instr :=
  if fieldRsv d0 ≠ 0 then .error .reservedBits
  else
    match fieldOp d0 with
    | 1 => .ok (.fwEnc (fieldBw d0) (fieldM d0) (fieldCap d1) (fieldLen d1))
    | 2 => .ok (.fwDec (fieldBw d0) (fieldCap d1) (fieldLen d1))
    | 3 => .ok (.catRd (fieldSel d0) (fieldCap d1))
    | 4 => .ok (.s8Choose (fieldLen d1))
    | 5 => .ok (.s8Encsel (fieldSel d0) (fieldCap d1) (fieldLen d1))
    | 6 => .ok (.s8Decsel (fieldCap d1) (fieldLen d1))
    | 7 => .ok (.s8Enc (fieldCap d1) (fieldLen d1))
    | 8 => .ok (.s8Dec (fieldCap d1) (fieldLen d1))
    | _ => .error .reservedOp

/-- The selector of a Simple8b word, word[63:60] (R54). -/
def selectorOf (w : Word) : Nat := (w.extractLsb' 60 4).toNat

/-- The payload of a Simple8b word, word[59:0] (R54). -/
def payloadOf (w : Word) : BitVec 60 := w.extractLsb' 0 60

/-- The `S8W` row a Simple8b word matches. Every word matches exactly one, so this never fails
(R57, R66). -/
def decodeWord (w : Word) : Instr :=
  match selectorOf w with
  | 0 => .s8wSel0 (payloadOf w)
  | 1 => .s8wSel1 (payloadOf w)
  | 2 => .s8wSel2 (payloadOf w)
  | 3 => .s8wSel3 (payloadOf w)
  | 4 => .s8wSel4 (payloadOf w)
  | 5 => .s8wSel5 (payloadOf w)
  | 6 => .s8wSel6 (payloadOf w)
  | 7 => .s8wSel7 (payloadOf w)
  | 8 => .s8wSel8 (payloadOf w)
  | 9 => .s8wSel9 (payloadOf w)
  | 10 => .s8wSel10 (payloadOf w)
  | 11 => .s8wSel11 (payloadOf w)
  | 12 => .s8wSel12 (payloadOf w)
  | 13 => .s8wSel13 (payloadOf w)
  | 14 => .s8wSel14 (payloadOf w)
  | _ => .s8wSel15 (payloadOf w)

/-- Decoding a list of words read as one format. Words beyond the instruction's own are not looked at. -/
def decode : Format → List Word → Except Reject Instr
  | .cmd, d0 :: d1 :: _ => decodeCommand d0 d1
  | .cmd, _ => .error .tooShort
  | .s8w, w :: _ => .ok (decodeWord w)
  | .s8w, [] => .error .tooShort

/-! ## Encoding -/

/-- `D0 = (OP << 60) | (BW << 54) | (M << 53) | (SEL << 49)` (R46). -/
def encodeD0 (op bw : Nat) (m : Bool) (sel : Nat) : Word :=
  (BitVec.ofNat 64 op <<< 60) ||| (BitVec.ofNat 64 bw <<< 54) |||
    (BitVec.ofNat 64 m.toNat <<< 53) ||| (BitVec.ofNat 64 sel <<< 49)

/-- `D1 = (CAP << 32) | LEN` (R46). -/
def encodeD1 (cap len : Nat) : Word :=
  (BitVec.ofNat 64 cap <<< 32) ||| BitVec.ofNat 64 len

/-- A Simple8b word from its selector and its payload (R54). -/
def wordOf (sel : Nat) (payload : BitVec 60) : Word :=
  (BitVec.ofNat 64 sel <<< 60) ||| payload.setWidth 64

/-- The words of a well-formed instruction: two for a command, D0 first (R45), one for a Simple8b
word. A field the command ignores assembles as zero (R63). -/
def encode : Instr → List Word
  | .fwEnc bw m cap len => [encodeD0 1 bw m 0, encodeD1 cap len]
  | .fwDec bw cap len => [encodeD0 2 bw false 0, encodeD1 cap len]
  | .catRd sel cap => [encodeD0 3 0 false sel, encodeD1 cap 0]
  | .s8Choose len => [encodeD0 4 0 false 0, encodeD1 0 len]
  | .s8Encsel sel cap len => [encodeD0 5 0 false sel, encodeD1 cap len]
  | .s8Decsel cap len => [encodeD0 6 0 false 0, encodeD1 cap len]
  | .s8Enc cap len => [encodeD0 7 0 false 0, encodeD1 cap len]
  | .s8Dec cap len => [encodeD0 8 0 false 0, encodeD1 cap len]
  | .s8wSel0 p => [wordOf 0 p]
  | .s8wSel1 p => [wordOf 1 p]
  | .s8wSel2 p => [wordOf 2 p]
  | .s8wSel3 p => [wordOf 3 p]
  | .s8wSel4 p => [wordOf 4 p]
  | .s8wSel5 p => [wordOf 5 p]
  | .s8wSel6 p => [wordOf 6 p]
  | .s8wSel7 p => [wordOf 7 p]
  | .s8wSel8 p => [wordOf 8 p]
  | .s8wSel9 p => [wordOf 9 p]
  | .s8wSel10 p => [wordOf 10 p]
  | .s8wSel11 p => [wordOf 11 p]
  | .s8wSel12 p => [wordOf 12 p]
  | .s8wSel13 p => [wordOf 13 p]
  | .s8wSel14 p => [wordOf 14 p]
  | .s8wSel15 p => [wordOf 15 p]

/-! ## The opcode table's rows -/

/-- The `match` column of an instruction's row in spec/opcode_table.json, over its first word. -/
def rowMatch : Instr → Word
  | .fwEnc .. => 0x1000000000000000#64
  | .fwDec .. => 0x2000000000000000#64
  | .catRd .. => 0x3000000000000000#64
  | .s8Choose .. => 0x4000000000000000#64
  | .s8Encsel .. => 0x5000000000000000#64
  | .s8Decsel .. => 0x6000000000000000#64
  | .s8Enc .. => 0x7000000000000000#64
  | .s8Dec .. => 0x8000000000000000#64
  | .s8wSel0 _ => 0x0000000000000000#64
  | .s8wSel1 _ => 0x1000000000000000#64
  | .s8wSel2 _ => 0x2000000000000000#64
  | .s8wSel3 _ => 0x3000000000000000#64
  | .s8wSel4 _ => 0x4000000000000000#64
  | .s8wSel5 _ => 0x5000000000000000#64
  | .s8wSel6 _ => 0x6000000000000000#64
  | .s8wSel7 _ => 0x7000000000000000#64
  | .s8wSel8 _ => 0x8000000000000000#64
  | .s8wSel9 _ => 0x9000000000000000#64
  | .s8wSel10 _ => 0xA000000000000000#64
  | .s8wSel11 _ => 0xB000000000000000#64
  | .s8wSel12 _ => 0xC000000000000000#64
  | .s8wSel13 _ => 0xD000000000000000#64
  | .s8wSel14 _ => 0xE000000000000000#64
  | .s8wSel15 _ => 0xF000000000000000#64

/-- The `mask` column of a row: OP and RSV for a command (R50), the selector for a word (R66). -/
def rowMask (i : Instr) : Word :=
  match i.format with
  | .cmd => 0xF001FFFFFFFFFFFF#64
  | .s8w => 0xF000000000000000#64

/-! ## The table's numbering of bits -/

/-- The first 64-bit word of an instruction whose bits are `w`, bit 0 the least significant bit of
the first word. -/
def tableWord0 (w : Nat) : Word := BitVec.ofNat 64 w

/-- Its second word, which carries the bits from 64 on. -/
def tableWord1 (w : Nat) : Word := BitVec.ofNat 64 (w / 2 ^ 64)

/-- Which format the bits `w` are read as, when only the bits are known: a command's, where they are
a command's descriptor; else, when they are one word long, a Simple8b word's. The two formats overlap
as bits (the port a word arrives at tells them apart), see notes/assumptions/12.md. -/
def tableFormat (nbits w : Nat) : Format :=
  match decodeCommand (tableWord0 w) (tableWord1 w) with
  | .ok _ => .cmd
  | .error _ => if nbits ≤ 64 then .s8w else .cmd

/-- The instruction the decoder reads from an instruction whose bits are `w`. -/
def decodeTableWord (nbits w : Nat) : Option Instr :=
  match decode (tableFormat nbits w) [tableWord0 w, tableWord1 w] with
  | .ok i => some i
  | .error _ => none

end Sys2Proof
end

