-- ==== Sys2Proof/Machine/Catalog.lean ====
section
/-! DEFINITION. The selector catalog: the ROM's contents (R15, R81), the layout each entry implies
(R82, R84), and the fit test (R10, R90). -/

namespace Sys2Proof.Machine

/-- One catalog entry (R15): `bits` per value, `count` of values, the value `mask`, and the list of
shifts, one for each field from the first value to the last. -/
structure CatEntry where
  bits   : Nat
  count  : Nat
  mask   : Word
  shifts : List Nat
deriving DecidableEq, Repr

/-- The sixteen entries, selector 0 first, each with the shifts R81's table gives it. -/
def romCatalog : List CatEntry :=
  [ { bits := 0,  count := 240, mask := 0x0000000000000000#64, shifts := [] },
    { bits := 0,  count := 120, mask := 0x0000000000000000#64, shifts := [] },
    { bits := 1,  count := 60,  mask := 0x0000000000000001#64,
      shifts := [59, 58, 57, 56, 55, 54, 53, 52, 51, 50, 49, 48, 47, 46, 45, 44, 43, 42, 41, 40,
        39, 38, 37, 36, 35, 34, 33, 32, 31, 30, 29, 28, 27, 26, 25, 24, 23, 22, 21, 20,
        19, 18, 17, 16, 15, 14, 13, 12, 11, 10, 9, 8, 7, 6, 5, 4, 3, 2, 1, 0] },
    { bits := 2,  count := 30,  mask := 0x0000000000000003#64,
      shifts := [58, 56, 54, 52, 50, 48, 46, 44, 42, 40, 38, 36, 34, 32, 30, 28, 26, 24, 22, 20,
        18, 16, 14, 12, 10, 8, 6, 4, 2, 0] },
    { bits := 3,  count := 20,  mask := 0x0000000000000007#64,
      shifts := [57, 54, 51, 48, 45, 42, 39, 36, 33, 30, 27, 24, 21, 18, 15, 12, 9, 6, 3, 0] },
    { bits := 4,  count := 15,  mask := 0x000000000000000F#64,
      shifts := [56, 52, 48, 44, 40, 36, 32, 28, 24, 20, 16, 12, 8, 4, 0] },
    { bits := 5,  count := 12,  mask := 0x000000000000001F#64,
      shifts := [55, 50, 45, 40, 35, 30, 25, 20, 15, 10, 5, 0] },
    { bits := 6,  count := 10,  mask := 0x000000000000003F#64,
      shifts := [54, 48, 42, 36, 30, 24, 18, 12, 6, 0] },
    { bits := 7,  count := 8,   mask := 0x000000000000007F#64,
      shifts := [49, 42, 35, 28, 21, 14, 7, 0] },
    { bits := 8,  count := 7,   mask := 0x00000000000000FF#64,
      shifts := [48, 40, 32, 24, 16, 8, 0] },
    { bits := 10, count := 6,   mask := 0x00000000000003FF#64,
      shifts := [50, 40, 30, 20, 10, 0] },
    { bits := 12, count := 5,   mask := 0x0000000000000FFF#64,
      shifts := [48, 36, 24, 12, 0] },
    { bits := 15, count := 4,   mask := 0x0000000000007FFF#64,
      shifts := [45, 30, 15, 0] },
    { bits := 20, count := 3,   mask := 0x00000000000FFFFF#64,
      shifts := [40, 20, 0] },
    { bits := 30, count := 2,   mask := 0x000000003FFFFFFF#64,
      shifts := [30, 0] },
    { bits := 60, count := 1,   mask := 0x0FFFFFFFFFFFFFFF#64,
      shifts := [0] } ]

/-- What a table lookup beyond the table's end gives. A 4-bit selector never leads there (R15), so no
run of the machine reads it (notes/assumptions/18.md). -/
def noEntry : CatEntry := { bits := 0, count := 0, mask := 0, shifts := [] }

/-- `CAT[s]` in a table (R11). -/
def entryAt (cat : List CatEntry) (sel : Nat) : CatEntry := cat.getD sel noEntry

/-- `bitsRequired(v)`: the position of the highest set bit plus one, and 0 for `v = 0` (R10). -/
def bitsRequired (v : Nat) : Nat := if v = 0 then 0 else Nat.log2 v + 1

/-- The hardware's fit test of one value: `v & ~e.mask = 0` (R90). -/
def fits (e : CatEntry) (v : Word) : Bool := v &&& ~~~e.mask == 0#64

/-- The payload bits a word of this entry wastes: those that belong to no field (R12, R56, R81). -/
def wastedMask (e : CatEntry) : Word := lowMask Config.payloadWidth &&& ~~~lowMask (e.count * e.bits)

end Sys2Proof.Machine
end

