-- ==== Sys2Proof/Machine/State.lean ====
section
/-! DEFINITION. The state of the block as plain data: everything R14 and R23 give one engine, the
operands of the command in hand (R31), the instance's parameters (R8), what the host does next (R13),
and a counter of free values. -/

namespace Sys2Proof.Machine

/-- The run states of an engine (R13). -/
inductive RunState where
  | idle
  | busy
deriving DecidableEq, Repr

/-- Where a BUSY engine stands: at the start of the latched command, or between two words of the
S8.DEC loop (R113). A command is one atomic step from its start (R148); see notes/assumptions/7.md. -/
inductive Stage where
  | command
  | words
deriving DecidableEq, Repr

/-- The two kinds of fault a command raises (R119). Raising one ends the command with a response, so
it is a next state and no stop of the machine. -/
inductive FaultKind where
  | invalidArgument
  | boundsError
deriving DecidableEq, Repr

/-- The descriptor register DESC: two 64-bit words (R16, R45). -/
structure Descriptor where
  d0 : Word
  d1 : Word
deriving DecidableEq, Repr

/-- The two buffers of the command in hand (R31), each a list of elements (R36) from index 0 up. A
cell holds 64 bits: a V64 value or a Word whole, a V32 value in its low 32 bits. -/
structure Memory where
  input  : List Word
  output : List Word
deriving DecidableEq, Repr

/-- One command as a host issues it: the descriptor's two words and the command's two buffers (R16,
R31), and whether the host keeps its duties about them while the engine is BUSY (R34, R144). -/
structure Issue where
  d0 : Word
  d1 : Word
  input  : List Word
  output : List Word
  dutiesKept : Bool
deriving DecidableEq, Repr

/-- What the outside world does to the engine: issue a descriptor (R13), assert reset (R139), or
nothing for the length of one step. -/
inductive HostInput where
  | issue (c : Issue)
  | reset
  | tick
deriving DecidableEq, Repr

/-- The state of the block. -/
structure State where
  /-- The catalog ROM `CAT[0..15]` (R14, R15). -/
  cat : List CatEntry
  /-- The open parameters of the instance (R8). -/
  params : Params
  /-- The run state (R13). -/
  run : RunState
  /-- Where a BUSY engine stands in its command. -/
  stage : Stage
  /-- The latched descriptor DESC (R16). It is state of the block while BUSY only (R14): once its command has
  ended this field holds a free value (State.freeDescriptor, notes/assumptions/30.md). -/
  desc : Descriptor
  /-- The stream cursor `cur` (R20, R23). -/
  cur : Nat
  /-- The output elements the command has produced so far, first first. Their number is the working
  variable `k` (R23). They reach the output buffer when the command ends without a fault. -/
  emitted : List Word
  /-- The response register RSP (R18). -/
  rsp : Word
  /-- Whether RSP is in the window in which the host may read it (R146). -/
  rspValid : Bool
  /-- The command's buffers (R31). -/
  mem : Memory
  /-- Whether the host keeps its duties about those buffers (R34, R144). -/
  dutiesKept : Bool
  /-- What the host does next, earliest first (the model's own). -/
  host : List HostInput
  /-- The number of the next draw of free values (the model's own). -/
  draws : Nat
  /-- Which engine of a system this is (the model's own): free values are drawn under it, and no command
  sees it (R134). -/
  unit : Nat
deriving DecidableEq, Repr

/-- Why the machine would stop with a fault. It has no such reason: the block's faults end a command
with a response and leave the engine IDLE (R119, R124), so they are next states, and the spec names
nothing else that stops it. -/
inductive Fault where
deriving DecidableEq, Repr

/-- Why something has no step. -/
inductive Refusal where
  /-- An instruction whose meaning is not written yet: raised by exec's arms alone. Safe. -/
  | notModelled (mnemonic : String)
  /-- A descriptor issued to a BUSY engine: "a `BUSY` engine has no step that accepts a descriptor"
  (R143, U5). Raised by hostIssue, never by step. Safe. -/
  | engineBusy
deriving DecidableEq, Repr

/-- The machine right after reset (R25, R137): IDLE, the catalog in place, no working variables, no
command, and nothing issued yet. DESC and RSP are unspecified there: the model names zero
(notes/assumptions/8.md), and the host's read of RSP does not give it (State.readRsp). -/
def State.reset : State :=
  { cat := romCatalog
    params := Params.default
    run := .idle
    stage := .command
    desc := { d0 := 0#64, d1 := 0#64 }
    cur := 0
    emitted := []
    rsp := 0#64
    rspValid := false
    mem := { input := [], output := [] }
    dutiesKept := true
    host := []
    draws := 0
    unit := 0 }

end Sys2Proof.Machine
end

