-- ==== Sys2Proof/Machine/Flags.lean ====
section
/-! DEFINITION. The outcome of a command. The block has no condition codes (R21); what stands in
their place is the status code and the other fields of the response word (R18, R48, R49). -/

namespace Sys2Proof.Machine

/-- The status code of a fault (R49, R119); 0 is OK and 3 is never produced. -/
def faultCode : FaultKind → Nat
  | .invalidArgument => 1
  | .boundsError => 2

/-- `RSP = (STATUS << 62) | (RSEL << 58) | (RCOUNT << 50) | (RBITS << 43) | NOUT` (R48). -/
def rspWord (status rsel rcount rbits nout : Nat) : Word :=
  (BitVec.ofNat 64 status <<< 62) ||| (BitVec.ofNat 64 rsel <<< 58) |||
    (BitVec.ofNat 64 rcount <<< 50) ||| (BitVec.ofNat 64 rbits <<< 43) ||| BitVec.ofNat 64 nout

/-- The scalar results a command may return beside NOUT (R18); a command that returns none leaves all
three zero. -/
structure Results where
  rsel   : Nat := 0
  rcount : Nat := 0
  rbits  : Nat := 0
deriving DecidableEq, Repr

/-- The response of a command that ends without a fault (R11, R18). -/
def okRsp (r : Results) (nout : Nat) : Word := rspWord 0 r.rsel r.rcount r.rbits nout

/-- The response of a command that raises a fault: the code, and every other field zero (R124). -/
def faultRsp (f : FaultKind) : Word := rspWord (faultCode f) 0 0 0 0

/-- RSP[63:62] (R48). -/
def rspStatus (r : Word) : Nat := (r.extractLsb' 62 2).toNat

/-- RSP[61:58] (R48). -/
def rspRsel (r : Word) : Nat := (r.extractLsb' 58 4).toNat

/-- RSP[57:50] (R48). -/
def rspRcount (r : Word) : Nat := (r.extractLsb' 50 8).toNat

/-- RSP[49:43] (R48). -/
def rspRbits (r : Word) : Nat := (r.extractLsb' 43 7).toNat

/-- RSP[42:32], always zero (R18, R48). -/
def rspZero (r : Word) : Nat := (r.extractLsb' 32 11).toNat

/-- RSP[31:0] (R48). -/
def rspNout (r : Word) : Nat := (r.extractLsb' 0 32).toNat

end Sys2Proof.Machine
end

