-- ==== Sys2Proof/Machine/Operands.lean ====
section
/-! DEFINITION. Operand forms: the fields of the latched descriptor (R16), and the elements of the
input buffer read in each element space (R11, R32). -/

namespace Sys2Proof.Machine

/-- DESC.CAP: the capacity of the output buffer in elements (R16). -/
def State.descCap (s : State) : Nat := fieldCap s.desc.d1

/-- DESC.LEN: the number of elements of the input buffer (R16). -/
def State.descLen (s : State) : Nat := fieldLen s.desc.d1

/-- How many elements of the output buffer the latched command may leave unspecified when it is abandoned
or spoilt (R139, U6): CAP of them (R31), but none for S8.CHOOSE, which has no output buffer and ignores
CAP (R33, R53, notes/assumptions/5.md). For a reserved descriptor see notes/assumptions/4.md. -/
def State.outLimit (s : State) : Nat :=
  match decodeCommand s.desc.d0 s.desc.d1 with
  | .ok (.s8Choose _) => 0
  | _ => s.descCap

/-- `CAT[sel]` (R11). -/
def State.entry (s : State) (sel : Nat) : CatEntry := entryAt s.cat sel

/-- The cell of input element `i`. R31 has the host present exactly LEN elements; one that its list
does not hold is a free value (notes/assumptions/2.md). Reading has no side effect (R34, R39). -/
def State.inCell (s : State) (i : Nat) : Word := s.mem.input.getD i (Config.freeIn s.unit s.draws i)

/-- `MemRead(V32, i)`: a 32-bit value of the fixed-width scheme (R32). -/
def State.readV32 (s : State) (i : Nat) : BitVec 32 := (s.inCell i).setWidth 32

/-- `MemRead(V64, i)`: a 64-bit value of the adaptive scheme (R32). -/
def State.readV64 (s : State) (i : Nat) : Word := s.inCell i

/-- `MemRead(W, i)`: a Word (R32). -/
def State.readW (s : State) (i : Nat) : Word := s.inCell i

/-- The first `n` input elements in space V32. -/
def State.inV32 (s : State) (n : Nat) : List (BitVec 32) := (List.range n).map s.readV32

/-- The first `n` input elements in space V64. -/
def State.inV64 (s : State) (n : Nat) : List Word := (List.range n).map s.readV64

/-- The first `n` input elements in space W. -/
def State.inW (s : State) (n : Nat) : List Word := (List.range n).map s.readW

/-- The cells of a list of V32 elements: each zero-extended to its cell. -/
def cellsOfV32 (vs : List (BitVec 32)) : List Word := vs.map (fun v => v.setWidth 64)

/-- The host's list of input elements is as long as the descriptor says, and its list of output
elements has room for CAP elements (R31). -/
def Memory.wf (m : Memory) (cap len : Nat) : Bool := m.input.length == len && decide (cap ≤ m.output.length)

end Sys2Proof.Machine
end

