-- ==== Sys2Proof/Machine/Ops.lean ====
section
/-! DEFINITION. The named operations over the state: ending a command without a fault (R11), raising
a fault and what is left after it (R124, R126, R128), accepting a descriptor (R13, R16), reset (R25,
R139), and the host's read of the response (R146). -/

namespace Sys2Proof.Machine

/-- `MemWrite` of a list of elements from index 0 up: the element at each index is replaced whole
(R39); an element the list of new ones does not reach keeps its value (R35, U16), and one that the
host's buffer does not hold is not recorded (notes/assumptions/3.md). -/
def overlay : List Word → List Word → List Word
  | [], old => old
  | _ :: _, [] => []
  | v :: vs, _ :: old => v :: overlay vs old

/-- A buffer whose first `cap` elements are unspecified: each is a free value (R126, R139), drawn by engine
`unit`. -/
def scrambled (unit n cap : Nat) (old : List Word) : List Word :=
  overlay ((List.range (min cap old.length)).map (Config.freeOut unit n)) old

/-- The output buffer after a fault (R126): with `P_FAULT_OUTPUT = any` each of its CAP elements is
unspecified, with `untouched` it is as before the command. -/
def State.faultOutput (s : State) (cap : Nat) : List Word :=
  match s.params.faultOutput with
  | .any => scrambled s.unit s.draws cap s.mem.output
  | .untouched => s.mem.output

/-- What DESC holds once its command has ended: an unspecified value. The latched descriptor is state of
the block while BUSY only (R14), and no copy of its bit M, nor of any other, is held between commands (R17;
notes/assumptions/30.md). -/
def State.freeDescriptor (s : State) : Descriptor :=
  { d0 := Config.freeDesc s.unit s.draws 0, d1 := Config.freeDesc s.unit s.draws 1 }

/-- `complete(nout)` with the elements written: the command ends without a fault, its elements are in
the output buffer, RSP carries its results, and the engine is IDLE with no working variables (R11,
R13, R23). NOUT is the number of elements written (R18). The descriptor is let go (R14, R17). -/
def State.complete (s : State) (r : Results) (vals : List Word) : State :=
  { s with
    run := .idle
    stage := .command
    desc := s.freeDescriptor
    cur := 0
    emitted := []
    rsp := okRsp r vals.length
    rspValid := true
    mem := { s.mem with output := overlay vals s.mem.output }
    draws := s.draws + 1 }

/-- `raise F` (R124): the command ends at once, RSP carries the fault's code and nothing else, the
engine is IDLE, nothing is saved, the descriptor is let go (R14, R17), and the output buffer is as R126
says. `cap` is the capacity of the command's output buffer. This is the block's one way of taking an exception. -/
def State.raise (s : State) (f : FaultKind) (cap : Nat) : State :=
  { s with
    run := .idle
    stage := .command
    desc := s.freeDescriptor
    cur := 0
    emitted := []
    rsp := faultRsp f
    rspValid := true
    mem := { s.mem with output := s.faultOutput cap }
    draws := s.draws + 1 }

/-- The return from a fault (R128): there is no such command and nothing to restore. The engine is
IDLE already and the next descriptor runs as if the fault had never been, so the return changes
nothing. -/
def State.returnFromFault (s : State) : State := s

/-- The start of the S8.DEC loop: `cur <- 0 ; k <- 0` (R113). -/
def State.beginWords (s : State) : State :=
  { s with run := .busy, stage := .words, cur := 0, emitted := [] }

/-- The engine accepts a descriptor: DESC is latched whole, the command's buffers are its operands,
the engine is BUSY, and the response of the command before is no longer readable (R13, R16, R146). -/
def State.accept (s : State) (c : Issue) : State :=
  { s with
    run := .busy
    stage := .command
    desc := { d0 := c.d0, d1 := c.d1 }
    cur := 0
    emitted := []
    rspValid := false
    mem := { input := c.input, output := c.output }
    dutiesKept := c.dutiesKept
    draws := s.draws + 1 }

/-- The host's attempt to issue a descriptor: an IDLE engine accepts it, a BUSY one has no step that
does (R143, U5). -/
def hostIssue (c : Issue) (s : State) : Host.Outcome State Fault Refusal :=
  match s.run with
  | .idle => .next (s.accept c)
  | .busy => .refused .engineBusy

/-- The output buffer when reset is asserted: that of an abandoned command is unspecified, whatever
`P_FAULT_OUTPUT` is, as far as the command has one (State.outLimit); with no command in flight it is not
touched (R25, R139). -/
def State.resetOutput (s : State) : List Word :=
  match s.run with
  | .idle => s.mem.output
  | .busy => scrambled s.unit s.draws s.outLimit s.mem.output

/-- Reset asserted by the host (R25, R137, R139): a command in flight is abandoned and produces no
response, DESC and RSP are unspecified, the catalog holds its entries, the input buffer is unchanged. -/
def State.assertReset (s : State) : State :=
  { s with
    cat := romCatalog
    run := .idle
    stage := .command
    desc := s.freeDescriptor
    cur := 0
    emitted := []
    rsp := Config.freeRsp s.unit s.draws
    rspValid := false
    mem := { s.mem with output := s.resetOutput }
    draws := s.draws + 1 }

/-- What the host gets when it reads RSP: the response, within the window R146 gives; outside it, an
unspecified value (U4). -/
def State.readRsp (s : State) : Word :=
  if s.rspValid then s.rsp else Config.freeRsp s.unit s.draws

/-- A command during which the host broke a duty about its buffers has unspecified outputs: every
output element below `cap`, and every response field (R34, R144, U6). -/
def State.breachOutputs (s : State) (cap : Nat) : State :=
  { s with
    rsp := Config.freeRsp s.unit s.draws
    mem := { s.mem with output := scrambled s.unit s.draws cap s.mem.output }
    draws := s.draws + 1 }

/-- What the engine's own move leaves once the host's conduct during it is taken into account: only a
command that has ended has outputs to be spoilt. `cap` is how many output elements that command had
(State.outLimit, taken before the move, since the descriptor goes with the command). -/
def State.settle (cap : Nat) (s : State) : State :=
  match s.run, s.dutiesKept with
  | .idle, false => s.breachOutputs cap
  | _, _ => s

/-- The host's next input has been used up by one step. -/
def State.tickHost (s : State) : State :=
  match s.host with
  | .tick :: rest => { s with host := rest }
  | _ => s

end Sys2Proof.Machine
end

