-- ==== Sys2Proof/Machine/CatalogRead.lean ====
section
/-! DEFINITION. CAT.RD, the command that reads one catalog entry to the host
(spec/41_selector_catalog.md R86). -/

namespace Sys2Proof.Machine

/-- CAT.RD (R86). -/
def execCatRd (sel cap : Nat) (s : State) : Host.Outcome State Fault Refusal :=
  .next <|
    if cap < 1 then s.raise .boundsError cap
    else
      s.complete { rsel := sel, rcount := (s.entry sel).count, rbits := (s.entry sel).bits }
        [(s.entry sel).mask]

end Sys2Proof.Machine
end

