-- ==== Sys2Proof/Machine/FixedWidth.lean ====
section
/-! DEFINITION. The fixed-width packer: FW.ENC and FW.DEC (spec/40_fixed_width_packer.md). -/

namespace Sys2Proof.Machine

/-! ## The bit-field shifter and the mask unit (R59, R60, R68, R69, R75) -/

/-- `nw(bw) = ceil(32*bw/64)`, the Words of one packed block (R59). -/
def fwWords (bw : Nat) : Nat := (32 * bw + 63) / 64

/-- The word in which value `j` starts (R60). -/
def firstWord (bw j : Nat) : Nat := j * bw / 64

/-- The word in which value `j` ends (R60). -/
def secondWord (bw j : Nat) : Nat := (j * bw + bw - 1) / 64

/-- The bit of its first word at which value `j` starts (R60). -/
def fieldShift (bw j : Nat) : Nat := j * bw % 64

/-- Value `j` spans two words: it straddles (R60). -/
def straddles (bw j : Nat) : Bool := firstWord bw j != secondWord bw j

/-- OR a quantity into accumulator `q`. -/
def orInto (ws : List Word) (q : Nat) (x : Word) : List Word := ws.modify q (fun w => w ||| x)

/-- `Place(j, v)` (R69). -/
def place (bw : Nat) (ws : List Word) (j : Nat) (v : Word) : List Word :=
  if straddles bw j then
    orInto (orInto ws (firstWord bw j) (v <<< fieldShift bw j)) (secondWord bw j)
      (v >>> (64 - fieldShift bw j))
  else orInto ws (firstWord bw j) (v <<< fieldShift bw j)

/-- Placing values `j`, `j+1`, ... in that order. -/
def placeFrom (bw : Nat) : Nat → List Word → List Word → List Word
  | _, [], ws => ws
  | j, v :: vs, ws => placeFrom bw (j + 1) vs (place bw ws j v)

/-- A value as FW.ENC places it: zero-extended to 64 bits (R68), and in masked mode cut to its low
`bw` bits (R73). -/
def fwOperand (m : Bool) (bw : Nat) (x : BitVec 32) : Word :=
  if m then x.setWidth 64 &&& lowMask bw else x.setWidth 64

/-- The Words of a block: the accumulators start at zero (R68) and every value is placed (R72). -/
def fwPack (m : Bool) (bw : Nat) (vals : List (BitVec 32)) : List Word :=
  placeFrom bw 0 (vals.map (fwOperand m bw)) (List.replicate (fwWords bw) 0#64)

/-- `Extract(j)` (R75). -/
def extract (bw : Nat) (ws : List Word) (j : Nat) : BitVec 32 :=
  let low := ws.getD (firstWord bw j) 0#64 >>> fieldShift bw j
  let x :=
    if straddles bw j then low ||| (ws.getD (secondWord bw j) 0#64 <<< (64 - fieldShift bw j))
    else low
  (x &&& lowMask bw).setWidth 32

/-- The 32 values of a packed block (R76). -/
def fwUnpack (bw : Nat) (ws : List Word) : List (BitVec 32) :=
  (List.range Config.blockLen).map (extract bw ws)

/-! ## The commands -/

/-- FW.ENC at bit width 0 with `P_ZERO_WIDTH = accept` (R71): LEN 0 or 32 is accepted, no word is
written, CAP is not looked at. -/
def fwEncZeroWidth (cap len : Nat) (s : State) : State :=
  if len = 0 ∨ len = Config.blockLen then s.complete {} [] else s.raise .boundsError cap

/-- FW.DEC at bit width 0 with `P_ZERO_WIDTH = accept` (R71): 32 zeros from an empty input. -/
def fwDecZeroWidth (cap len : Nat) (s : State) : State :=
  if len ≠ 0 ∨ cap < Config.blockLen then s.raise .boundsError cap
  else s.complete {} (cellsOfV32 (List.replicate Config.blockLen 0#32))

/-- FW.ENC (R72). -/
def execFwEnc (bw : Nat) (m : Bool) (cap len : Nat) (s : State) : Host.Outcome State Fault Refusal :=
  .next <|
    if bw = 0 ∧ s.params.zeroWidth = .accept then fwEncZeroWidth cap len s
    else if bw < Config.bwMin ∨ Config.bwMax < bw then s.raise .invalidArgument cap
    else if len = 0 then s.complete {} []
    else if len ≠ Config.blockLen then s.raise .boundsError cap
    else if cap < fwWords bw then s.raise .boundsError cap
    else s.complete {} (fwPack m bw (s.inV32 Config.blockLen))

/-- FW.DEC (R76). -/
def execFwDec (bw cap len : Nat) (s : State) : Host.Outcome State Fault Refusal :=
  .next <|
    if bw = 0 ∧ s.params.zeroWidth = .accept then fwDecZeroWidth cap len s
    else if bw < Config.bwMin ∨ Config.bwMax < bw then s.raise .invalidArgument cap
    else if len = 0 then s.complete {} []
    else if len ≠ fwWords bw then s.raise .boundsError cap
    else if cap < Config.blockLen then s.raise .boundsError cap
    else s.complete {} (cellsOfV32 (fwUnpack bw (s.inW (fwWords bw))))

end Sys2Proof.Machine
end

