-- ==== Sys2Proof/Machine/Simple8bWord.lean ====
section
/-! DEFINITION. The Simple8b word unit: S8.CHOOSE, S8.ENCSEL, S8.DECSEL (spec/42_simple8b_word.md). -/

namespace Sys2Proof.Machine

/-! ## Choosing, building and taking apart one word -/

/-- The values of a run that starts the list and has at most `e.count` of them all fit the entry (R91). -/
def feasible (e : CatEntry) (vals : List Word) : Bool :=
  (vals.take (min e.count vals.length)).all (fits e)

/-- `Choose` over the entries that are left, the first of them having selector `sel` (R91): the first
feasible entry in table order, with `min(count, rem)` values. -/
def chooseFrom : List CatEntry → Nat → List Word → Option (Nat × Nat)
  | [], _, _ => none
  | e :: es, sel, vals =>
    if feasible e vals then some (sel, min e.count vals.length) else chooseFrom es (sel + 1) vals

/-- `Choose(in, rem)` for the `rem` values of the list (R91): the selector and the count, or none
where no entry is feasible (R95). -/
def choose (cat : List CatEntry) (vals : List Word) : Option (Nat × Nat) := chooseFrom cat 0 vals

/-- OR each value, masked, into its field; an entry without fields has no shifts and takes none (R96). -/
def insertFields (mask : Word) : List Word → List Nat → Word → Word
  | v :: vs, sh :: shs, acc => insertFields mask vs shs (acc ||| ((v &&& mask) <<< sh))
  | _, _, acc => acc

/-- `EncSel(s, in, c)` for the `c` values of the list (R96): the fields beyond them stay zero (R98). -/
def encSel (e : CatEntry) (sel : Nat) (vals : List Word) : Word :=
  insertFields e.mask vals e.shifts (BitVec.ofNat 64 sel <<< 60)

/-- Value `i` of a word with entry `e` (R101). -/
def fieldValue (e : CatEntry) (w : Word) (i : Nat) : Word :=
  if e.bits = 0 then 0#64 else (w >>> e.shifts.getD i 0) &&& e.mask

/-- The `e.count` values of a word, first first (R101). -/
def decodeFields (e : CatEntry) (w : Word) : List Word := (List.range e.count).map (fieldValue e w)

/-- `DecSel(word)` (R101): the selector and the values. -/
def decSel (cat : List CatEntry) (w : Word) : Nat × List Word :=
  (selectorOf w, decodeFields (entryAt cat (selectorOf w)) w)

/-! ## The commands -/

/-- S8.CHOOSE (R91). It has no output buffer, so its faults leave none unspecified
(notes/assumptions/5.md). -/
def execS8Choose (len : Nat) (s : State) : Host.Outcome State Fault Refusal :=
  .next <|
    if len = 0 then s.raise .boundsError 0
    else
      match choose s.cat (s.inV64 len) with
      | none => s.raise .invalidArgument 0
      | some (sel, c) => s.complete { rsel := sel, rcount := c, rbits := (s.entry sel).bits } []

/-- S8.ENCSEL (R96): it consumes `min(count, LEN)` values and masks each (R97). -/
def execS8Encsel (sel cap len : Nat) (s : State) : Host.Outcome State Fault Refusal :=
  .next <|
    if len = 0 then s.raise .boundsError cap
    else if cap < 1 then s.raise .boundsError cap
    else
      s.complete { rcount := min (s.entry sel).count len, rbits := (s.entry sel).bits }
        [encSel (s.entry sel) sel (s.inV64 (min (s.entry sel).count len))]

/-- S8.DECSEL (R101): it reads `in[0]` only. -/
def execS8Decsel (cap len : Nat) (s : State) : Host.Outcome State Fault Refusal :=
  .next <|
    if len = 0 then s.raise .boundsError cap
    else
      let sel := selectorOf (s.readW 0)
      if cap < (s.entry sel).count then s.raise .boundsError cap
      else
        s.complete { rsel := sel, rcount := (s.entry sel).count, rbits := (s.entry sel).bits }
          (decodeFields (s.entry sel) (s.readW 0))

end Sys2Proof.Machine
end

