-- ==== Sys2Proof/Machine/Simple8bStream.lean ====
section
/-! DEFINITION. The Simple8b stream unit: S8.ENC and S8.DEC (spec/43_simple8b_stream.md), and the
sixteen Simple8b words, each of which is one pass of the S8.DEC loop. -/

namespace Sys2Proof.Machine

/-! ## The loops -/

/-- The S8.ENC loop from the cursor on (R108): the values still to encode, and how many output
elements are left. Per run the selector is chosen first and the room is tested second (R110). -/
def encodeRuns (cat : List CatEntry) : (room : Nat) → List Word → Except FaultKind (List Word)
  | _, [] => .ok []
  | 0, v :: vs =>
    match choose cat (v :: vs) with
    | none => .error .invalidArgument
    | some _ => .error .boundsError
  | room + 1, v :: vs =>
    match choose cat (v :: vs) with
    | none => .error .invalidArgument
    | some (sel, c) =>
      match encodeRuns cat room ((v :: vs).drop c) with
      | .ok ws => .ok (encSel (entryAt cat sel) sel ((v :: vs).take c) :: ws)
      | .error f => .error f

/-- One pass of the S8.DEC loop for the word in hand (R113): a word whose values do not fit in what is
left of the output buffer raises BoundsError before any of them is produced (R115); else its values
follow those produced so far and the cursor advances by one. -/
def emitWord (cap : Nat) (w : Word) (s : State) : Except FaultKind State :=
  if cap < s.emitted.length + (s.entry (selectorOf w)).count then .error .boundsError
  else
    .ok { s with
      emitted := s.emitted ++ decodeFields (s.entry (selectorOf w)) w
      cur := s.cur + 1 }

/-- The S8.DEC loop over the words from the cursor on (R113). -/
def emitWords (cap : Nat) : List Word → State → Except FaultKind State
  | [], s => .ok s
  | w :: ws, s =>
    match emitWord cap w s with
    | .ok t => emitWords cap ws t
    | .error f => .error f

/-! ## The commands -/

/-- S8.ENC (R108). -/
def execS8Enc (cap len : Nat) (s : State) : Host.Outcome State Fault Refusal :=
  .next <|
    match encodeRuns s.cat cap (s.inV64 len) with
    | .ok ws => s.complete {} ws
    | .error f => s.raise f cap

/-- S8.DEC (R113). -/
def execS8Dec (cap len : Nat) (s : State) : Host.Outcome State Fault Refusal :=
  .next <|
    match emitWords cap (s.inW len) s.beginWords with
    | .ok t => t.complete {} t.emitted
    | .error f => s.raise f cap

/-! ## The Simple8b words

A Simple8b word is what a decode command reads where a processor reads an instruction: running one is
one pass of the S8.DEC loop of the latched command. -/

/-- Running one Simple8b word in the S8.DEC loop of the latched command (R101, R113, R115). -/
def runWord (w : Word) (s : State) : State :=
  match emitWord s.descCap w s with
  | .ok t => t
  | .error f => s.raise f s.descCap

/-- S8W.SEL0: 240 zeros, whatever the payload (R81, R102). -/
def execS8wSel0 (p : BitVec 60) (s : State) : Host.Outcome State Fault Refusal := .next (runWord (wordOf 0 p) s)

/-- S8W.SEL1: 120 zeros, whatever the payload (R81, R102). -/
def execS8wSel1 (p : BitVec 60) (s : State) : Host.Outcome State Fault Refusal := .next (runWord (wordOf 1 p) s)

/-- S8W.SEL2: 60 values of 1 bit (R81). -/
def execS8wSel2 (p : BitVec 60) (s : State) : Host.Outcome State Fault Refusal := .next (runWord (wordOf 2 p) s)

/-- S8W.SEL3: 30 values of 2 bits (R81). -/
def execS8wSel3 (p : BitVec 60) (s : State) : Host.Outcome State Fault Refusal := .next (runWord (wordOf 3 p) s)

/-- S8W.SEL4: 20 values of 3 bits (R81). -/
def execS8wSel4 (p : BitVec 60) (s : State) : Host.Outcome State Fault Refusal := .next (runWord (wordOf 4 p) s)

/-- S8W.SEL5: 15 values of 4 bits (R81). -/
def execS8wSel5 (p : BitVec 60) (s : State) : Host.Outcome State Fault Refusal := .next (runWord (wordOf 5 p) s)

/-- S8W.SEL6: 12 values of 5 bits (R81). -/
def execS8wSel6 (p : BitVec 60) (s : State) : Host.Outcome State Fault Refusal := .next (runWord (wordOf 6 p) s)

/-- S8W.SEL7: 10 values of 6 bits (R81). -/
def execS8wSel7 (p : BitVec 60) (s : State) : Host.Outcome State Fault Refusal := .next (runWord (wordOf 7 p) s)

/-- S8W.SEL8: 8 values of 7 bits, bits 59:56 not looked at (R81, R102). -/
def execS8wSel8 (p : BitVec 60) (s : State) : Host.Outcome State Fault Refusal := .next (runWord (wordOf 8 p) s)

/-- S8W.SEL9: 7 values of 8 bits, bits 59:56 not looked at (R81, R102). -/
def execS8wSel9 (p : BitVec 60) (s : State) : Host.Outcome State Fault Refusal := .next (runWord (wordOf 9 p) s)

/-- S8W.SEL10: 6 values of 10 bits (R81). -/
def execS8wSel10 (p : BitVec 60) (s : State) : Host.Outcome State Fault Refusal := .next (runWord (wordOf 10 p) s)

/-- S8W.SEL11: 5 values of 12 bits (R81). -/
def execS8wSel11 (p : BitVec 60) (s : State) : Host.Outcome State Fault Refusal := .next (runWord (wordOf 11 p) s)

/-- S8W.SEL12: 4 values of 15 bits (R81). -/
def execS8wSel12 (p : BitVec 60) (s : State) : Host.Outcome State Fault Refusal := .next (runWord (wordOf 12 p) s)

/-- S8W.SEL13: 3 values of 20 bits (R81). -/
def execS8wSel13 (p : BitVec 60) (s : State) : Host.Outcome State Fault Refusal := .next (runWord (wordOf 13 p) s)

/-- S8W.SEL14: 2 values of 30 bits (R81). -/
def execS8wSel14 (p : BitVec 60) (s : State) : Host.Outcome State Fault Refusal := .next (runWord (wordOf 14 p) s)

/-- S8W.SEL15: 1 value of 60 bits (R81). -/
def execS8wSel15 (p : BitVec 60) (s : State) : Host.Outcome State Fault Refusal := .next (runWord (wordOf 15 p) s)

end Sys2Proof.Machine
end

