-- ==== Sys2Proof/Machine/Dispatch.lean ====
section
/-! DEFINITION. The dispatch: one arm per instruction, each one direct call of its meaning. -/

namespace Sys2Proof.Machine

open Sys2Proof

def exec (i : Instr) (s : State) : Host.Outcome State Fault Refusal :=
  match i with
  | .fwEnc bw m cap len => Sys2Proof.Machine.execFwEnc bw m cap len s
  | .fwDec bw cap len => Sys2Proof.Machine.execFwDec bw cap len s
  | .catRd sel cap => Sys2Proof.Machine.execCatRd sel cap s
  | .s8Choose len => Sys2Proof.Machine.execS8Choose len s
  | .s8Encsel sel cap len => Sys2Proof.Machine.execS8Encsel sel cap len s
  | .s8Decsel cap len => Sys2Proof.Machine.execS8Decsel cap len s
  | .s8Enc cap len => Sys2Proof.Machine.execS8Enc cap len s
  | .s8Dec cap len => Sys2Proof.Machine.execS8Dec cap len s
  | .s8wSel0 p => Sys2Proof.Machine.execS8wSel0 p s
  | .s8wSel1 p => Sys2Proof.Machine.execS8wSel1 p s
  | .s8wSel2 p => Sys2Proof.Machine.execS8wSel2 p s
  | .s8wSel3 p => Sys2Proof.Machine.execS8wSel3 p s
  | .s8wSel4 p => Sys2Proof.Machine.execS8wSel4 p s
  | .s8wSel5 p => Sys2Proof.Machine.execS8wSel5 p s
  | .s8wSel6 p => Sys2Proof.Machine.execS8wSel6 p s
  | .s8wSel7 p => Sys2Proof.Machine.execS8wSel7 p s
  | .s8wSel8 p => Sys2Proof.Machine.execS8wSel8 p s
  | .s8wSel9 p => Sys2Proof.Machine.execS8wSel9 p s
  | .s8wSel10 p => Sys2Proof.Machine.execS8wSel10 p s
  | .s8wSel11 p => Sys2Proof.Machine.execS8wSel11 p s
  | .s8wSel12 p => Sys2Proof.Machine.execS8wSel12 p s
  | .s8wSel13 p => Sys2Proof.Machine.execS8wSel13 p s
  | .s8wSel14 p => Sys2Proof.Machine.execS8wSel14 p s
  | .s8wSel15 p => Sys2Proof.Machine.execS8wSel15 p s

end Sys2Proof.Machine
end

