-- ==== Sys2Proof/Machine/Engine.lean ====
section
/-! DEFINITION. One step of the block: the host's reset or issue (R13, R139, R143), or the engine's own
move, which runs the command that DESC holds (R66, R123) or the word at the stream cursor (R113). -/

namespace Sys2Proof.Machine

/-- Apply a function to the state of a next outcome. -/
def onNext (f : State → State) : Host.Outcome State Fault Refusal → Host.Outcome State Fault Refusal
  | .next t => .next (f t)
  | .fault r => .fault r
  | .refused r => .refused r

/-- A BUSY engine at the start of its command: the descriptor decodes to a command and that command
runs whole (R148), or it does not and raises InvalidArgument, writing no output element (R51, R52, U11,
notes/assumptions/4.md). -/
def commandMove (s : State) : Host.Outcome State Fault Refusal :=
  match decodeCommand s.desc.d0 s.desc.d1 with
  | .ok i => exec i s
  | .error _ => .next (s.raise .invalidArgument 0)

/-- A BUSY engine between two words of the S8.DEC loop: the word at the cursor runs, or the words are
exhausted and the command completes (R113). -/
def wordsMove (s : State) : Host.Outcome State Fault Refusal :=
  if s.cur < s.descLen then exec (decodeWord (s.readW s.cur)) s
  else .next (s.complete {} s.emitted)

/-- A BUSY engine's own move in one step. -/
def engineMove (s : State) : Host.Outcome State Fault Refusal :=
  match s.stage with
  | .command => commandMove s
  | .words => wordsMove s

/-- One step. Reset takes effect at once whatever the engine does (R139). An IDLE engine takes the
descriptor the host issues and else does nothing (R13); a BUSY one takes no descriptor, which waits
(R143), and makes its own move, with the host's conduct during it taken into account (U6). -/
def advance (s : State) : Host.Outcome State Fault Refusal :=
  match s.host, s.run with
  | .reset :: rest, _ => .next (State.assertReset { s with host := rest })
  | .issue c :: rest, .idle => hostIssue c { s with host := rest }
  | _, .idle => .next s.tickHost
  | _, .busy => onNext (State.settle s.outLimit) (engineMove s.tickHost)

/-- A BUSY engine whose descriptor is the two words. -/
def withCommand (s : State) (d0 d1 : Word) : State :=
  { s with
    run := .busy
    stage := .command
    desc := { d0 := d0, d1 := d1 }
    cur := 0
    emitted := []
    rspValid := false
    host := .tick :: s.host }

/-- A BUSY engine in the S8.DEC loop, about to run one Simple8b word with room for the longest run. -/
def withWord (s : State) (w : Word) : State :=
  { s with
    run := .busy
    stage := .words
    desc := { d0 := encodeD0 8 0 false 0, d1 := encodeD1 Config.runMax 1 }
    cur := 0
    emitted := []
    rspValid := false
    mem := { input := [w], output := List.replicate Config.runMax 0#64 }
    host := .tick :: s.host }

/-- The instruction whose bits are `w` put where the next step fetches (notes/assumptions/11.md and
13.md). -/
def placeTableWord (s : State) (nbits w : Nat) : State :=
  match tableFormat nbits w with
  | .cmd => withCommand s (tableWord0 w) (tableWord1 w)
  | .s8w => withWord s (tableWord0 w)

end Sys2Proof.Machine
end

