-- ==== Sys2Proof/Machine/Step.lean ====
section
/-! DEFINITION. The step of the machine, and where a fetched instruction is placed. -/

namespace Sys2Proof.Machine

/-- One step of the block (R13, R113, R139, R143, R148). -/
def step (s : State) : Host.Outcome State Fault Refusal := advance s

/-- The state in which the next step fetches and runs the instruction whose bits are `w`. -/
def State.withFetchWord (s : State) (nbits w : Nat) : State := placeTableWord s nbits w

end Sys2Proof.Machine
end

