-- ==== Sys2Proof/Machine/Assembler.lean ====
section
/-! DEFINITION. The assembler of R63 to R65 over parsed lines: a command's name with its operands, and
the descriptor the host issues for it. Lines as text are in AsmText.lean. -/

namespace Sys2Proof.Machine

/-- The eight command names (R50). -/
inductive CommandName where
  | fwEnc
  | fwDec
  | catRd
  | s8Choose
  | s8Encsel
  | s8Decsel
  | s8Enc
  | s8Dec
deriving DecidableEq, Repr

/-- One line: `name bw=, m=, sel=, in=, out=` and the overrides `cap=`, `len=` (R63). A buffer is given
by the elements it holds. -/
structure AsmLine where
  name   : CommandName
  bw     : Option Nat := none
  m      : Option Nat := none
  sel    : Option Nat := none
  input  : Option (List Word) := none
  output : Option (List Word) := none
  cap    : Option Nat := none
  len    : Option Nat := none
deriving DecidableEq, Repr

/-- Why the assembler rejects a line. -/
inductive AsmError where
  /-- An operand R64 lists for the command is missing. -/
  | missingOperand
  /-- An operand the command ignores is given; R63 has it omitted. -/
  | unexpectedOperand
  /-- A number does not fit its field (R46, R64) or its element space (R32). -/
  | outOfRange
  /-- The text is no line of R63 or R64. -/
  | badText
  /-- A buffer is named that no line before declares (R63). -/
  | unknownBuffer
  /-- A buffer's element space is not the one the command takes (R33, R64). -/
  | wrongSpace
deriving DecidableEq, Repr

/-- The operation code of a command (R50). -/
def commandOp : CommandName → Nat
  | .fwEnc => 1
  | .fwDec => 2
  | .catRd => 3
  | .s8Choose => 4
  | .s8Encsel => 5
  | .s8Decsel => 6
  | .s8Enc => 7
  | .s8Dec => 8

/-- Which commands take `bw=` (R64). -/
def takesBw : CommandName → Bool
  | .fwEnc => true
  | .fwDec => true
  | _ => false

/-- Which commands take `m=` (R64): FW.ENC, for which it is mandatory (R17). -/
def takesM : CommandName → Bool
  | .fwEnc => true
  | _ => false

/-- Which commands take `sel=` (R64). -/
def takesSel : CommandName → Bool
  | .catRd => true
  | .s8Encsel => true
  | _ => false

/-- Which commands take `in=` (R64). -/
def takesIn : CommandName → Bool
  | .catRd => false
  | _ => true

/-- Which commands take `out=` (R64). -/
def takesOut : CommandName → Bool
  | .s8Choose => false
  | _ => true

/-- A number operand: present and below its limit where the command takes it, absent (and assembled as
zero) where it does not (R63). -/
def asmNumber (takes : Bool) (limit : Nat) : Option Nat → Except AsmError Nat
  | some n =>
    if takes then (if n < limit then .ok n else .error .outOfRange) else .error .unexpectedOperand
  | none => if takes then .error .missingOperand else .ok 0

/-- A buffer operand: present where the command takes it, absent (and without elements) where it does
not (R63). -/
def asmBuffer (takes : Bool) : Option (List Word) → Except AsmError (List Word)
  | some b => if takes then .ok b else .error .unexpectedOperand
  | none => if takes then .error .missingOperand else .ok []

/-- LEN or CAP: the size of the buffer unless the line overrides it (R63). -/
def asmCount (override : Option Nat) (size : Nat) : Except AsmError Nat :=
  if override.getD size < 2 ^ 32 then .ok (override.getD size) else .error .outOfRange

/-- The command a line assembles to, as the host issues it. -/
def assemble (l : AsmLine) : Except AsmError Issue :=
  match asmNumber (takesBw l.name) 64 l.bw, asmNumber (takesM l.name) 2 l.m,
      asmNumber (takesSel l.name) 16 l.sel, asmBuffer (takesIn l.name) l.input,
      asmBuffer (takesOut l.name) l.output with
  | .ok bw, .ok m, .ok sel, .ok input, .ok output =>
    match asmCount l.cap output.length, asmCount l.len input.length with
    | .ok cap, .ok len =>
      .ok { d0 := encodeD0 (commandOp l.name) bw (m == 1) sel
            d1 := encodeD1 cap len
            input := input
            output := output
            dutiesKept := true }
    | .error e, _ => .error e
    | _, .error e => .error e
  | .error e, _, _, _, _ => .error e
  | _, .error e, _, _, _ => .error e
  | _, _, .error e, _, _ => .error e
  | _, _, _, .error e, _ => .error e
  | _, _, _, _, .error e => .error e

/-- A program: the commands of its lines, in order, as the host's next inputs. The host waits for each
response before it issues the next descriptor (R42), which a BUSY engine enforces (R143). -/
def assembleProgram : List AsmLine → Except AsmError (List HostInput)
  | [] => .ok []
  | l :: ls =>
    match assemble l, assembleProgram ls with
    | .ok c, .ok rest => .ok (.issue c :: rest)
    | .error e, _ => .error e
    | _, .error e => .error e

end Sys2Proof.Machine
end

