-- ==== Sys2Proof/Machine/AsmText.lean ====
section
/-! DEFINITION. Assembler lines as text (R63, R64): the words and numbers of a line, buffer declarations,
and commands with their operands. A line is a list of characters; a comment runs from `;` to its end and a
number with `:` in front of a command is its label, as in 95_test_vectors.md 3. -/

namespace Sys2Proof.Machine

/-- The element spaces of R32. -/
inductive Space where
  | v32
  | v64
  | w
deriving DecidableEq, Repr

/-- A piece of a line. -/
inductive Token where
  | word (cs : List Char)
  | num (n : Nat)
  | sym (c : Char)
deriving DecidableEq, Repr

/-- A buffer as a command names it: declared on a line before, or written out (R63). -/
inductive BufferRef where
  | named (name : List Char)
  | literal (elems : List Nat)
deriving DecidableEq, Repr

/-- A command line (R63, R64). -/
structure CommandLine where
  name   : CommandName
  bw     : Option Nat := none
  m      : Option Nat := none
  sel    : Option Nat := none
  input  : Option BufferRef := none
  output : Option BufferRef := none
  cap    : Option Nat := none
  len    : Option Nat := none
deriving DecidableEq, Repr

/-- A line of a program. -/
inductive Line where
  | blank
  /-- `buf NAME : SPACE[n]`, an output buffer of `n` elements. -/
  | reserve (name : List Char) (space : Space) (n : Nat)
  /-- `buf NAME : SPACE = list`, an initialised input buffer. -/
  | initialised (name : List Char) (space : Space) (elems : List Nat)
  | command (c : CommandLine)
deriving DecidableEq, Repr

/-! ## Words and numbers -/

/-- The value of a digit, decimal or hexadecimal. -/
def digitValue (c : Char) : Option Nat :=
  if 48 ≤ c.toNat ∧ c.toNat ≤ 57 then some (c.toNat - 48)
  else if 65 ≤ c.toNat ∧ c.toNat ≤ 70 then some (c.toNat - 55)
  else if 97 ≤ c.toNat ∧ c.toNat ≤ 102 then some (c.toNat - 87)
  else none

/-- The number its digits write in a base, most significant digit first. -/
def numberFrom (base : Nat) : Nat → List Char → Option Nat
  | acc, [] => some acc
  | acc, c :: cs =>
    match digitValue c with
    | some d => if d < base then numberFrom base (acc * base + d) cs else none
    | none => none

/-- A word of a line: a number, hexadecimal with `0x` or decimal (R63), or a name. -/
def classify : List Char → Token
  | '0' :: 'x' :: c :: cs =>
    match numberFrom 16 0 (c :: cs) with
    | some n => .num n
    | none => .word ('0' :: 'x' :: c :: cs)
  | cs =>
    match numberFrom 10 0 cs with
    | some n => .num n
    | none => .word cs

/-- The characters names, mnemonics and numbers are made of. -/
def isWordChar (c : Char) : Bool :=
  c == '.' || c == '_' || (48 ≤ c.toNat && c.toNat ≤ 57) || (65 ≤ c.toNat && c.toNat ≤ 90) ||
    (97 ≤ c.toNat && c.toNat ≤ 122)

/-- The word gathered so far, last character first, put before the tokens that follow it. -/
def flush (acc : List Char) (ts : List Token) : List Token :=
  match acc with
  | [] => ts
  | _ :: _ => classify acc.reverse :: ts

/-- The tokens of a line. -/
def tokens : List Char → List Char → List Token
  | [], acc => flush acc []
  | c :: cs, acc =>
    if isWordChar c then tokens cs (c :: acc)
    else if c == ';' then flush acc []
    else if c == ' ' then flush acc (tokens cs [])
    else flush acc (.sym c :: tokens cs [])

/-! ## Lists of elements -/

/-- The elements after `[` up to `]`. -/
def listElems : List Token → Option (List Nat × List Token)
  | .num n :: .sym ']' :: ts => some ([n], ts)
  | .num n :: .sym ',' :: ts =>
    match listElems ts with
    | some (ns, rest) => some (n :: ns, rest)
    | none => none
  | _ => none

/-- `[...]` or `[...]*n` (R63). -/
def listTerm : List Token → Option (List Nat × List Token)
  | .sym '[' :: .sym ']' :: ts => some ([], ts)
  | .sym '[' :: ts =>
    match listElems ts with
    | some (ns, .sym '*' :: .num k :: rest) => some ((List.replicate k ns).flatten, rest)
    | r => r
  | _ => none

/-- Terms joined by `+` (R63). -/
def listExpr : (fuel : Nat) → List Token → Option (List Nat × List Token)
  | 0, _ => none
  | fuel + 1, ts =>
    match listTerm ts with
    | some (ns, .sym '+' :: rest) =>
      match listExpr fuel rest with
      | some (ms, rest') => some (ns ++ ms, rest')
      | none => none
    | r => r

/-! ## Lines -/

/-- The mnemonics of R50. -/
def commandNamed (cs : List Char) : Option CommandName :=
  if cs = ['F', 'W', '.', 'E', 'N', 'C'] then some .fwEnc
  else if cs = ['F', 'W', '.', 'D', 'E', 'C'] then some .fwDec
  else if cs = ['C', 'A', 'T', '.', 'R', 'D'] then some .catRd
  else if cs = ['S', '8', '.', 'C', 'H', 'O', 'O', 'S', 'E'] then some .s8Choose
  else if cs = ['S', '8', '.', 'E', 'N', 'C', 'S', 'E', 'L'] then some .s8Encsel
  else if cs = ['S', '8', '.', 'D', 'E', 'C', 'S', 'E', 'L'] then some .s8Decsel
  else if cs = ['S', '8', '.', 'E', 'N', 'C'] then some .s8Enc
  else if cs = ['S', '8', '.', 'D', 'E', 'C'] then some .s8Dec
  else none

/-- The names of the element spaces (R32). -/
def spaceNamed (cs : List Char) : Option Space :=
  if cs = ['V', '3', '2'] then some .v32
  else if cs = ['V', '6', '4'] then some .v64
  else if cs = ['W'] then some .w
  else none

/-- The place of an operand in the order of R63: `bw`, `m`, `sel`, `in`, `out`, then the overrides. -/
def operandPlace (key : List Char) : Option Nat :=
  if key = ['b', 'w'] then some 0
  else if key = ['m'] then some 1
  else if key = ['s', 'e', 'l'] then some 2
  else if key = ['i', 'n'] then some 3
  else if key = ['o', 'u', 't'] then some 4
  else if key = ['c', 'a', 'p'] then some 5
  else if key = ['l', 'e', 'n'] then some 6
  else none

/-- Set a number operand that is not set yet. -/
def CommandLine.setNumber (c : CommandLine) (place n : Nat) : Option CommandLine :=
  match place with
  | 0 => if c.bw = none then some { c with bw := some n } else none
  | 1 => if c.m = none then some { c with m := some n } else none
  | 2 => if c.sel = none then some { c with sel := some n } else none
  | 5 => if c.cap = none then some { c with cap := some n } else none
  | 6 => if c.len = none then some { c with len := some n } else none
  | _ => none

/-- Set a buffer operand that is not set yet. -/
def CommandLine.setBuffer (c : CommandLine) (place : Nat) (b : BufferRef) : Option CommandLine :=
  match place with
  | 3 => if c.input = none then some { c with input := some b } else none
  | 4 => if c.output = none then some { c with output := some b } else none
  | _ => none

/-- One `name=value`, and what is left of the line. -/
def operand (place : Nat) (ts : List Token) (c : CommandLine) : Option (CommandLine × List Token) :=
  match ts with
  | .num n :: rest => (c.setNumber place n).map (fun d => (d, rest))
  | .word cs :: rest => (c.setBuffer place (.named cs)).map (fun d => (d, rest))
  | ts =>
    match listExpr ts.length ts with
    | some (ns, rest) => (c.setBuffer place (.literal ns)).map (fun d => (d, rest))
    | none => none

/-- The operands of a line, separated by commas, in the order of R63 from place `least` on; `cap` and
`len` may come in either order. -/
def operands : (fuel least : Nat) → List Token → CommandLine → Option CommandLine
  | fuel + 1, least, .word key :: .sym '=' :: ts, c =>
    match operandPlace key with
    | none => none
    | some place =>
      if place < min least 5 then none
      else
        match operand place ts c with
        | some (d, []) => some d
        | some (d, .sym ',' :: rest) => operands fuel place rest d
        | _ => none
  | _, _, _, _ => none

/-- A command line without its label. -/
def commandOfTokens : List Token → Except AsmError Line
  | .word cs :: ts =>
    match commandNamed cs with
    | none => .error .badText
    | some name =>
      match operands (ts.length + 1) 0 ts { name := name } with
      | some c => .ok (.command c)
      | none => .error .badText
  | _ => .error .badText

/-- A line from its tokens. -/
def lineOfTokens : List Token → Except AsmError Line
  | [] => .ok .blank
  | .word ['b', 'u', 'f'] :: .word name :: .sym ':' :: .word sp :: ts =>
    match spaceNamed sp, ts with
    | some space, [.sym '[', .num n, .sym ']'] => .ok (.reserve name space n)
    | some space, .sym '=' :: ts =>
      match listExpr ts.length ts with
      | some (ns, []) => .ok (.initialised name space ns)
      | _ => .error .badText
    | _, _ => .error .badText
  | .num _ :: .sym ':' :: ts => commandOfTokens ts
  | ts => commandOfTokens ts

/-- A line from its text. -/
def parseLine (text : List Char) : Except AsmError Line := lineOfTokens (tokens text [])

end Sys2Proof.Machine
end

