-- ==== Sys2Proof/Machine/HostProgram.lean ====
section
/-! DEFINITION. A program as the host runs it (R42, R63, 95_test_vectors.md 3): buffers with names, and
commands issued one after another to one engine, each after the response of the one before. -/

namespace Sys2Proof.Machine

/-- A buffer the host has declared. -/
structure NamedBuffer where
  name  : List Char
  space : Space
  elems : List Word
deriving DecidableEq, Repr

/-- The host's buffers and the engine it issues to. -/
structure Bench where
  buffers : List NamedBuffer
  engine  : State
deriving DecidableEq, Repr

/-- The start of every program: no buffer declared, the engine right after reset. -/
def Bench.start : Bench := { buffers := [], engine := State.reset }

/-- The element space a command reads (R33, R64); CAT.RD reads none. -/
def inputSpace : CommandName → Space
  | .fwEnc => .v32
  | .fwDec => .w
  | .catRd => .w
  | .s8Choose => .v64
  | .s8Encsel => .v64
  | .s8Decsel => .w
  | .s8Enc => .v64
  | .s8Dec => .w

/-- The element space a command writes (R33, R64); S8.CHOOSE writes none. -/
def outputSpace : CommandName → Space
  | .fwEnc => .w
  | .fwDec => .v32
  | .catRd => .w
  | .s8Choose => .w
  | .s8Encsel => .w
  | .s8Decsel => .v64
  | .s8Enc => .w
  | .s8Dec => .v64

/-- Numbers as elements of a space: each below `2^32` in V32, below `2^64` else (R32). -/
def elemsOfNumbers (space : Space) (ns : List Nat) : Except AsmError (List Word) :=
  if ns.all (fun n => decide (n < 2 ^ (if space = .v32 then 32 else 64))) then
    .ok (ns.map (BitVec.ofNat 64))
  else .error .outOfRange

/-- The elements of a buffer operand, if there is one. -/
def resolve (buffers : List NamedBuffer) (space : Space) :
    Option BufferRef → Except AsmError (Option (List Word))
  | none => .ok none
  | some (.literal ns) =>
    match elemsOfNumbers space ns with
    | .ok ws => .ok (some ws)
    | .error e => .error e
  | some (.named name) =>
    match buffers.find? (fun b => b.name == name) with
    | none => .error .unknownBuffer
    | some b => if b.space = space then .ok (some b.elems) else .error .wrongSpace

/-- One buffer is named as input and as output: the two overlap, which breaks the duty of R34. -/
def overlapping : Option BufferRef → Option BufferRef → Bool
  | some (.named a), some (.named b) => a == b
  | _, _ => false

/-- The command a line issues, with the buffers' contents as they are. -/
def issueOfLine (buffers : List NamedBuffer) (c : CommandLine) : Except AsmError Issue :=
  match resolve buffers (inputSpace c.name) c.input, resolve buffers (outputSpace c.name) c.output with
  | .ok input, .ok output =>
    match assemble { name := c.name, bw := c.bw, m := c.m, sel := c.sel, input := input, output := output,
                     cap := c.cap, len := c.len } with
    | .ok i => .ok { i with dutiesKept := !overlapping c.input c.output }
    | .error e => .error e
  | .error e, _ => .error e
  | _, .error e => .error e

/-- The buffers after a command: the one named as its output holds what the engine left in it. -/
def writeBack (out : List Word) (buffers : List NamedBuffer) : Option BufferRef → List NamedBuffer
  | some (.named name) => buffers.map (fun b => if b.name = name then { b with elems := out } else b)
  | _ => buffers

/-- Issue a descriptor to an IDLE engine and let it end: one step accepts it, the next runs it. -/
def issueAndRun (i : Issue) (s : State) : Host.Outcome State Fault Refusal :=
  match step { s with host := [.issue i] } with
  | .next t => step t
  | o => o

/-- A reserved buffer holds arbitrary contents: free values (95_test_vectors.md 3). -/
def Bench.reserve (b : Bench) (name : List Char) (space : Space) (n : Nat) : Bench :=
  { buffers := { name := name, space := space,
                 elems := (List.range n).map (Config.freeOut b.engine.unit b.engine.draws) } :: b.buffers
    engine := { b.engine with draws := b.engine.draws + 1 } }

/-- One line of a program. -/
def Bench.runLine (b : Bench) : Line → Except AsmError Bench
  | .blank => .ok b
  | .reserve name space n => .ok (b.reserve name space n)
  | .initialised name space ns =>
    match elemsOfNumbers space ns with
    | .ok ws => .ok { b with buffers := { name := name, space := space, elems := ws } :: b.buffers }
    | .error e => .error e
  | .command c =>
    match issueOfLine b.buffers c with
    | .error e => .error e
    | .ok i =>
      match issueAndRun i b.engine with
      | .next t => .ok { buffers := writeBack t.mem.output b.buffers c.output, engine := t }
      | _ => .error .badText

/-- A program, line by line. -/
def Bench.runText (b : Bench) : List (List Char) → Except AsmError Bench
  | [] => .ok b
  | text :: rest =>
    match parseLine text with
    | .error e => .error e
    | .ok l =>
      match b.runLine l with
      | .error e => .error e
      | .ok c => c.runText rest

/-- The elements of a buffer by its name. -/
def Bench.contents (b : Bench) (name : List Char) : Option (List Word) :=
  (b.buffers.find? (fun x => x.name == name)).map (fun x => x.elems)

end Sys2Proof.Machine
end

