-- ==== Sys2Proof/Machine/System.lean ====
section
/-! DEFINITION. Several engines side by side (`N_ENGINES`, R8, R134): each has a state of its own, its
buffers among it, and they share nothing but the constant catalog, of which each holds a copy (R15). What
the spec leaves unspecified each draws under its own number, so that nothing relates the free values of
two engines (notes/assumptions/19.md and 22.md). -/

namespace Sys2Proof.Machine

/-- The engines of one system. -/
structure System where
  engines : List State
deriving DecidableEq, Repr

/-- `N_ENGINES = n` engines right after reset, each with its own number. -/
def System.reset (n : Nat) : System :=
  { engines := (List.range n).map (fun e => { State.reset with unit := e }) }

/-- One step of engine `i`, the others standing still. A number that no engine has steps nothing. -/
def System.stepAt (y : System) (i : Nat) : Host.Outcome System Fault Refusal :=
  match y.engines[i]? with
  | none => .next y
  | some s =>
    match step s with
    | .next t => .next { engines := y.engines.set i t }
    | .fault r => .fault r
    | .refused r => .refused r

/-- Steps of the engines in the order the list gives. -/
def System.run (y : System) : List Nat → Host.Outcome System Fault Refusal
  | [] => .next y
  | i :: is =>
    match y.stepAt i with
    | .next z => z.run is
    | .fault r => .fault r
    | .refused r => .refused r

end Sys2Proof.Machine
end

