-- ==== Sys2Proof/Safety.lean ====
section
/-! DEFINITION. The terms the claims are stated in: the invariant of the machine, what a command may
write, bits of a packed block, the fields of a Simple8b word, and the host's loop of R118. -/

namespace Sys2Proof.Machine

/-! ## The invariant -/

/-- The catalog holds its sixteen entries: it is "never mutated" (R15). -/
def CatalogIntact (s : State) : Prop := s.cat = romCatalog

/-- Working variables exist only while a command runs (R23, R25). -/
def WorkingClean (s : State) : Prop :=
  (s.run = .idle → s.stage = .command) ∧ (s.stage = .command → s.cur = 0 ∧ s.emitted = [])

/-- Inside the S8.DEC loop the cursor does not exceed LEN (R20) and what has been produced fits in the
output buffer (R35). -/
def WordsBounded (s : State) : Prop :=
  s.stage = .words → s.cur ≤ s.descLen ∧ s.emitted.length ≤ s.descCap

/-- A response is readable only once its command has ended (R14, R146). -/
def ResponseWindow (s : State) : Prop := s.rspValid = true → s.run = .idle

/-- A response word as R18, R49 and R124 allow it: STATUS is not 3, ZERO is zero, RCOUNT is at most 240
and RBITS at most 60, NOUT is at most the capacity, and a fault carries nothing else. -/
def RspWf (r : Word) (cap : Nat) : Prop :=
  rspStatus r ≠ 3 ∧ rspZero r = 0 ∧ rspRcount r ≤ 240 ∧ rspRbits r ≤ 60 ∧ rspNout r ≤ cap ∧
    (rspStatus r ≠ 0 → r.extractLsb' 0 62 = 0#62)

/-- A readable response is such a word, provided the host kept its duties during the command (U6). The
capacity of the command that has ended is no longer known (R14), so NOUT is held to the greatest there is;
StepKeepsInvariant holds it to the command's own CAP in the step that ends it. -/
def ResponseWf (s : State) : Prop :=
  s.rspValid = true → s.dutiesKept = true → RspWf s.rsp (2 ^ 32 - 1)

/-- What holds between any two steps of the machine. -/
def Invariant (s : State) : Prop :=
  CatalogIntact s ∧ WorkingClean s ∧ WordsBounded s ∧ ResponseWindow s ∧ ResponseWf s

/-! ## What a command may write -/

/-- The capacity of the output buffer an instruction works on: its own CAP operand; none for S8.CHOOSE,
which has no output buffer (R33); that of the latched command for a Simple8b word. -/
def outCap (i : Instr) (s : State) : Nat :=
  match i with
  | .fwEnc _ _ cap _ => cap
  | .fwDec _ cap _ => cap
  | .catRd _ cap => cap
  | .s8Choose _ => 0
  | .s8Encsel _ cap _ => cap
  | .s8Decsel cap _ => cap
  | .s8Enc cap _ => cap
  | .s8Dec cap _ => cap
  | _ => s.descCap

/-- How many input elements an instruction may read (R33): LEN for a command that reads its input. -/
def inLen (i : Instr) : Nat :=
  match i with
  | .fwEnc _ _ _ len => len
  | .fwDec _ _ len => len
  | .s8Choose len => len
  | .s8Encsel _ _ len => len
  | .s8Decsel _ len => len
  | .s8Enc _ len => len
  | .s8Dec _ len => len
  | _ => 0

/-- The descriptor bits a command uses, in D0 (R16, R53). -/
def usedD0 : Instr → Word
  | .fwEnc .. => 0xFFE0000000000000#64
  | .fwDec .. => 0xFFC0000000000000#64
  | .catRd .. => 0xF01E000000000000#64
  | .s8Encsel .. => 0xF01E000000000000#64
  | _ => 0xF000000000000000#64

/-- The descriptor bits a command uses, in D1 (R16, R53). -/
def usedD1 : Instr → Word
  | .catRd .. => 0xFFFFFFFF00000000#64
  | .s8Choose .. => 0x00000000FFFFFFFF#64
  | _ => 0xFFFFFFFFFFFFFFFF#64

/-! ## Packed blocks and Simple8b words -/

/-- Global bit `g` of a run of Words: bit `g mod 64` of word `floor(g/64)` (R37). -/
def globalBit (ws : List Word) (g : Nat) : Bool := (ws.getD (g / 64) 0#64).getLsbD (g % 64)

/-- Bit `g` of a packed run of values: the OR of bit `g - j*bw` of each value `j` whose field starts at
or below `g` and ends in the word of `g` or after it (R60, R69, R74). -/
def packedBit (bw : Nat) (vs : List Word) (g : Nat) : Bool :=
  (List.range vs.length).any (fun j =>
    decide (j * bw ≤ g) && decide (g / 64 ≤ secondWord bw j) && (vs.getD j 0#64).getLsbD (g - j * bw))

/-- The low `bw` bits of a value (R73). -/
def maskedValue (bw : Nat) (x : BitVec 32) : BitVec 32 := (x.setWidth 64 &&& lowMask bw).setWidth 32

/-- The count of the run a Simple8b word stands for (R54, R81). -/
def wordCount (w : Word) : Nat := (entryAt romCatalog (selectorOf w)).count

/-- The values a Simple8b word decodes to (R101). -/
def wordValues (w : Word) : List Word := decodeFields (entryAt romCatalog (selectorOf w)) w

/-- The counts of a list of Simple8b words added up. -/
def totalCount (ws : List Word) : Nat := (ws.map wordCount).sum

/-- Two words of one selector that differ in wasted bits only (R56). -/
def AlikeButWasted (x y : Word) : Prop :=
  selectorOf x = selectorOf y ∧
    x ||| wastedMask (entryAt romCatalog (selectorOf x)) = y ||| wastedMask (entryAt romCatalog (selectorOf x))

/-! ## The host's loop of R118 -/

/-- The host encodes a stream with the word commands: S8.CHOOSE on what is left of it, S8.ENCSEL with
the returned RSEL on the same buffer, append the word, advance by the returned RCOUNT, until nothing is
left. `fuel` bounds the passes. It gives the words, or none where a response is not OK. -/
def hostEncodeLoop : (fuel : Nat) → List Word → State → Option (List Word)
  | _, [], _ => some []
  | 0, _ :: _, _ => none
  | fuel + 1, v :: vs, s =>
    match exec (.s8Choose (v :: vs).length)
        (s.accept { d0 := encodeD0 4 0 false 0, d1 := encodeD1 0 (v :: vs).length,
                    input := v :: vs, output := [], dutiesKept := true }) with
    | .next t =>
      if rspStatus t.rsp ≠ 0 then none
      else
        match exec (.s8Encsel (rspRsel t.rsp) 1 (v :: vs).length)
            (t.accept { d0 := encodeD0 5 0 false (rspRsel t.rsp), d1 := encodeD1 1 (v :: vs).length,
                        input := v :: vs, output := [0#64], dutiesKept := true }) with
        | .next u =>
          if rspStatus u.rsp ≠ 0 then none
          else
            match hostEncodeLoop fuel ((v :: vs).drop (rspRcount t.rsp)) u with
            | some ws => some (u.mem.output.getD 0 0#64 :: ws)
            | none => none
        | _ => none
    | _ => none

end Sys2Proof.Machine
end

