-- ==== Sys2Proof/Certificates/Slice0/Obligations.lean ====
section
/-! DEFINITION. The statements for the provers. Each says which rule of spec/ it formalises or rests on.
A premise `CatalogIntact s` rules out states no run reaches: StepKeepsInvariant states that every step keeps it. -/

open Sys2Proof Sys2Proof.Machine

/-! ## Reset, the invariant, the step -/

/-- R25, R137. Reset, whether as the machine's first state or asserted by the host, leaves an IDLE engine
between commands with the sixteen catalog entries and no working variables, in which a read of RSP gives
a free value; asserted, it leaves the input buffer as it was, and asserted at IDLE the output buffer too;
with nothing issued, a step from there changes nothing. (DESC and RSP are unspecified: that they are
free values after an asserted reset, and zero but unreadable in State.reset, is the model's choice,
notes/assumptions/8.md, 9.md and 26.md; so is that a reset in the host's list takes one step, 10.md.) -/
def Obligations.ResetLeavesIdleEngineWithCatalog : Prop :=
  (State.reset.run = .idle ∧ State.reset.stage = .command ∧ State.reset.cat = romCatalog ∧
    State.reset.cur = 0 ∧ State.reset.emitted = [] ∧ State.reset.readRsp = Config.freeRsp 0 0 ∧
    step State.reset = .next State.reset) ∧
  ∀ s : State, s.assertReset.run = .idle ∧ s.assertReset.stage = .command ∧
    s.assertReset.cat = romCatalog ∧ s.assertReset.cur = 0 ∧ s.assertReset.emitted = [] ∧
    (∃ n, s.assertReset.readRsp = Config.freeRsp s.unit n) ∧
    (∃ n, s.assertReset.desc = { d0 := Config.freeDesc s.unit n 0, d1 := Config.freeDesc s.unit n 1 }) ∧
    s.assertReset.mem.input = s.mem.input ∧ (s.run = .idle → s.assertReset.mem = s.mem) ∧
    (∀ rest, s.host = .reset :: rest → step s = .next (State.assertReset { s with host := rest })) ∧
    (s.host = [] → step s.assertReset = .next s.assertReset)

/-- The invariant holds after reset (R25). -/
def Obligations.ResetSatisfiesInvariant : Prop := Invariant State.reset

/-- Every step keeps the invariant: the catalog is never changed (R15), working variables exist only
inside a command (R23), the cursor never exceeds LEN (R20), nothing is produced beyond CAP (R35), and a
readable response is a legal one (R18, R49, R124); and in the step that ends a command, its NOUT is at most
the CAP that command had (R35). -/
def Obligations.StepKeepsInvariant : Prop :=
  ∀ s t : State, Invariant s → step s = .next t → Invariant t ∧
    (s.run = .busy → t.rspValid = true → t.dutiesKept = true → RspWf t.rsp s.descCap)

/-- When the latched descriptor decodes to a command, the step of the BUSY engine is exec of that
command, after the host's tick is used up and before the host's conduct is taken into account (which
changes nothing when it kept its duties); when it does not decode, the step raises InvalidArgument and
writes no output element (R51, R52, U11). (The host's tick and its conduct are the model's choices,
notes/assumptions/10.md and 14.md; that R126 leaves no element unspecified here is read from R51,
notes/assumptions/4.md.) -/
def Obligations.StepRunsDecodedCommand : Prop :=
  ∀ s : State, s.run = .busy → s.stage = .command → (∀ rest, s.host ≠ .reset :: rest) →
    (∀ i, decodeCommand s.desc.d0 s.desc.d1 = .ok i →
      step s = onNext (State.settle s.outLimit) (exec i s.tickHost) ∧
      (s.dutiesKept = true → step s = exec i s.tickHost)) ∧
    (∀ e, decodeCommand s.desc.d0 s.desc.d1 = .error e →
      step s = .next ((s.tickHost.raise .invalidArgument 0).settle s.outLimit))

/-- Inside the S8.DEC loop the step runs the Simple8b word at the cursor, or completes the command when
the words are exhausted; the loop is R113's. (That one pass of it is one step is the model's choice,
notes/assumptions/7.md, as are the host's tick, its conduct, and the values written on completion, 10.md,
14.md and 15.md.) -/
def Obligations.StepRunsWordAtCursor : Prop :=
  ∀ s : State, s.run = .busy → s.stage = .words → (∀ rest, s.host ≠ .reset :: rest) →
    (s.cur < s.descLen →
      step s = onNext (State.settle s.outLimit) (exec (decodeWord (s.readW s.cur)) s.tickHost) ∧
      (s.dutiesKept = true → step s = exec (decodeWord (s.readW s.cur)) s.tickHost)) ∧
    (s.descLen ≤ s.cur → step s = .next ((s.tickHost.complete {} s.emitted).settle s.outLimit))

/-- No step stops: from every state the machine has a next state (R119, R124: faults are responses). -/
def Obligations.EveryStepHasNextState : Prop :=
  (∀ s : State, ∃ t, step s = .next t) ∧ ∀ (i : Instr) (s : State), ∃ t, exec i s = .next t

/-- R148. Every accepted command ends after finitely many steps, at most one for each word left and one
more; and with a response, unless the host asserts reset meanwhile. (The steps counted, and the host's
reset as an input in a list, are the model's choices, notes/assumptions/7.md and 10.md.) -/
def Obligations.AcceptedCommandEnds : Prop :=
  ∀ s : State, s.run = .busy →
    ∃ n t, n ≤ s.descLen - s.cur + 1 ∧ Host.Core.run Sys2Proof.core n s = .next t ∧ t.run = .idle ∧
      (HostInput.reset ∉ s.host → t.rspValid = true)

/-! ## Encodings -/

/-- Words written out from R46's and R81's bit positions (the rows of 95_test_vectors.md 2.1 and others)
decode to the instructions they stand for, and reserved ones are rejected by name. -/
def Obligations.DecodesTheSpecsOwnWords : Prop :=
  decodeCommand 0x10E0000000000000#64 0x0000000200000020#64 = .ok (.fwEnc 3 true 2 32) ∧
  decodeCommand 0x10C0000000000000#64 0x0000000200000020#64 = .ok (.fwEnc 3 false 2 32) ∧
  decodeCommand 0x1820000000000000#64 0x0000001000000020#64 = .ok (.fwEnc 32 true 16 32) ∧
  decodeCommand 0x27C0000000000000#64 0x0000002000000010#64 = .ok (.fwDec 31 32 16) ∧
  decodeCommand 0x301E000000000000#64 0x0000000100000000#64 = .ok (.catRd 15 1) ∧
  decodeCommand 0x4000000000000000#64 0x0000000000000008#64 = .ok (.s8Choose 8) ∧
  decodeCommand 0x5018000000000000#64 0x0000000100000008#64 = .ok (.s8Encsel 12 1 8) ∧
  decodeCommand 0x6000000000000000#64 0x000000F000000001#64 = .ok (.s8Decsel 240 1) ∧
  decodeCommand 0x7000000000000000#64 0x0000000800000008#64 = .ok (.s8Enc 8 8) ∧
  decodeCommand 0x8000000000000000#64 0x000002D000000003#64 = .ok (.s8Dec 720 3) ∧
  decodeCommand 0x1FFE000000000000#64 0xFFFFFFFFFFFFFFFF#64 =
    .ok (.fwEnc 63 true 4294967295 4294967295) ∧
  decodeCommand 0x0000000000000000#64 0x0000000000000000#64 = .error .reservedOp ∧
  decodeCommand 0x90E0000000000000#64 0x0000000200000020#64 = .error .reservedOp ∧
  decodeCommand 0x10E1000000000000#64 0x0000000200000020#64 = .error .reservedBits ∧
  decodeCommand 0x0000800000000000#64 0x0000000000000000#64 = .error .reservedBits ∧
  decodeWord 0x8000041030814307#64 = .s8wSel8 0x000041030814307#60 ∧
  decodeWord 0xC0002000400083E8#64 = .s8wSel12 0x0002000400083E8#60

/-- Decoding what the encoder writes gives the instruction back, for every well-formed instruction with
every operand at every value its field admits. -/
def Obligations.DecodeOfEncodeIsIdentity : Prop :=
  ∀ i : Instr, WellFormed i = true → decode i.format (encode i) = .ok i

/-- Encoding what a descriptor decodes to gives the descriptor back with the fields its command ignores
cleared (R53, R63), and encoding what a Simple8b word decodes to gives the word back whole. -/
def Obligations.EncodeOfDecodeKeepsUsedBits : Prop :=
  (∀ (d0 d1 : Word) (i : Instr), decodeCommand d0 d1 = .ok i →
    encode i = [d0 &&& usedD0 i, d1 &&& usedD1 i] ∧ WellFormed i = true) ∧
  ∀ w : Word, encode (decodeWord w) = [w]

/-- R50, R66. A descriptor decodes to a command exactly when RSV is zero and OP is 1 to 8, and then
matches that command's row of the opcode table. -/
def Obligations.DescriptorsMatchTheirRow : Prop :=
  ∀ d0 d1 : Word,
    ((∃ i, decodeCommand d0 d1 = .ok i) ↔ fieldRsv d0 = 0 ∧ 1 ≤ fieldOp d0 ∧ fieldOp d0 ≤ 8) ∧
    ∀ i, decodeCommand d0 d1 = .ok i → i.format = .cmd ∧ d0 &&& rowMask i = rowMatch i

/-- R53. A field its command does not use has no effect: two descriptors that agree on RSV and on the
bits the command uses decode to the same command. -/
def Obligations.IgnoredFieldsHaveNoEffect : Prop :=
  ∀ (d0 d1 e0 e1 : Word) (i : Instr), decodeCommand d0 d1 = .ok i →
    e0 &&& (usedD0 i ||| 0x0001FFFFFFFFFFFF#64) = d0 &&& (usedD0 i ||| 0x0001FFFFFFFFFFFF#64) →
    e1 &&& usedD1 i = d1 &&& usedD1 i → decodeCommand e0 e1 = .ok i

/-- Every Word is a decodable Simple8b word (R57): it matches one `S8W` row and no other (R66), and running
it raises no fault when its values fit in what is left of the output buffer. (That a word is run by
itself is the model's choice, notes/assumptions/7.md.) -/
def Obligations.EveryWordIsDecodable : Prop :=
  ∀ w : Word, (decodeWord w).format = .s8w ∧ w &&& rowMask (decodeWord w) = rowMatch (decodeWord w) ∧
    (∀ j : Instr, j.format = .s8w → w &&& rowMask j = rowMatch j → ∃ p, encode j = [wordOf (selectorOf w) p]) ∧
    ∀ s : State, CatalogIntact s → s.emitted.length + wordCount w ≤ s.descCap →
      ∃ t, exec (decodeWord w) s = .next t ∧ t.run = s.run ∧ t.rsp = s.rsp

/-- A reserved descriptor (R51, R52) raises InvalidArgument whatever the rest of it says, RSV and OP being
tested before anything else (R123). It reads no input element and writes no output element: both buffers
are as they were, under either setting of `P_FAULT_OUTPUT` (R51, R52, U11 over R126,
notes/assumptions/4.md), unless the host broke its duties (notes/assumptions/14.md). -/
def Obligations.ReservedDescriptorsRaiseInvalidArgument : Prop :=
  ∀ s : State, s.run = .busy → s.stage = .command → (∀ rest, s.host ≠ .reset :: rest) →
    fieldRsv s.desc.d0 ≠ 0 ∨ fieldOp s.desc.d0 = 0 ∨ 9 ≤ fieldOp s.desc.d0 →
    ∃ t, step s = .next t ∧ t.run = .idle ∧ t.mem.input = s.mem.input ∧
      (s.dutiesKept = true → t.rsp = 0x4000000000000000#64 ∧ t.rspValid = true ∧ t.mem = s.mem)

/-- R63, R64. What the assembler accepts decodes to the command the line names, and FW.ENC without
`m=` is rejected (R17). -/
def Obligations.AssemblerEmitsItsCommand : Prop :=
  (∀ (l : AsmLine) (c : Issue), assemble l = .ok c →
    fieldOp c.d0 = commandOp l.name ∧ fieldRsv c.d0 = 0 ∧ fieldBw c.d0 = l.bw.getD 0 ∧
    fieldSel c.d0 = l.sel.getD 0 ∧ fieldM c.d0 = (l.m.getD 0 == 1) ∧
    c.input = l.input.getD [] ∧ c.output = l.output.getD [] ∧
    fieldLen c.d1 = l.len.getD c.input.length ∧ fieldCap c.d1 = l.cap.getD c.output.length ∧
    ∃ i, decodeCommand c.d0 c.d1 = .ok i) ∧
  ∀ l : AsmLine, l.name = .fwEnc → l.m = none → ∃ e, assemble l = .error e

/-! ## The fixed-width packer -/

/-- FW.ENC completes on a block of 32 values with room for its words, at every legal width and in either
mode, and every bit of its words is given (R60, R68, R69, R72, R74): global bit `g` is the OR of bit
`g - j*bw` of each value `j` whose field starts at or below `g` and ends in the word of `g` or after. -/
def Obligations.FwEncPacksBlock : Prop :=
  ∀ (bw : Nat) (m : Bool) (cap : Nat) (s : State), 1 ≤ bw → bw ≤ 32 → fwWords bw ≤ cap →
    ∃ ws, exec (.fwEnc bw m cap 32) s = .next (s.complete {} ws) ∧ ws.length = (32 * bw + 63) / 64 ∧
      ∀ g, globalBit ws g =
        (decide (g < 64 * ws.length) && packedBit bw ((s.inV32 32).map (fwOperand m bw)) g)

/-- R73. In masked mode the words are those of the block cut to its low `bw` bits, each field holds just
the low bits of its own value and no bit beyond the fields is set; for a block whose values are all
below `2^bw` the two modes give the same outcome. -/
def Obligations.FwEncMaskedMode : Prop :=
  ∀ (bw cap : Nat) (s : State), 1 ≤ bw → bw ≤ 32 → fwWords bw ≤ cap →
    (∃ ws, exec (.fwEnc bw true cap 32) s = .next (s.complete {} ws) ∧
      ws = fwPack false bw ((s.inV32 32).map (maskedValue bw)) ∧
      (∀ j b, j < 32 → b < bw → globalBit ws (j * bw + b) = (s.readV32 j).getLsbD b) ∧
      ∀ g, 32 * bw ≤ g → globalBit ws g = false) ∧
    ((∀ j, j < 32 → (s.readV32 j).toNat < 2 ^ bw) →
      exec (.fwEnc bw true cap 32) s = exec (.fwEnc bw false cap 32) s)

/-- R74: a value too wide for its field in unmasked mode raises no fault and never disturbs the bits of
earlier values: below the start of field `j`, the words depend on the values before `j` alone. -/
def Obligations.FwEncNeverDisturbsEarlierValues : Prop :=
  ∀ (bw j cap : Nat) (m : Bool) (s s' : State), 1 ≤ bw → bw ≤ 32 → fwWords bw ≤ cap → j ≤ 32 →
    (∀ i, i < j → s.readV32 i = s'.readV32 i) →
    ∃ ws ws', exec (.fwEnc bw m cap 32) s = .next (s.complete {} ws) ∧
      exec (.fwEnc bw m cap 32) s' = .next (s'.complete {} ws') ∧
      ∀ g, g < j * bw → globalBit ws g = globalBit ws' g

/-- FW.DEC completes on a packed block with room for 32 values, and bit `b` of value `j` is global bit
`j*bw + b` for `b < bw` and zero above (R75, R76): every value is below `2^bw`. -/
def Obligations.FwDecUnpacksBlock : Prop :=
  ∀ (bw cap : Nat) (s : State), 1 ≤ bw → bw ≤ 32 → 32 ≤ cap →
    ∃ vs : List (BitVec 32),
      exec (.fwDec bw cap (fwWords bw)) s = .next (s.complete {} (cellsOfV32 vs)) ∧ vs.length = 32 ∧
      ∀ j, j < 32 → (vs.getD j 0#32).toNat < 2 ^ bw ∧
        ∀ b, b < bw → (vs.getD j 0#32).getLsbD b = globalBit (s.inW (fwWords bw)) (j * bw + b)

/-- R78. Encoding a block and decoding the words it gives, at the same width, returns the block when its
values are below `2^bw`, in either mode, and the low `bw` bits of each value in masked mode; encode
writes exactly `ceil(32*bw/64)` words. -/
def Obligations.FwRoundTrip : Prop :=
  ∀ (bw : Nat) (m : Bool) (cap cap' : Nat) (s u : State), 1 ≤ bw → bw ≤ 32 → fwWords bw ≤ cap →
    32 ≤ cap' →
    ∃ ws, exec (.fwEnc bw m cap 32) s = .next (s.complete {} ws) ∧ ws.length = (32 * bw + 63) / 64 ∧
      (u.inW ws.length = ws →
        ∃ vs, exec (.fwDec bw cap' ws.length) u = .next (u.complete {} (cellsOfV32 vs)) ∧
          ((∀ j, j < 32 → (s.readV32 j).toNat < 2 ^ bw) → vs = s.inV32 32) ∧
          (m = true → vs = (s.inV32 32).map (maskedValue bw)))

/-- R61. At an odd width the bits above the used 32 of the last word are written as zero in masked mode
or when every value is in range, are ignored by FW.DEC, and may be set otherwise: at every odd width there
is a block with a value out of range after which the last word written has one of them set. -/
def Obligations.FwUnusedBitsOfOddWidths : Prop :=
  (∀ (bw : Nat) (m : Bool) (cap : Nat) (s : State), bw % 2 = 1 → bw ≤ 32 → fwWords bw ≤ cap →
    (m = true ∨ ∀ j, j < 32 → (s.readV32 j).toNat < 2 ^ bw) →
    ∃ ws, exec (.fwEnc bw m cap 32) s = .next (s.complete {} ws) ∧
      (ws.getD (fwWords bw - 1) 0#64).extractLsb' 32 32 = 0#32) ∧
  (∀ (bw cap : Nat) (s s' : State), bw % 2 = 1 → bw ≤ 32 → 32 ≤ cap →
    (∀ q, q < fwWords bw - 1 → s.readW q = s'.readW q) →
    (s.readW (fwWords bw - 1)).extractLsb' 0 32 = (s'.readW (fwWords bw - 1)).extractLsb' 0 32 →
    ∃ vs, exec (.fwDec bw cap (fwWords bw)) s = .next (s.complete {} vs) ∧
      exec (.fwDec bw cap (fwWords bw)) s' = .next (s'.complete {} vs)) ∧
  ∀ bw, bw % 2 = 1 → bw ≤ 32 → ∃ (s t : State) (w : Word),
    (∃ j, j < 32 ∧ 2 ^ bw ≤ (s.readV32 j).toNat) ∧
    exec (.fwEnc bw false (fwWords bw) 32) s = .next t ∧
    t.mem.output[fwWords bw - 1]? = some w ∧ w.extractLsb' 32 32 ≠ 0#32

/-- R70, R71. A bit width outside 1 to 32 raises InvalidArgument before any other test, width 0 among
them unless the instance accepts it. -/
def Obligations.FwWidthOutOfRangeRaisesInvalidArgument : Prop :=
  ∀ (bw cap len : Nat) (m : Bool) (s : State),
    32 < bw ∨ (bw = 0 ∧ s.params.zeroWidth = .fault) →
    exec (.fwEnc bw m cap len) s = .next (s.raise .invalidArgument cap) ∧
    exec (.fwDec bw cap len) s = .next (s.raise .invalidArgument cap)

/-- R71. Bit width 0 raises InvalidArgument with `P_ZERO_WIDTH = fault`. With `accept` it takes no words:
FW.ENC writes none for LEN 0 or 32 whatever CAP is, FW.DEC writes 32 zeros for LEN 0 and CAP at least 32,
and any other length or room is BoundsError. -/
def Obligations.FwZeroWidth : Prop :=
  fwWords 0 = 0 ∧ ∀ (cap len : Nat) (m : Bool) (s : State),
    (s.params.zeroWidth = .fault →
      exec (.fwEnc 0 m cap len) s = .next (s.raise .invalidArgument cap) ∧
      exec (.fwDec 0 cap len) s = .next (s.raise .invalidArgument cap)) ∧
    (s.params.zeroWidth = .accept →
      (len = 0 ∨ len = 32 → exec (.fwEnc 0 m cap len) s = .next (s.complete {} [])) ∧
      (len ≠ 0 → len ≠ 32 → exec (.fwEnc 0 m cap len) s = .next (s.raise .boundsError cap)) ∧
      (len = 0 → 32 ≤ cap →
        exec (.fwDec 0 cap len) s = .next (s.complete {} (List.replicate 32 0#64))) ∧
      (len ≠ 0 ∨ cap < 32 → exec (.fwDec 0 cap len) s = .next (s.raise .boundsError cap)))

/-- R77, at a legal bit width: an empty input completes whatever CAP is; then a wrong input length is
BoundsError; then too little room is. -/
def Obligations.FwLengthRules : Prop :=
  ∀ (bw cap len : Nat) (m : Bool) (s : State), 1 ≤ bw → bw ≤ 32 →
    exec (.fwEnc bw m cap 0) s = .next (s.complete {} []) ∧
    exec (.fwDec bw cap 0) s = .next (s.complete {} []) ∧
    (len ≠ 0 → len ≠ 32 ∨ cap < fwWords bw →
      exec (.fwEnc bw m cap len) s = .next (s.raise .boundsError cap)) ∧
    (len ≠ 0 → len ≠ fwWords bw ∨ cap < 32 →
      exec (.fwDec bw cap len) s = .next (s.raise .boundsError cap))

/-- R59, R60. The words of a block at every legal width, and where a value straddles: it does exactly
when `shift + bw > 64`, and then it ends in the next word and starts at bit 33 or above. -/
def Obligations.FwFieldPositions : Prop :=
  ∀ bw j : Nat, 1 ≤ bw → bw ≤ 32 → j < 32 →
    fwWords bw = (bw + 1) / 2 ∧ (straddles bw j = true ↔ 64 < fieldShift bw j + bw) ∧
    (straddles bw j = true → secondWord bw j = firstWord bw j + 1 ∧ 33 ≤ fieldShift bw j) ∧
    secondWord bw j < fwWords bw

/-! ## The catalog -/

/-- The catalog's sizes (R81, R83), its masks `2^bits - 1` (R82), and the one formula that gives the shift
list of every selector that has fields (R84, which derives the formula; selector 9's list is the spec's
own decision D15, notes/assumptions/17.md). -/
def Obligations.CatalogShapes : Prop :=
  romCatalog.length = 16 ∧
  romCatalog.map (fun e => (e.bits, e.count)) =
    [(0, 240), (0, 120), (1, 60), (2, 30), (3, 20), (4, 15), (5, 12), (6, 10), (7, 8), (8, 7), (10, 6),
      (12, 5), (15, 4), (20, 3), (30, 2), (60, 1)] ∧
  (∀ sel, sel < 16 → (entryAt romCatalog sel).mask = lowMask (entryAt romCatalog sel).bits ∧
    (entryAt romCatalog sel).mask.toNat = 2 ^ (entryAt romCatalog sel).bits - 1) ∧
  ∀ sel, 2 ≤ sel → sel < 16 →
    (entryAt romCatalog sel).shifts =
      (List.range (entryAt romCatalog sel).count).map (fun i =>
        (entryAt romCatalog sel).bits * ((entryAt romCatalog sel).count - 1 - i)) ∧
    (entryAt romCatalog sel).count * (entryAt romCatalog sel).bits =
      (if sel = 8 ∨ sel = 9 then 56 else 60)

/-- R86. CAT.RD with room for one element completes with the entry's mask written and its selector,
count and bits in the response; without room it raises BoundsError. BW, M and LEN are ignored. -/
def Obligations.CatRdReadsEntry : Prop :=
  (∀ (sel cap : Nat) (s : State), CatalogIntact s →
    (1 ≤ cap → exec (.catRd sel cap) s =
      .next (s.complete { rsel := sel, rcount := (entryAt romCatalog sel).count,
                          rbits := (entryAt romCatalog sel).bits } [(entryAt romCatalog sel).mask])) ∧
    (cap = 0 → exec (.catRd sel cap) s = .next (s.raise .boundsError cap))) ∧
  ∀ (bw : Nat) (m : Bool) (sel cap len : Nat), bw < 64 → sel < 16 → cap < 2 ^ 32 → len < 2 ^ 32 →
    decodeCommand (encodeD0 3 bw m sel) (encodeD1 cap len) = .ok (.catRd sel cap)

/-- R90. The fit test over 64 bits is `bitsRequired(v) ≤ bits`, which is `v < 2^bits`; only the value 0
fits entries 0 and 1, and a value of `2^60` or more fits none. -/
def Obligations.FitTestComparesBitsRequired : Prop :=
  ∀ (sel : Nat) (v : Word), sel < 16 →
    (fits (entryAt romCatalog sel) v = true ↔ bitsRequired v.toNat ≤ (entryAt romCatalog sel).bits) ∧
    (fits (entryAt romCatalog sel) v = true ↔ v.toNat < 2 ^ (entryAt romCatalog sel).bits) ∧
    (sel ≤ 1 → (fits (entryAt romCatalog sel) v = true ↔ v = 0#64)) ∧
    (2 ^ 60 ≤ v.toNat → fits (entryAt romCatalog sel) v = false)

/-! ## The Simple8b word unit -/

/-- S8.CHOOSE completes when LEN is not 0 and the first value is below `2^60` (R91, R94, R95): it returns
the first selector all of whose `min(count, LEN)` values fit, that count, and the entry's bits. -/
def Obligations.ChooseReturnsFirstFeasible : Prop :=
  ∀ (len : Nat) (s : State), CatalogIntact s → 1 ≤ len → (s.readV64 0).toNat < 2 ^ 60 →
    ∃ sel c, sel < 16 ∧ c = min (entryAt romCatalog sel).count len ∧ 1 ≤ c ∧ c ≤ min 240 len ∧
      exec (.s8Choose len) s =
        .next (s.complete { rsel := sel, rcount := c, rbits := (entryAt romCatalog sel).bits } []) ∧
      (∀ i, i < c → bitsRequired (s.readV64 i).toNat ≤ (entryAt romCatalog sel).bits) ∧
      ∀ sel', sel' < sel → ∃ i, i < min (entryAt romCatalog sel').count len ∧
        (entryAt romCatalog sel').bits < bitsRequired (s.readV64 i).toNat

/-- R92. No entry valid for the same run packs more values than the count returned, and of those that
pack as many the one with the smallest selector is returned; the choice looks no further than
`min(240, LEN)` values. -/
def Obligations.ChooseIsGreedy : Prop :=
  ∀ (len : Nat) (s s' t t' : State), CatalogIntact s → CatalogIntact s' →
    exec (.s8Choose len) s = .next t → rspStatus t.rsp = 0 →
    (∀ sel, sel < 16 →
      (∀ i, i < min (entryAt romCatalog sel).count len →
        (s.readV64 i).toNat < 2 ^ (entryAt romCatalog sel).bits) →
      min (entryAt romCatalog sel).count len ≤ rspRcount t.rsp ∧
      (min (entryAt romCatalog sel).count len = rspRcount t.rsp → rspRsel t.rsp ≤ sel)) ∧
    ((∀ i, i < min 240 len → s'.readV64 i = s.readV64 i) →
      exec (.s8Choose len) s' = .next t' → t'.rsp = t.rsp)

/-- R93. Selector 0 or 1 is returned only when the entire candidate run is all zeros; and what S8.CHOOSE
returns for a run of leading zeros, in its four cases. -/
def Obligations.ChooseZeroRuns : Prop :=
  ∀ (len z : Nat) (s t : State), CatalogIntact s → 1 ≤ len → z ≤ len →
    (∀ i, i < z → s.readV64 i = 0#64) → exec (.s8Choose len) s = .next t →
    (rspStatus t.rsp = 0 → rspRsel t.rsp = 0 → ∀ i, i < min 240 len → s.readV64 i = 0#64) ∧
    (rspStatus t.rsp = 0 → rspRsel t.rsp = 1 → ∀ i, i < min 120 len → s.readV64 i = 0#64) ∧
    (240 ≤ z → rspStatus t.rsp = 0 ∧ rspRsel t.rsp = 0 ∧ rspRcount t.rsp = 240) ∧
    (120 ≤ z → z ≤ 239 → z < len → s.readV64 z ≠ 0#64 →
      rspStatus t.rsp = 0 ∧ rspRsel t.rsp = 1 ∧ rspRcount t.rsp = 120) ∧
    (z < 120 → z < len → s.readV64 z ≠ 0#64 → rspStatus t.rsp = 0 → 2 ≤ rspRsel t.rsp) ∧
    (z = len → len < 240 → rspStatus t.rsp = 0 ∧ rspRsel t.rsp = 0 ∧ rspRcount t.rsp = len)

/-- R95, R104. S8.CHOOSE raises BoundsError exactly on LEN 0, and InvalidArgument exactly when there is a
first value and it is `2^60` or more, whatever comes after it. (It has no output buffer for a fault to
spoil, notes/assumptions/5.md.) -/
def Obligations.ChooseFaults : Prop :=
  ∀ (len : Nat) (s : State), CatalogIntact s →
    (exec (.s8Choose len) s = .next (s.raise .boundsError 0) ↔ len = 0) ∧
    (exec (.s8Choose len) s = .next (s.raise .invalidArgument 0) ↔
      1 ≤ len ∧ 2 ^ 60 ≤ (s.readV64 0).toNat)

/-- S8.ENCSEL completes when LEN and CAP are not 0, on any values (R96, R97, R98): it consumes
`min(count, LEN)` values, and in its one word the selector stands on top, field `i` holds value `i`
masked, the fields beyond are zero, and the wasted bits are zero (R56). -/
def Obligations.EncselBuildsWord : Prop :=
  ∀ (sel cap len : Nat) (s : State), CatalogIntact s → sel < 16 → 1 ≤ len → 1 ≤ cap →
    ∃ w, exec (.s8Encsel sel cap len) s =
        .next (s.complete { rcount := min (entryAt romCatalog sel).count len,
                            rbits := (entryAt romCatalog sel).bits } [w]) ∧
      selectorOf w = sel ∧ w &&& wastedMask (entryAt romCatalog sel) = 0#64 ∧
      ∀ i, i < (entryAt romCatalog sel).count →
        fieldValue (entryAt romCatalog sel) w i =
          if i < len then s.readV64 i &&& (entryAt romCatalog sel).mask else 0#64

/-- R104, R105. S8.ENCSEL and S8.DECSEL raise BoundsError on LEN 0 before they look at CAP, S8.ENCSEL
raises it on CAP 0, and S8.DECSEL when CAP is below the count of the word it read. -/
def Obligations.WordCommandsRaiseBoundsError : Prop :=
  ∀ (sel cap len : Nat) (s : State), CatalogIntact s →
    exec (.s8Encsel sel cap 0) s = .next (s.raise .boundsError cap) ∧
    exec (.s8Decsel cap 0) s = .next (s.raise .boundsError cap) ∧
    exec (.s8Encsel sel 0 len) s = .next (s.raise .boundsError 0) ∧
    (cap < wordCount (s.readW 0) → exec (.s8Decsel cap len) s = .next (s.raise .boundsError cap))

/-- The literal words of the irregular selectors, both ways: R99's word of selector 8, and the word of
selector 9, which R99 derives by analogy (its own inference, decision D15, notes/assumptions/17.md). -/
def Obligations.IrregularSelectorWords : Prop :=
  ∀ s : State, CatalogIntact s →
    (s.inV64 8 = [0, 1, 2, 3, 4, 5, 6, 7] →
      exec (.s8Encsel 8 1 8) s =
        .next (s.complete { rcount := 8, rbits := 7 } [0x8000041030814307#64])) ∧
    (s.readW 0 = 0x8000041030814307#64 →
      exec (.s8Decsel 8 1) s =
        .next (s.complete { rsel := 8, rcount := 8, rbits := 7 } [0, 1, 2, 3, 4, 5, 6, 7])) ∧
    (s.inV64 7 = [1, 2, 3, 4, 5, 6, 7] →
      exec (.s8Encsel 9 1 7) s =
        .next (s.complete { rcount := 7, rbits := 8 } [0x9001020304050607#64])) ∧
    (s.readW 0 = 0x9001020304050607#64 →
      exec (.s8Decsel 7 1) s =
        .next (s.complete { rsel := 9, rcount := 7, rbits := 8 } [1, 2, 3, 4, 5, 6, 7]))

/-- S8.DECSEL completes when LEN is not 0 and CAP has room for the run its word claims (R101, R102): it
writes all `count` values, value `i` being field `i` of the word, each below `2^bits`, and returns the
selector, the count and the bits. -/
def Obligations.DecselReturnsFields : Prop :=
  ∀ (cap len : Nat) (s : State), CatalogIntact s → 1 ≤ len → wordCount (s.readW 0) ≤ cap →
    ∃ vals, exec (.s8Decsel cap len) s =
        .next (s.complete { rsel := selectorOf (s.readW 0), rcount := wordCount (s.readW 0),
                            rbits := (entryAt romCatalog (selectorOf (s.readW 0))).bits } vals) ∧
      vals.length = wordCount (s.readW 0) ∧
      ∀ i, i < vals.length →
        (vals.getD i 0#64).toNat < 2 ^ (entryAt romCatalog (selectorOf (s.readW 0))).bits ∧
        ∀ b, b < (entryAt romCatalog (selectorOf (s.readW 0))).bits →
          (vals.getD i 0#64).getLsbD b =
            (s.readW 0).getLsbD ((entryAt romCatalog (selectorOf (s.readW 0))).bits *
              (wordCount (s.readW 0) - 1 - i) + b)

/-- R56. Which payload bits each selector wastes; words that differ in wasted bits only decode alike, by
S8.DECSEL, by S8.DEC and as passes of its loop; every word an encode command writes has them zero. (That
a pass of the loop runs by itself is the model's choice, notes/assumptions/7.md.) -/
def Obligations.WastedBitsCarryNothing : Prop :=
  (∀ sel, sel < 16 → wastedMask (entryAt romCatalog sel) =
    if sel ≤ 1 then 0x0FFFFFFFFFFFFFFF#64 else if sel = 8 ∨ sel = 9 then 0x0F00000000000000#64
    else 0#64) ∧
  (∀ (x y : Word) (cap len : Nat) (s s' : State), CatalogIntact s → CatalogIntact s' →
    AlikeButWasted x y →
    wordValues x = wordValues y ∧ exec (decodeWord x) s = exec (decodeWord y) s ∧
    (s.readW 0 = x → s'.readW 0 = y → 1 ≤ len → wordCount x ≤ cap →
      ∃ r vals, exec (.s8Decsel cap len) s = .next (s.complete r vals) ∧
        exec (.s8Decsel cap len) s' = .next (s'.complete r vals))) ∧
  (∀ (cap len : Nat) (s s' : State), CatalogIntact s → CatalogIntact s' →
    (∀ q, q < len → AlikeButWasted (s.readW q) (s'.readW q)) →
    (∃ vals, exec (.s8Dec cap len) s = .next (s.complete {} vals) ∧
      exec (.s8Dec cap len) s' = .next (s'.complete {} vals)) ∨
    (exec (.s8Dec cap len) s = .next (s.raise .boundsError cap) ∧
      exec (.s8Dec cap len) s' = .next (s'.raise .boundsError cap))) ∧
  (∀ (sel cap len : Nat) (s : State), CatalogIntact s → sel < 16 → 1 ≤ len → 1 ≤ cap →
    ∃ r w, exec (.s8Encsel sel cap len) s = .next (s.complete r [w]) ∧
      w &&& wastedMask (entryAt romCatalog sel) = 0#64) ∧
  ∀ (len : Nat) (s : State), CatalogIntact s → (∀ i, i < len → (s.readV64 i).toNat < 2 ^ 60) →
    ∃ ws : List Word, (∀ cap, ws.length ≤ cap → exec (.s8Enc cap len) s = .next (s.complete {} ws)) ∧
      ∀ w ∈ ws, w &&& wastedMask (entryAt romCatalog (selectorOf w)) = 0#64

/-- R103. Word-level round trip: decoding a built word returns the values followed by zeros for the
fields beyond them, and building a word from the values of any word `x` returns `x` with its wasted bits
cleared. -/
def Obligations.WordRoundTrip : Prop :=
  (∀ (sel cap cap' len len' : Nat) (s u : State), CatalogIntact s → CatalogIntact u → sel < 16 →
    1 ≤ len → len ≤ (entryAt romCatalog sel).count → 1 ≤ cap → 1 ≤ len' →
    (entryAt romCatalog sel).count ≤ cap' →
    (∀ i, i < len → (s.readV64 i).toNat < 2 ^ (entryAt romCatalog sel).bits) →
    ∃ r w, exec (.s8Encsel sel cap len) s = .next (s.complete r [w]) ∧
      (u.readW 0 = w →
        exec (.s8Decsel cap' len') u =
          .next (u.complete { rsel := sel, rcount := (entryAt romCatalog sel).count,
                              rbits := (entryAt romCatalog sel).bits }
            (s.inV64 len ++ List.replicate ((entryAt romCatalog sel).count - len) 0#64)))) ∧
  ∀ (x : Word) (cap : Nat) (s : State), CatalogIntact s → 1 ≤ cap →
    s.inV64 (wordCount x) = wordValues x →
    ∃ r, exec (.s8Encsel (selectorOf x) cap (wordCount x)) s =
      .next (s.complete r [x &&& ~~~wastedMask (entryAt romCatalog (selectorOf x))])

/-! ## The Simple8b stream unit -/

/-- S8.ENC completes on any stream of values below `2^60` with room for its words, and raises BoundsError
with less (R108); the words are at most LEN and at least `ceil(LEN/240)` (R109). -/
def Obligations.EncEncodesStream : Prop :=
  ∀ (len : Nat) (s : State), CatalogIntact s → (∀ i, i < len → (s.readV64 i).toNat < 2 ^ 60) →
    ∃ ws : List Word, ws.length ≤ len ∧ len ≤ 240 * ws.length ∧
      (∀ cap, ws.length ≤ cap → exec (.s8Enc cap len) s = .next (s.complete {} ws)) ∧
      ∀ cap, cap < ws.length → exec (.s8Enc cap len) s = .next (s.raise .boundsError cap)

/-- R110. In a stream whose first value of `2^60` or more is value `p`, a run does come to start there:
with room for the words before it S8.ENC raises InvalidArgument, and with less it raises BoundsError
and never reports the value. -/
def Obligations.EncFaultsInStreamOrder : Prop :=
  ∀ (len p : Nat) (s : State), CatalogIntact s → p < len → 2 ^ 60 ≤ (s.readV64 p).toNat →
    (∀ i, i < p → (s.readV64 i).toNat < 2 ^ 60) →
    ∃ n, n ≤ p ∧ (n = 0 ↔ p = 0) ∧
      (∀ cap, n ≤ cap → exec (.s8Enc cap len) s = .next (s.raise .invalidArgument cap)) ∧
      ∀ cap, cap < n → exec (.s8Enc cap len) s = .next (s.raise .boundsError cap)

/-- R112. Only the last word of an S8.ENC output holds padding: the counts of the words before it add up
to less than LEN, and with its own to LEN or more. A stream of fewer than 240 zeros and nothing else is
the all-zero Word. -/
def Obligations.EncPadsLastWordOnly : Prop :=
  (∀ (len : Nat) (s : State), CatalogIntact s → 1 ≤ len →
    (∀ i, i < len → (s.readV64 i).toNat < 2 ^ 60) →
    ∃ ws : List Word, ws ≠ [] ∧
      (∀ cap, ws.length ≤ cap → exec (.s8Enc cap len) s = .next (s.complete {} ws)) ∧
      totalCount ws.dropLast < len ∧ len ≤ totalCount ws) ∧
  ∀ (cap len : Nat) (s : State), CatalogIntact s → 1 ≤ len → len < 240 → 1 ≤ cap →
    (∀ i, i < len → s.readV64 i = 0#64) → exec (.s8Enc cap len) s = .next (s.complete {} [0#64])

/-- S8.DEC completes when the counts of its words add up to no more than CAP, with every field of every
word in order, and raises BoundsError when they exceed it (R113, R114, R115). -/
def Obligations.DecDecodesWords : Prop :=
  ∀ (cap len : Nat) (s : State), CatalogIntact s →
    (totalCount (s.inW len) ≤ cap →
      exec (.s8Dec cap len) s = .next (s.complete {} ((s.inW len).flatMap wordValues)) ∧
      ((s.inW len).flatMap wordValues).length = totalCount (s.inW len)) ∧
    (cap < totalCount (s.inW len) → exec (.s8Dec cap len) s = .next (s.raise .boundsError cap))

/-- R116. Stream round trip: decoding the words of a stream of `len` values below `2^60` returns at least
`len` values, the first `len` of them the stream and the rest zero; it returns exactly the stream when
the last word has no padding, and only then. -/
def Obligations.StreamRoundTrip : Prop :=
  ∀ (len : Nat) (s : State), CatalogIntact s → (∀ i, i < len → (s.readV64 i).toNat < 2 ^ 60) →
    ∃ ws : List Word,
      (∀ cap, ws.length ≤ cap → exec (.s8Enc cap len) s = .next (s.complete {} ws)) ∧
      ∀ (u : State) (cap' : Nat), CatalogIntact u → u.inW ws.length = ws → totalCount ws ≤ cap' →
        ∃ out, exec (.s8Dec cap' ws.length) u = .next (u.complete {} out) ∧ len ≤ out.length ∧
          out.take len = s.inV64 len ∧ (∀ i, len ≤ i → out.getD i 0#64 = 0#64) ∧
          (out = s.inV64 len ↔ totalCount ws = len)

/-- R117. Words are independent: S8.DEC on two word sequences one after the other gives the two outputs
one after the other, and on one word it writes what S8.DECSEL writes. -/
def Obligations.DecWordsAreIndependent : Prop :=
  (∀ (n m cap : Nat) (s a b : State), CatalogIntact s → CatalogIntact a → CatalogIntact b →
    s.inW (n + m) = a.inW n ++ b.inW m → totalCount (s.inW (n + m)) ≤ cap →
    ∃ o p, exec (.s8Dec cap n) a = .next (a.complete {} o) ∧
      exec (.s8Dec cap m) b = .next (b.complete {} p) ∧
      exec (.s8Dec cap (n + m)) s = .next (s.complete {} (o ++ p))) ∧
  ∀ (cap : Nat) (s : State), CatalogIntact s → wordCount (s.readW 0) ≤ cap →
    ∃ o r, exec (.s8Dec cap 1) s = .next (s.complete {} o) ∧
      exec (.s8Decsel cap 1) s = .next (s.complete r o)

/-- R118. The host's loop over S8.CHOOSE and S8.ENCSEL produces exactly the words of S8.ENC, for every
stream of values below `2^60` that one descriptor can name. -/
def Obligations.HostLoopEqualsEnc : Prop :=
  ∀ (vals : List Word) (s u : State) (cap : Nat), CatalogIntact s → CatalogIntact u →
    vals.length < 2 ^ 32 → vals.length ≤ cap → (∀ v ∈ vals, v.toNat < 2 ^ 60) →
    u.inV64 vals.length = vals →
    ∃ ws, hostEncodeLoop vals.length vals s = some ws ∧
      exec (.s8Enc cap vals.length) u = .next (u.complete {} ws)

/-- Running any Simple8b word with room for its run produces its values after those produced so far and
advances the cursor by one, with everything else as it was (R101, R113); without room it raises
BoundsError before any of its values is produced (R115). All sixteen `S8W` rows. (That a word can be run
by itself is the model's choice, notes/assumptions/7.md.) -/
def Obligations.WordsRunAsDecLoopPasses : Prop :=
  ∀ (i : Instr) (w : Word) (s : State), i.format = .s8w → encode i = [w] → CatalogIntact s →
    (s.emitted.length + wordCount w ≤ s.descCap →
      exec i s = .next { s with emitted := s.emitted ++ wordValues w, cur := s.cur + 1 } ∧
      (wordValues w).length = wordCount w) ∧
    (s.descCap < s.emitted.length + wordCount w → exec i s = .next (s.raise .boundsError s.descCap))

/-- Stepping through the S8.DEC loop word by word ends in the state that the command, taken as one
atomic step, gives (R148; the two grains are the model's, notes/assumptions/7.md). -/
def Obligations.WordStepsRefineDec : Prop :=
  ∀ s : State, s.host = [] → s.dutiesKept = true →
    Host.Core.run Sys2Proof.core (s.descLen + 1) s.beginWords = exec (.s8Dec s.descCap s.descLen) s

/-! ## Faults, frames, independence -/

/-- R124. What raising a fault leaves: the engine IDLE, the response with the fault's code and every other
field zero, and nothing saved: no other register is changed. The descriptor is let go: DESC holds a free value
(R14 and R17, read so in notes/assumptions/30.md). -/
def Obligations.RaiseLeavesCodeAndNothingElse : Prop :=
  ∀ (s : State) (f : FaultKind) (cap : Nat), (s.raise f cap).run = .idle ∧
    rspStatus (s.raise f cap).rsp = faultCode f ∧ rspRsel (s.raise f cap).rsp = 0 ∧
    rspRcount (s.raise f cap).rsp = 0 ∧ rspRbits (s.raise f cap).rsp = 0 ∧
    rspZero (s.raise f cap).rsp = 0 ∧ rspNout (s.raise f cap).rsp = 0 ∧
    (s.raise f cap).readRsp = faultRsp f ∧ (s.raise f cap).emitted = [] ∧ (s.raise f cap).cur = 0 ∧
    (s.raise f cap).cat = s.cat ∧
    (∃ n, (s.raise f cap).desc = { d0 := Config.freeDesc s.unit n 0, d1 := Config.freeDesc s.unit n 1 }) ∧
    (s.raise f cap).mem.input = s.mem.input

/-- A command that reports a fault has raised it, and after that every element of the output buffer is a
free value with `P_FAULT_OUTPUT = any` and as before the command with `untouched` (R126); elements at CAP
and beyond are as before in either case (R35). No command changes the input buffer. (For S8.CHOOSE the
buffer has no element, so nothing changes: notes/assumptions/5.md.) -/
def Obligations.OutputAfterFault : Prop :=
  ∀ (i : Instr) (s t : State), exec i s = .next t → t.mem.input = s.mem.input ∧
    (i.format = .cmd → WellFormed i = true → CatalogIntact s → rspStatus t.rsp ≠ 0 →
      ∃ f, t = s.raise f (outCap i s)) ∧
    ∀ f, t = s.raise f (outCap i s) →
      (s.params.faultOutput = .untouched → t.mem.output = s.mem.output) ∧
      (s.params.faultOutput = .any → ∀ k, k < outCap i s → k < s.mem.output.length →
        ∃ n, t.mem.output[k]? = some (Config.freeOut s.unit n k)) ∧
      ∀ k, outCap i s ≤ k → t.mem.output[k]? = s.mem.output[k]?

/-- The order of R123 for conditions that hold together: RSV before OP (both before anything else), the
bit width before lengths and room, the empty input before room, the input length before room (a wrong
length is BoundsError however much room there is, too little as well), and for S8.ENC feasibility before
room. (S8.ENCSEL's and S8.DECSEL's empty input with no room is in WordCommandsRaiseBoundsError. That a
reserved descriptor is rejected by the decoder is how the model says the first test.) -/
def Obligations.FaultPriority : Prop :=
  (∀ d0 d1 : Word, fieldRsv d0 ≠ 0 → decodeCommand d0 d1 = .error .reservedBits) ∧
  (∀ d0 d1 : Word, fieldRsv d0 = 0 → fieldOp d0 = 0 ∨ 9 ≤ fieldOp d0 →
    decodeCommand d0 d1 = .error .reservedOp) ∧
  ∀ (bw cap len : Nat) (m : Bool) (s : State), CatalogIntact s →
    (32 < bw → exec (.fwEnc bw m cap len) s = .next (s.raise .invalidArgument cap) ∧
      exec (.fwDec bw cap len) s = .next (s.raise .invalidArgument cap)) ∧
    (1 ≤ bw → bw ≤ 32 → exec (.fwEnc bw m 0 0) s = .next (s.complete {} []) ∧
      exec (.fwDec bw 0 0) s = .next (s.complete {} [])) ∧
    (1 ≤ bw → bw ≤ 32 → len ≠ 0 →
      (len ≠ 32 → exec (.fwEnc bw m cap len) s = .next (s.raise .boundsError cap)) ∧
      (len ≠ fwWords bw → exec (.fwDec bw cap len) s = .next (s.raise .boundsError cap))) ∧
    exec (.s8Enc 0 0) s = .next (s.complete {} []) ∧ exec (.s8Dec 0 0) s = .next (s.complete {} []) ∧
    (1 ≤ len → 2 ^ 60 ≤ (s.readV64 0).toNat →
      exec (.s8Enc 0 len) s = .next (s.raise .invalidArgument 0)) ∧
    (1 ≤ len → (s.readV64 0).toNat < 2 ^ 60 →
      exec (.s8Enc 0 len) s = .next (s.raise .boundsError 0))

/-- The frame of the eight commands: a command leaves the catalog, the parameters, the input buffer and the
host's side as they were, the engine IDLE with no working variables, no copy of its descriptor (DESC holds
a free value: R14 and R17, read so in notes/assumptions/30.md) and a readable response, and the output
buffer as long as it was. (The engine's number is the model's own, notes/assumptions/22.md.) -/
def Obligations.CommandFrame : Prop :=
  ∀ (i : Instr) (s t : State), i.format = .cmd → exec i s = .next t →
    t.cat = s.cat ∧ t.params = s.params ∧
    (∃ n, t.desc = { d0 := Config.freeDesc s.unit n 0, d1 := Config.freeDesc s.unit n 1 }) ∧
    t.mem.input = s.mem.input ∧ t.host = s.host ∧ t.dutiesKept = s.dutiesKept ∧ t.unit = s.unit ∧ t.run = .idle ∧ t.stage = .command ∧
    t.cur = 0 ∧ t.emitted = [] ∧ t.rspValid = true ∧ t.mem.output.length = s.mem.output.length

/-- R35. A command that completes writes the elements from 0 to NOUT - 1, each with its final value, and no
other; NOUT is at most CAP, and no element at CAP or beyond is ever written. And what completing leaves
for any results and elements: the fields of the response read back as the results, OK and the number of
elements (R11, R18, R48), element `k` is in place in the buffer, and the elements after them are as they
were. (The elements the host's list does not hold leave no trace, notes/assumptions/3.md.) -/
def Obligations.CommandOutputFrame : Prop :=
  (∀ (i : Instr) (s t : State), i.format = .cmd → WellFormed i = true → exec i s = .next t →
    rspNout t.rsp ≤ outCap i s ∧
    (rspStatus t.rsp = 0 →
      (∃ r vals, t = s.complete r vals ∧ vals.length = rspNout t.rsp ∧
        ∀ k, k < rspNout t.rsp → k < s.mem.output.length → t.mem.output[k]? = vals[k]?) ∧
      ∀ k, rspNout t.rsp ≤ k → t.mem.output[k]? = s.mem.output[k]?) ∧
    ∀ k, outCap i s ≤ k → t.mem.output[k]? = s.mem.output[k]?) ∧
  ∀ (s : State) (r : Results) (vals : List Word), r.rsel < 16 → r.rcount < 256 → r.rbits < 128 →
    vals.length < 2 ^ 32 →
    (s.complete r vals).run = .idle ∧ (s.complete r vals).readRsp = (s.complete r vals).rsp ∧
    rspStatus (s.complete r vals).rsp = 0 ∧ rspRsel (s.complete r vals).rsp = r.rsel ∧
    rspRcount (s.complete r vals).rsp = r.rcount ∧ rspRbits (s.complete r vals).rsp = r.rbits ∧
    rspZero (s.complete r vals).rsp = 0 ∧ rspNout (s.complete r vals).rsp = vals.length ∧
    (∀ k, k < vals.length → k < s.mem.output.length →
      (s.complete r vals).mem.output[k]? = vals[k]?) ∧
    ∀ k, vals.length ≤ k → (s.complete r vals).mem.output[k]? = s.mem.output[k]?

/-- The frame of the sixteen Simple8b words: unless it raises a fault, a word leaves everything but the
values produced and the cursor as it was; and when it does, what raise says (R124). (That a word runs by
itself, in the S8.DEC loop and outside it, is the model's choice, notes/assumptions/7.md and 23.md.) -/
def Obligations.WordFrame : Prop :=
  ∀ (i : Instr) (s t : State), i.format = .s8w → exec i s = .next t →
    (∃ vals, t = { s with emitted := s.emitted ++ vals, cur := s.cur + 1 } ∧
      s.emitted.length + vals.length ≤ s.descCap) ∨
    t = s.raise .boundsError s.descCap

/-- R24, R41, R127, R128. A command's response, and the elements it writes when it completes, are a
function of the command, the catalog, the parameters and its input elements: whatever else the two
states hold, earlier responses and output buffers among it, changes neither. -/
def Obligations.CommandsDependOnTheirOperandsOnly : Prop :=
  ∀ (i : Instr) (s s' t t' : State), i.format = .cmd → WellFormed i = true → s.cat = s'.cat →
    s.params = s'.params → (∀ k, k < inLen i → s.inCell k = s'.inCell k) →
    exec i s = .next t → exec i s' = .next t' →
    t.rsp = t'.rsp ∧
    (rspStatus t.rsp = 0 → ∀ k, k < rspNout t.rsp → k < s.mem.output.length →
      k < s'.mem.output.length → t.mem.output[k]? = t'.mem.output[k]?)

/-- Two facts about every step, from R8, R126, R139 and R143: the parameters never change, and the input
buffer changes only when a descriptor is accepted. (That it is as issued even when the host broke its
duties about it is the model's choice, notes/assumptions/14.md; the engine's number, which no step changes
either, is the model's own, 22.md.) -/
def Obligations.StepKeepsParamsAndInput : Prop :=
  ∀ s t : State, step s = .next t → t.params = s.params ∧ t.unit = s.unit ∧
    (t.mem.input = s.mem.input ∨
      ∃ c rest, s.run = .idle ∧ s.host = .issue c :: rest ∧ t.mem.input = c.input)

/-! ## The host -/

/-- R13, R16. An IDLE engine accepts the descriptor the host issues: it latches it whole, is BUSY, and the
old response is no longer readable. -/
def Obligations.IdleEngineAcceptsDescriptor : Prop :=
  ∀ (s : State) (c : Issue) (rest : List HostInput), s.run = .idle → s.host = .issue c :: rest →
    ∃ t, step s = .next t ∧ t.run = .busy ∧ t.stage = .command ∧ t.desc = { d0 := c.d0, d1 := c.d1 } ∧
      t.mem = { input := c.input, output := c.output } ∧ t.rspValid = false ∧ t.cur = 0 ∧
      t.emitted = [] ∧ t.host = rest ∧ t.cat = s.cat

/-- R143. A BUSY engine accepts no descriptor: the attempt is refused, and a step with one waiting leaves
it waiting, leaves DESC (while the command runs) and the input buffer of the running command as they are,
and does what it does with nothing waiting. (That it waits is the model's choice,
notes/assumptions/10.md.) -/
def Obligations.BusyEngineTakesNoDescriptor : Prop :=
  ∀ (s : State) (c : Issue), s.run = .busy → hostIssue c s = .refused .engineBusy ∧
    ∀ rest t, s.host = .issue c :: rest → step s = .next t →
      t.host = s.host ∧ (t.run = .busy → t.desc = s.desc) ∧ t.mem.input = s.mem.input ∧
      step { s with host := [] } = .next { t with host := [] }

/-- R139. Reset asserted while a command runs abandons it: IDLE, no response, every element of its output
buffer a free value whatever `P_FAULT_OUTPUT` is, its input buffer unchanged. (An abandoned S8.CHOOSE has
no output buffer, so that the host's list is as it was, notes/assumptions/5.md; a reserved descriptor's is
taken to have CAP elements, 4.md; the command can be between two words of the S8.DEC loop, 7.md.) -/
def Obligations.ResetAbandonsCommand : Prop :=
  ∀ (s : State) (rest : List HostInput), s.host = .reset :: rest → s.run = .busy →
    ∃ t, step s = .next t ∧ t.run = .idle ∧ t.rspValid = false ∧ t.mem.input = s.mem.input ∧
      ((∀ len, decodeCommand s.desc.d0 s.desc.d1 ≠ .ok (.s8Choose len)) →
        ∀ k, k < s.descCap → k < s.mem.output.length →
          ∃ n, t.mem.output[k]? = some (Config.freeOut s.unit n k)) ∧
      (∀ len, decodeCommand s.desc.d0 s.desc.d1 = .ok (.s8Choose len) → t.mem.output = s.mem.output) ∧
      ∀ k, s.descCap ≤ k → t.mem.output[k]? = s.mem.output[k]?

/-- R34, U6. When the host breaks its duties about the buffers of a command, the engine still returns to
IDLE, and the response and every output element are free values. (The command shows the breach as the
model chooses, notes/assumptions/14.md. S8.CHOOSE has no output buffer, so that the host's list is as it
was, 5.md; a reserved descriptor's is taken to have CAP elements, 4.md.) -/
def Obligations.BrokenDutiesSpoilOutputs : Prop :=
  ∀ s t : State, s.run = .busy → s.dutiesKept = false → (∀ rest, s.host ≠ .reset :: rest) →
    s.stage = .command → step s = .next t →
    t.run = .idle ∧ (∃ n, t.rsp = Config.freeRsp s.unit n) ∧ t.mem.input = s.mem.input ∧
      ((∀ len, decodeCommand s.desc.d0 s.desc.d1 ≠ .ok (.s8Choose len)) →
        ∀ k, k < s.descCap → k < s.mem.output.length →
          ∃ n, t.mem.output[k]? = some (Config.freeOut s.unit n k)) ∧
      (∀ len, decodeCommand s.desc.d0 s.desc.d1 = .ok (.s8Choose len) → t.mem.output = s.mem.output)

/-- R41, R134. Engines share nothing that changes: steps of two different engines give the same system in
either order, and after reset each has its own number, under which it draws its free values. (That engines
step one at a time, and that free values are drawn under a number, is the model's choice,
notes/assumptions/19.md and 22.md.) -/
def Obligations.EnginesAreIndependent : Prop :=
  (∀ (y : System) (i j : Nat), i ≠ j → ∃ z, y.run [i, j] = .next z ∧ y.run [j, i] = .next z ∧
    ∀ k, k ≠ i → k ≠ j → z.engines[k]? = y.engines[k]?) ∧
  ∀ n i, i < n → ∃ s, (System.reset n).engines[i]? = some s ∧ s.unit = i
end

