-- ==== Sys2Proof/Laws/State.lean ====
section
/-! SUPPORT. One lemma per field per update of the state, so that no later proof unfolds a record
update. -/

namespace Sys2Proof.Machine

/-! ## complete -/

@[simp] theorem State.complete_cat (s : State) (r : Results) (vals : List Word) :
    (s.complete r vals).cat = s.cat := rfl

@[simp] theorem State.complete_params (s : State) (r : Results) (vals : List Word) :
    (s.complete r vals).params = s.params := rfl

@[simp] theorem State.complete_run (s : State) (r : Results) (vals : List Word) :
    (s.complete r vals).run = .idle := rfl

@[simp] theorem State.complete_stage (s : State) (r : Results) (vals : List Word) :
    (s.complete r vals).stage = .command := rfl

@[simp] theorem State.complete_desc (s : State) (r : Results) (vals : List Word) :
    (s.complete r vals).desc = s.freeDescriptor := rfl

@[simp] theorem State.complete_cur (s : State) (r : Results) (vals : List Word) :
    (s.complete r vals).cur = 0 := rfl

@[simp] theorem State.complete_emitted (s : State) (r : Results) (vals : List Word) :
    (s.complete r vals).emitted = [] := rfl

@[simp] theorem State.complete_rsp (s : State) (r : Results) (vals : List Word) :
    (s.complete r vals).rsp = okRsp r vals.length := rfl

@[simp] theorem State.complete_rspValid (s : State) (r : Results) (vals : List Word) :
    (s.complete r vals).rspValid = true := rfl

@[simp] theorem State.complete_mem_input (s : State) (r : Results) (vals : List Word) :
    (s.complete r vals).mem.input = s.mem.input := rfl

@[simp] theorem State.complete_mem_output (s : State) (r : Results) (vals : List Word) :
    (s.complete r vals).mem.output = overlay vals s.mem.output := rfl

@[simp] theorem State.complete_dutiesKept (s : State) (r : Results) (vals : List Word) :
    (s.complete r vals).dutiesKept = s.dutiesKept := rfl

@[simp] theorem State.complete_host (s : State) (r : Results) (vals : List Word) :
    (s.complete r vals).host = s.host := rfl

@[simp] theorem State.complete_draws (s : State) (r : Results) (vals : List Word) :
    (s.complete r vals).draws = s.draws + 1 := rfl

@[simp] theorem State.complete_unit (s : State) (r : Results) (vals : List Word) :
    (s.complete r vals).unit = s.unit := rfl

/-! ## raise -/

@[simp] theorem State.raise_cat (s : State) (f : FaultKind) (cap : Nat) :
    (s.raise f cap).cat = s.cat := rfl

@[simp] theorem State.raise_params (s : State) (f : FaultKind) (cap : Nat) :
    (s.raise f cap).params = s.params := rfl

@[simp] theorem State.raise_run (s : State) (f : FaultKind) (cap : Nat) :
    (s.raise f cap).run = .idle := rfl

@[simp] theorem State.raise_stage (s : State) (f : FaultKind) (cap : Nat) :
    (s.raise f cap).stage = .command := rfl

@[simp] theorem State.raise_desc (s : State) (f : FaultKind) (cap : Nat) :
    (s.raise f cap).desc = s.freeDescriptor := rfl

@[simp] theorem State.raise_cur (s : State) (f : FaultKind) (cap : Nat) :
    (s.raise f cap).cur = 0 := rfl

@[simp] theorem State.raise_emitted (s : State) (f : FaultKind) (cap : Nat) :
    (s.raise f cap).emitted = [] := rfl

@[simp] theorem State.raise_rsp (s : State) (f : FaultKind) (cap : Nat) :
    (s.raise f cap).rsp = faultRsp f := rfl

@[simp] theorem State.raise_rspValid (s : State) (f : FaultKind) (cap : Nat) :
    (s.raise f cap).rspValid = true := rfl

@[simp] theorem State.raise_mem_input (s : State) (f : FaultKind) (cap : Nat) :
    (s.raise f cap).mem.input = s.mem.input := rfl

@[simp] theorem State.raise_mem_output (s : State) (f : FaultKind) (cap : Nat) :
    (s.raise f cap).mem.output = s.faultOutput cap := rfl

@[simp] theorem State.raise_dutiesKept (s : State) (f : FaultKind) (cap : Nat) :
    (s.raise f cap).dutiesKept = s.dutiesKept := rfl

@[simp] theorem State.raise_host (s : State) (f : FaultKind) (cap : Nat) :
    (s.raise f cap).host = s.host := rfl

@[simp] theorem State.raise_draws (s : State) (f : FaultKind) (cap : Nat) :
    (s.raise f cap).draws = s.draws + 1 := rfl

@[simp] theorem State.raise_unit (s : State) (f : FaultKind) (cap : Nat) :
    (s.raise f cap).unit = s.unit := rfl

/-! ## beginWords -/

@[simp] theorem State.beginWords_cat (s : State) :
    (s.beginWords).cat = s.cat := rfl

@[simp] theorem State.beginWords_params (s : State) :
    (s.beginWords).params = s.params := rfl

@[simp] theorem State.beginWords_run (s : State) :
    (s.beginWords).run = .busy := rfl

@[simp] theorem State.beginWords_stage (s : State) :
    (s.beginWords).stage = .words := rfl

@[simp] theorem State.beginWords_desc (s : State) :
    (s.beginWords).desc = s.desc := rfl

@[simp] theorem State.beginWords_cur (s : State) :
    (s.beginWords).cur = 0 := rfl

@[simp] theorem State.beginWords_emitted (s : State) :
    (s.beginWords).emitted = [] := rfl

@[simp] theorem State.beginWords_rsp (s : State) :
    (s.beginWords).rsp = s.rsp := rfl

@[simp] theorem State.beginWords_rspValid (s : State) :
    (s.beginWords).rspValid = s.rspValid := rfl

@[simp] theorem State.beginWords_mem (s : State) :
    (s.beginWords).mem = s.mem := rfl

@[simp] theorem State.beginWords_dutiesKept (s : State) :
    (s.beginWords).dutiesKept = s.dutiesKept := rfl

@[simp] theorem State.beginWords_host (s : State) :
    (s.beginWords).host = s.host := rfl

@[simp] theorem State.beginWords_draws (s : State) :
    (s.beginWords).draws = s.draws := rfl

@[simp] theorem State.beginWords_unit (s : State) :
    (s.beginWords).unit = s.unit := rfl

/-! ## accept -/

@[simp] theorem State.accept_cat (s : State) (c : Issue) :
    (s.accept c).cat = s.cat := rfl

@[simp] theorem State.accept_params (s : State) (c : Issue) :
    (s.accept c).params = s.params := rfl

@[simp] theorem State.accept_run (s : State) (c : Issue) :
    (s.accept c).run = .busy := rfl

@[simp] theorem State.accept_stage (s : State) (c : Issue) :
    (s.accept c).stage = .command := rfl

@[simp] theorem State.accept_desc (s : State) (c : Issue) :
    (s.accept c).desc = { d0 := c.d0, d1 := c.d1 } := rfl

@[simp] theorem State.accept_cur (s : State) (c : Issue) :
    (s.accept c).cur = 0 := rfl

@[simp] theorem State.accept_emitted (s : State) (c : Issue) :
    (s.accept c).emitted = [] := rfl

@[simp] theorem State.accept_rsp (s : State) (c : Issue) :
    (s.accept c).rsp = s.rsp := rfl

@[simp] theorem State.accept_rspValid (s : State) (c : Issue) :
    (s.accept c).rspValid = false := rfl

@[simp] theorem State.accept_mem (s : State) (c : Issue) :
    (s.accept c).mem = { input := c.input, output := c.output } := rfl

@[simp] theorem State.accept_dutiesKept (s : State) (c : Issue) :
    (s.accept c).dutiesKept = c.dutiesKept := rfl

@[simp] theorem State.accept_host (s : State) (c : Issue) :
    (s.accept c).host = s.host := rfl

@[simp] theorem State.accept_draws (s : State) (c : Issue) :
    (s.accept c).draws = s.draws + 1 := rfl

@[simp] theorem State.accept_unit (s : State) (c : Issue) :
    (s.accept c).unit = s.unit := rfl

/-! ## assertReset -/

@[simp] theorem State.assertReset_cat (s : State) :
    (s.assertReset).cat = romCatalog := rfl

@[simp] theorem State.assertReset_params (s : State) :
    (s.assertReset).params = s.params := rfl

@[simp] theorem State.assertReset_run (s : State) :
    (s.assertReset).run = .idle := rfl

@[simp] theorem State.assertReset_stage (s : State) :
    (s.assertReset).stage = .command := rfl

@[simp] theorem State.assertReset_desc (s : State) :
    (s.assertReset).desc = s.freeDescriptor := rfl

@[simp] theorem State.assertReset_cur (s : State) :
    (s.assertReset).cur = 0 := rfl

@[simp] theorem State.assertReset_emitted (s : State) :
    (s.assertReset).emitted = [] := rfl

@[simp] theorem State.assertReset_rsp (s : State) :
    (s.assertReset).rsp = Config.freeRsp s.unit s.draws := rfl

@[simp] theorem State.assertReset_rspValid (s : State) :
    (s.assertReset).rspValid = false := rfl

@[simp] theorem State.assertReset_mem_input (s : State) :
    (s.assertReset).mem.input = s.mem.input := rfl

@[simp] theorem State.assertReset_mem_output (s : State) :
    (s.assertReset).mem.output = s.resetOutput := rfl

@[simp] theorem State.assertReset_dutiesKept (s : State) :
    (s.assertReset).dutiesKept = s.dutiesKept := rfl

@[simp] theorem State.assertReset_host (s : State) :
    (s.assertReset).host = s.host := rfl

@[simp] theorem State.assertReset_draws (s : State) :
    (s.assertReset).draws = s.draws + 1 := rfl

@[simp] theorem State.assertReset_unit (s : State) :
    (s.assertReset).unit = s.unit := rfl

/-! ## breachOutputs -/

@[simp] theorem State.breachOutputs_cat (s : State) (cap : Nat) :
    (s.breachOutputs cap).cat = s.cat := rfl

@[simp] theorem State.breachOutputs_params (s : State) (cap : Nat) :
    (s.breachOutputs cap).params = s.params := rfl

@[simp] theorem State.breachOutputs_run (s : State) (cap : Nat) :
    (s.breachOutputs cap).run = s.run := rfl

@[simp] theorem State.breachOutputs_stage (s : State) (cap : Nat) :
    (s.breachOutputs cap).stage = s.stage := rfl

@[simp] theorem State.breachOutputs_desc (s : State) (cap : Nat) :
    (s.breachOutputs cap).desc = s.desc := rfl

@[simp] theorem State.breachOutputs_cur (s : State) (cap : Nat) :
    (s.breachOutputs cap).cur = s.cur := rfl

@[simp] theorem State.breachOutputs_emitted (s : State) (cap : Nat) :
    (s.breachOutputs cap).emitted = s.emitted := rfl

@[simp] theorem State.breachOutputs_rsp (s : State) (cap : Nat) :
    (s.breachOutputs cap).rsp = Config.freeRsp s.unit s.draws := rfl

@[simp] theorem State.breachOutputs_rspValid (s : State) (cap : Nat) :
    (s.breachOutputs cap).rspValid = s.rspValid := rfl

@[simp] theorem State.breachOutputs_mem_input (s : State) (cap : Nat) :
    (s.breachOutputs cap).mem.input = s.mem.input := rfl

@[simp] theorem State.breachOutputs_mem_output (s : State) (cap : Nat) :
    (s.breachOutputs cap).mem.output = scrambled s.unit s.draws cap s.mem.output := rfl

@[simp] theorem State.breachOutputs_dutiesKept (s : State) (cap : Nat) :
    (s.breachOutputs cap).dutiesKept = s.dutiesKept := rfl

@[simp] theorem State.breachOutputs_host (s : State) (cap : Nat) :
    (s.breachOutputs cap).host = s.host := rfl

@[simp] theorem State.breachOutputs_draws (s : State) (cap : Nat) :
    (s.breachOutputs cap).draws = s.draws + 1 := rfl

@[simp] theorem State.breachOutputs_unit (s : State) (cap : Nat) :
    (s.breachOutputs cap).unit = s.unit := rfl

/-! ## tickHost and settle -/

@[simp] theorem State.tickHost_cat (s : State) : s.tickHost.cat = s.cat := by
  unfold State.tickHost; split <;> rfl

@[simp] theorem State.tickHost_params (s : State) : s.tickHost.params = s.params := by
  unfold State.tickHost; split <;> rfl

@[simp] theorem State.tickHost_run (s : State) : s.tickHost.run = s.run := by
  unfold State.tickHost; split <;> rfl

@[simp] theorem State.tickHost_stage (s : State) : s.tickHost.stage = s.stage := by
  unfold State.tickHost; split <;> rfl

@[simp] theorem State.tickHost_desc (s : State) : s.tickHost.desc = s.desc := by
  unfold State.tickHost; split <;> rfl

@[simp] theorem State.tickHost_cur (s : State) : s.tickHost.cur = s.cur := by
  unfold State.tickHost; split <;> rfl

@[simp] theorem State.tickHost_emitted (s : State) : s.tickHost.emitted = s.emitted := by
  unfold State.tickHost; split <;> rfl

@[simp] theorem State.tickHost_rsp (s : State) : s.tickHost.rsp = s.rsp := by
  unfold State.tickHost; split <;> rfl

@[simp] theorem State.tickHost_rspValid (s : State) : s.tickHost.rspValid = s.rspValid := by
  unfold State.tickHost; split <;> rfl

@[simp] theorem State.tickHost_mem (s : State) : s.tickHost.mem = s.mem := by
  unfold State.tickHost; split <;> rfl

@[simp] theorem State.tickHost_dutiesKept (s : State) : s.tickHost.dutiesKept = s.dutiesKept := by
  unfold State.tickHost; split <;> rfl

@[simp] theorem State.tickHost_draws (s : State) : s.tickHost.draws = s.draws := by
  unfold State.tickHost; split <;> rfl

@[simp] theorem State.tickHost_unit (s : State) : s.tickHost.unit = s.unit := by
  unfold State.tickHost; split <;> rfl

@[simp] theorem State.settle_cat (cap : Nat) (s : State) : (s.settle cap).cat = s.cat := by
  unfold State.settle; split <;> rfl

@[simp] theorem State.settle_params (cap : Nat) (s : State) : (s.settle cap).params = s.params := by
  unfold State.settle; split <;> rfl

@[simp] theorem State.settle_run (cap : Nat) (s : State) : (s.settle cap).run = s.run := by
  unfold State.settle; split <;> rfl

@[simp] theorem State.settle_stage (cap : Nat) (s : State) : (s.settle cap).stage = s.stage := by
  unfold State.settle; split <;> rfl

@[simp] theorem State.settle_desc (cap : Nat) (s : State) : (s.settle cap).desc = s.desc := by
  unfold State.settle; split <;> rfl

@[simp] theorem State.settle_cur (cap : Nat) (s : State) : (s.settle cap).cur = s.cur := by
  unfold State.settle; split <;> rfl

@[simp] theorem State.settle_emitted (cap : Nat) (s : State) : (s.settle cap).emitted = s.emitted := by
  unfold State.settle; split <;> rfl

@[simp] theorem State.settle_rspValid (cap : Nat) (s : State) : (s.settle cap).rspValid = s.rspValid := by
  unfold State.settle; split <;> rfl

@[simp] theorem State.settle_dutiesKept (cap : Nat) (s : State) : (s.settle cap).dutiesKept = s.dutiesKept := by
  unfold State.settle; split <;> rfl

@[simp] theorem State.settle_unit (cap : Nat) (s : State) : (s.settle cap).unit = s.unit := by
  unfold State.settle; split <;> rfl

@[simp] theorem State.settle_host (cap : Nat) (s : State) : (s.settle cap).host = s.host := by
  unfold State.settle; split <;> rfl

@[simp] theorem State.settle_mem_input (cap : Nat) (s : State) : (s.settle cap).mem.input = s.mem.input := by
  unfold State.settle; split <;> rfl

theorem State.settle_of_kept (cap : Nat) (s : State) (h : s.dutiesKept = true) : s.settle cap = s := by
  unfold State.settle; split <;> simp_all

theorem State.settle_of_busy (cap : Nat) (s : State) (h : s.run = .busy) : s.settle cap = s := by
  unfold State.settle; split <;> simp_all

/-! ## freeDescriptor and outLimit -/

@[simp] theorem State.freeDescriptor_d0 (s : State) :
    s.freeDescriptor.d0 = Config.freeDesc s.unit s.draws 0 := rfl

@[simp] theorem State.freeDescriptor_d1 (s : State) :
    s.freeDescriptor.d1 = Config.freeDesc s.unit s.draws 1 := rfl

/-- The host's tick leaves the latched command, and so what it may leave unspecified. -/
@[simp] theorem State.tickHost_outLimit (s : State) : s.tickHost.outLimit = s.outLimit := by
  unfold State.tickHost; split <;> rfl

/-- S8.CHOOSE has no output element to leave unspecified. -/
theorem State.outLimit_of_choose (s : State) (len : Nat)
    (h : decodeCommand s.desc.d0 s.desc.d1 = .ok (.s8Choose len)) : s.outLimit = 0 := by
  unfold State.outLimit; rw [h]

/-- Any other descriptor has CAP. -/
theorem State.outLimit_of_not_choose (s : State)
    (h : ∀ len, decodeCommand s.desc.d0 s.desc.d1 ≠ .ok (.s8Choose len)) : s.outLimit = s.descCap := by
  unfold State.outLimit
  split
  · rename_i len hd; exact absurd hd (h len)
  · rfl

end Sys2Proof.Machine
end

