-- ==== Sys2Proof/Laws/Ops.lean ====
section
/-! SUPPORT. What the shared operations do, said once: writing elements, ending a command, and the
shape of every instruction's outcome. -/

namespace Sys2Proof.Machine

/-! ## Writing elements -/

@[simp] theorem overlay_nil (old : List Word) : overlay [] old = old := by
  cases old <;> rfl

@[simp] theorem overlay_length (vals old : List Word) : (overlay vals old).length = old.length := by
  induction vals generalizing old with
  | nil => simp
  | cons v vs ih => cases old with
    | nil => rfl
    | cons o os => simp [overlay, ih]

theorem overlay_getElem? (vals old : List Word) (k : Nat) :
    (overlay vals old)[k]? =
      if k < vals.length then (old[k]?).map (fun o => vals.getD k o) else old[k]? := by
  induction vals generalizing old k with
  | nil => simp
  | cons v vs ih =>
    cases old with
    | nil => simp [overlay]
    | cons o os =>
      cases k with
      | zero => simp [overlay]
      | succ k => simp [overlay, ih]

/-- An element past the written ones keeps its value. -/
theorem overlay_getElem?_past (vals old : List Word) (k : Nat) (h : vals.length ≤ k) :
    (overlay vals old)[k]? = old[k]? := by
  rw [overlay_getElem?, if_neg (by omega)]

/-- An element the host's buffer holds takes the value written to it. -/
theorem overlay_getElem?_written (vals old : List Word) (k : Nat) (hk : k < vals.length)
    (ho : vals.length ≤ old.length) : (overlay vals old)[k]? = vals[k]? := by
  rw [overlay_getElem?, if_pos hk, List.getElem?_eq_getElem (by omega), List.getElem?_eq_getElem hk]
  simp [List.getD, List.getElem?_eq_getElem hk]

/-- With room for all of them, the elements written stand at the front of the buffer. -/
theorem overlay_eq_append (vals old : List Word) (h : vals.length ≤ old.length) :
    overlay vals old = vals ++ old.drop vals.length := by
  induction vals generalizing old with
  | nil => simp
  | cons v vs ih =>
    cases old with
    | nil => simp at h
    | cons o os => simp [overlay, ih os (by simpa using h)]

@[simp] theorem scrambled_length (unit n cap : Nat) (old : List Word) :
    (scrambled unit n cap old).length = old.length := by simp [scrambled]

theorem scrambled_getElem?_past (unit n cap : Nat) (old : List Word) (k : Nat) (h : cap ≤ k) :
    (scrambled unit n cap old)[k]? = old[k]? := by
  unfold scrambled
  apply overlay_getElem?_past
  rw [List.length_map, List.length_range]
  exact le_trans (Nat.min_le_left _ _) h

theorem scrambled_getElem?_free (unit n cap : Nat) (old : List Word) (k : Nat) (h : k < cap)
    (ho : k < old.length) : (scrambled unit n cap old)[k]? = some (Config.freeOut unit n k) := by
  unfold scrambled
  rw [overlay_getElem?_written _ _ _ (by simp; omega) (by simp), List.getElem?_map,
    List.getElem?_range (by omega)]
  rfl

@[simp] theorem faultOutput_length (s : State) (cap : Nat) :
    (s.faultOutput cap).length = s.mem.output.length := by
  unfold State.faultOutput; split <;> simp

theorem faultOutput_getElem?_past (s : State) (cap k : Nat) (h : cap ≤ k) :
    (s.faultOutput cap)[k]? = s.mem.output[k]? := by
  unfold State.faultOutput; split
  · exact scrambled_getElem?_past _ _ _ _ _ h
  · rfl

/-- A fault that concerns no output element leaves all of them. -/
@[simp] theorem faultOutput_zero (s : State) : s.faultOutput 0 = s.mem.output := by
  unfold State.faultOutput; split
  · simp [scrambled]
  · rfl

@[simp] theorem resetOutput_length (s : State) : s.resetOutput.length = s.mem.output.length := by
  unfold State.resetOutput; split <;> simp

/-! ## Ending a command -/

/-- What a command that completes leaves in its output buffer: its elements, each in its place as far as
the host's buffer reaches, and the others as they were. -/
theorem complete_output_getElem? (s : State) (r : Results) (vals : List Word) (k : Nat)
    (hk : k < s.mem.output.length) :
    (s.complete r vals).mem.output[k]? = if k < vals.length then vals[k]? else s.mem.output[k]? := by
  rw [State.complete_mem_output, overlay_getElem?]
  split
  · rename_i h
    rw [List.getElem?_eq_getElem hk, List.getElem?_eq_getElem h]
    simp [List.getD, List.getElem?_eq_getElem h]
  · rfl

/-! ## The memory's form -/

theorem complete_wf (s : State) (r : Results) (vals : List Word) (cap len : Nat) :
    (s.complete r vals).mem.wf cap len = s.mem.wf cap len := by simp [Memory.wf]

theorem raise_wf (s : State) (f : FaultKind) (c cap len : Nat) :
    (s.raise f c).mem.wf cap len = s.mem.wf cap len := by simp [Memory.wf]

theorem assertReset_wf (s : State) (cap len : Nat) :
    s.assertReset.mem.wf cap len = s.mem.wf cap len := by simp [Memory.wf]

theorem breachOutputs_wf (s : State) (c cap len : Nat) :
    (s.breachOutputs c).mem.wf cap len = s.mem.wf cap len := by simp [Memory.wf]

theorem beginWords_wf (s : State) (cap len : Nat) :
    s.beginWords.mem.wf cap len = s.mem.wf cap len := rfl

theorem emitWord_wf (c : Nat) (w : Word) (s t : State) (cap len : Nat) (h : emitWord c w s = .ok t) :
    t.mem.wf cap len = s.mem.wf cap len := by
  unfold emitWord at h
  split at h <;> simp at h
  rw [← h]

theorem reset_wf : State.reset.mem.wf 0 0 = true := by decide

/-! ## Reading elements -/

@[simp] theorem inV32_length (s : State) (n : Nat) : (s.inV32 n).length = n := by simp [State.inV32]

@[simp] theorem inV64_length (s : State) (n : Nat) : (s.inV64 n).length = n := by simp [State.inV64]

@[simp] theorem inW_length (s : State) (n : Nat) : (s.inW n).length = n := by simp [State.inW]

/-- Where the host's list holds the element, reading it gives that element. -/
theorem inCell_of_lt (s : State) (i : Nat) (h : i < s.mem.input.length) :
    s.inCell i = s.mem.input[i] := by
  simp [State.inCell, List.getD, List.getElem?_eq_getElem h]

theorem inV64_eq_take (s : State) (n : Nat) (h : n ≤ s.mem.input.length) :
    s.inV64 n = s.mem.input.take n := by
  apply List.ext_getElem
  · simp [h]
  · intro i h1 h2
    simp at h1
    simp [State.inV64, State.readV64, inCell_of_lt s i (by omega)]

theorem inW_eq_take (s : State) (n : Nat) (h : n ≤ s.mem.input.length) :
    s.inW n = s.mem.input.take n := inV64_eq_take s n h

/-! ## The S8.DEC loop -/

/-- One pass changes what has been produced and the cursor, and nothing else. -/
theorem emitWord_frame (cap : Nat) (w : Word) (s t : State) (h : emitWord cap w s = .ok t) :
    t = { s with emitted := t.emitted, cur := t.cur } := by
  unfold emitWord at h
  split at h <;> simp at h
  subst h; rfl

/-- Any number of passes does. -/
theorem emitWords_frame (cap : Nat) (ws : List Word) (s t : State) (h : emitWords cap ws s = .ok t) :
    t = { s with emitted := t.emitted, cur := t.cur } := by
  induction ws generalizing s with
  | nil => simp [emitWords] at h; subst h; rfl
  | cons w ws ih =>
    simp only [emitWords] at h
    split at h
    · rename_i u hu
      have h1 := ih _ h
      have h2 := emitWord_frame _ _ _ _ hu
      rw [h2] at h1
      exact h1
    · simp at h

/-- The only fault of the loop is BoundsError. -/
theorem emitWord_boundsError (cap : Nat) (w : Word) (s : State) (f : FaultKind)
    (h : emitWord cap w s = .error f) : f = .boundsError := by
  unfold emitWord at h
  split at h <;> simp at h
  exact h.symm

/-- Running one Simple8b word: a pass of the loop, or BoundsError. -/
theorem runWord_cases (w : Word) (s : State) :
    (s.emitted.length + (s.entry (selectorOf w)).count ≤ s.descCap ∧
      runWord w s = { s with emitted := s.emitted ++ decodeFields (s.entry (selectorOf w)) w,
                             cur := s.cur + 1 }) ∨
    (s.descCap < s.emitted.length + (s.entry (selectorOf w)).count ∧
      runWord w s = s.raise .boundsError s.descCap) := by
  unfold runWord emitWord
  by_cases h : s.descCap < s.emitted.length + (s.entry (selectorOf w)).count
  · exact .inr ⟨h, by rw [if_pos h]⟩
  · exact .inl ⟨by omega, by rw [if_neg h]⟩

/-! ## The outcome of an instruction -/

/-- What an exec answers is a next state; no instruction stops the machine. -/
theorem exec_next (i : Instr) (s : State) : ∃ t, exec i s = .next t := by
  cases i <;> exact ⟨_, rfl⟩

/-- A command either completes or raises one fault, with nothing else changed. -/
theorem exec_command_shape (i : Instr) (s t : State) (hf : i.format = .cmd)
    (h : exec i s = .next t) :
    (∃ r vals, t = s.complete r vals) ∨ ∃ f cap, t = s.raise f cap := by
  have key : ∀ (p : Prop) [Decidable p] (a b : State),
      ((∃ r vals, a = s.complete r vals) ∨ ∃ f cap, a = s.raise f cap) →
      ((∃ r vals, b = s.complete r vals) ∨ ∃ f cap, b = s.raise f cap) →
      ((∃ r vals, (if p then a else b) = s.complete r vals) ∨
        ∃ f cap, (if p then a else b) = s.raise f cap) := by
    intro p _ a b ha hb; split
    · exact ha
    · exact hb
  have hc : ∀ r vals, (∃ r' vals', s.complete r vals = s.complete r' vals') ∨
      ∃ f cap, s.complete r vals = s.raise f cap := fun r vals => .inl ⟨r, vals, rfl⟩
  have hr : ∀ f cap, (∃ r' vals', s.raise f cap = s.complete r' vals') ∨
      ∃ f' cap', s.raise f cap = s.raise f' cap' := fun f cap => .inr ⟨f, cap, rfl⟩
  cases i with
  | fwEnc bw m cap len =>
    simp only [exec, execFwEnc, fwEncZeroWidth, Host.Outcome.next.injEq] at h
    subst h
    exact key _ _ _ (key _ _ _ (hc _ _) (hr _ _)) <| key _ _ _ (hr _ _) <| key _ _ _ (hc _ _) <|
      key _ _ _ (hr _ _) <| key _ _ _ (hr _ _) (hc _ _)
  | fwDec bw cap len =>
    simp only [exec, execFwDec, fwDecZeroWidth, Host.Outcome.next.injEq] at h
    subst h
    exact key _ _ _ (key _ _ _ (hr _ _) (hc _ _)) <| key _ _ _ (hr _ _) <| key _ _ _ (hc _ _) <|
      key _ _ _ (hr _ _) <| key _ _ _ (hr _ _) (hc _ _)
  | catRd sel cap =>
    simp only [exec, execCatRd, Host.Outcome.next.injEq] at h
    subst h
    exact key _ _ _ (hr _ _) (hc _ _)
  | s8Choose len =>
    simp only [exec, execS8Choose, Host.Outcome.next.injEq] at h
    subst h
    apply key _ _ _ (hr _ _)
    split
    · exact hr _ _
    · exact hc _ _
  | s8Encsel sel cap len =>
    simp only [exec, execS8Encsel, Host.Outcome.next.injEq] at h
    subst h
    exact key _ _ _ (hr _ _) <| key _ _ _ (hr _ _) (hc _ _)
  | s8Decsel cap len =>
    simp only [exec, execS8Decsel, Host.Outcome.next.injEq] at h
    subst h
    exact key _ _ _ (hr _ _) <| key _ _ _ (hr _ _) (hc _ _)
  | s8Enc cap len =>
    simp only [exec, execS8Enc, Host.Outcome.next.injEq] at h
    subst h
    split
    · exact hc _ _
    · exact hr _ _
  | s8Dec cap len =>
    simp only [exec, execS8Dec, Host.Outcome.next.injEq] at h
    subst h
    split
    · rename_i t ht
      refine .inl ⟨{}, t.emitted, ?_⟩
      rw [emitWords_frame _ _ _ _ ht]
      rfl
    · exact hr _ _
  | s8wSel0 p => simp [Instr.format] at hf
  | s8wSel1 p => simp [Instr.format] at hf
  | s8wSel2 p => simp [Instr.format] at hf
  | s8wSel3 p => simp [Instr.format] at hf
  | s8wSel4 p => simp [Instr.format] at hf
  | s8wSel5 p => simp [Instr.format] at hf
  | s8wSel6 p => simp [Instr.format] at hf
  | s8wSel7 p => simp [Instr.format] at hf
  | s8wSel8 p => simp [Instr.format] at hf
  | s8wSel9 p => simp [Instr.format] at hf
  | s8wSel10 p => simp [Instr.format] at hf
  | s8wSel11 p => simp [Instr.format] at hf
  | s8wSel12 p => simp [Instr.format] at hf
  | s8wSel13 p => simp [Instr.format] at hf
  | s8wSel14 p => simp [Instr.format] at hf
  | s8wSel15 p => simp [Instr.format] at hf

end Sys2Proof.Machine
end

