-- ==== Sys2Proof/Laws/Encoding.lean ====
section
/-! SUPPORT. The fields of the response word, of the descriptor and of a Simple8b word, each read back from
the word built of them. -/

namespace Sys2Proof.Machine

/-! ## The response word -/

/-- The guard of a shift, turned round. -/
theorem not_decide_lt (i k : Nat) : (!decide (i < k)) = decide (k ≤ i) := by
  rw [← decide_not]; simp only [Nat.not_lt]

theorem getLsbD_rspWord (st a b c n i : Nat) :
    (rspWord st a b c n).getLsbD i = (decide (i < 64) &&
      ((decide (62 ≤ i) && st.testBit (i - 62)) || (decide (58 ≤ i) && a.testBit (i - 58)) ||
        (decide (50 ≤ i) && b.testBit (i - 50)) || (decide (43 ≤ i) && c.testBit (i - 43)) ||
        n.testBit i)) := by
  by_cases hi : i < 64
  · simp only [rspWord, BitVec.getLsbD_or, BitVec.getLsbD_shiftLeft, BitVec.getLsbD_ofNat, hi,
      decide_true, Bool.true_and]
    have h1 : i - 62 < 64 := by omega
    have h2 : i - 58 < 64 := by omega
    have h3 : i - 50 < 64 := by omega
    have h4 : i - 43 < 64 := by omega
    simp only [h1, h2, h3, h4, decide_true, Bool.true_and, not_decide_lt]
  · rw [BitVec.getLsbD_of_ge _ _ (by omega)]; simp [hi]

theorem testBit_high {n k i : Nat} (h : n < 2 ^ k) (hi : k ≤ i) : n.testBit i = false :=
  Nat.testBit_lt_two_pow (Nat.lt_of_lt_of_le h (Nat.pow_le_pow_right (by omega) hi))

/-- A field read as a number is the number whose bits the field's bits are. -/
theorem extract_toNat_of_bits (w : Word) (start len v : Nat) (hv : v < 2 ^ len)
    (h : ∀ i, i < len → w.getLsbD (start + i) = v.testBit i) :
    (w.extractLsb' start len).toNat = v := by
  have : w.extractLsb' start len = BitVec.ofNat len v := by
    apply BitVec.eq_of_getLsbD_eq
    intro i hi
    rw [BitVec.getLsbD_extractLsb', BitVec.getLsbD_ofNat, h i hi]
  rw [this, BitVec.toNat_ofNat, Nat.mod_eq_of_lt hv]

theorem rspNout_rspWord (st a b c n : Nat) (hn : n < 2 ^ 32) : rspNout (rspWord st a b c n) = n := by
  apply extract_toNat_of_bits _ _ _ _ hn
  intro i hi
  rw [getLsbD_rspWord]
  simp [show i < 64 by omega, show ¬ 62 ≤ i by omega, show ¬ 58 ≤ i by omega,
    show ¬ 50 ≤ i by omega, show ¬ 43 ≤ i by omega]

theorem rspZero_rspWord (st a b c n : Nat) (hn : n < 2 ^ 32) : rspZero (rspWord st a b c n) = 0 := by
  apply extract_toNat_of_bits _ _ _ _ (by decide)
  intro i hi
  rw [getLsbD_rspWord]
  simp [show ¬ 62 ≤ 32 + i by omega, show ¬ 58 ≤ 32 + i by omega,
    show ¬ 50 ≤ 32 + i by omega, show ¬ 43 ≤ 32 + i by omega, testBit_high hn (show 32 ≤ 32 + i by omega)]

theorem rspRbits_rspWord (st a b c n : Nat) (hc : c < 2 ^ 7) (hn : n < 2 ^ 32) :
    rspRbits (rspWord st a b c n) = c := by
  apply extract_toNat_of_bits _ _ _ _ hc
  intro i hi
  rw [getLsbD_rspWord]
  simp [show 43 + i < 64 by omega, show ¬ 62 ≤ 43 + i by omega, show ¬ 58 ≤ 43 + i by omega,
    show ¬ 50 ≤ 43 + i by omega, testBit_high hn (show 32 ≤ 43 + i by omega)]

theorem rspRcount_rspWord (st a b c n : Nat) (hb : b < 2 ^ 8) (hc : c < 2 ^ 7) (hn : n < 2 ^ 32) :
    rspRcount (rspWord st a b c n) = b := by
  apply extract_toNat_of_bits _ _ _ _ hb
  intro i hi
  rw [getLsbD_rspWord]
  simp [show 50 + i < 64 by omega, show ¬ 62 ≤ 50 + i by omega, show ¬ 58 ≤ 50 + i by omega,
    testBit_high hc (show 7 ≤ 50 + i - 43 by omega), testBit_high hn (show 32 ≤ 50 + i by omega)]

theorem rspRsel_rspWord (st a b c n : Nat) (ha : a < 2 ^ 4) (hb : b < 2 ^ 8) (hc : c < 2 ^ 7)
    (hn : n < 2 ^ 32) : rspRsel (rspWord st a b c n) = a := by
  apply extract_toNat_of_bits _ _ _ _ ha
  intro i hi
  rw [getLsbD_rspWord]
  simp [show 58 + i < 64 by omega, show ¬ 62 ≤ 58 + i by omega,
    testBit_high hb (show 8 ≤ 58 + i - 50 by omega), testBit_high hc (show 7 ≤ 58 + i - 43 by omega),
    testBit_high hn (show 32 ≤ 58 + i by omega)]

theorem rspStatus_rspWord (st a b c n : Nat) (hs : st < 2 ^ 2) (ha : a < 2 ^ 4) (hb : b < 2 ^ 8)
    (hc : c < 2 ^ 7) (hn : n < 2 ^ 32) : rspStatus (rspWord st a b c n) = st := by
  apply extract_toNat_of_bits _ _ _ _ hs
  intro i hi
  rw [getLsbD_rspWord]
  simp [show 62 + i < 64 by omega,
    testBit_high ha (show 4 ≤ 62 + i - 58 by omega), testBit_high hb (show 8 ≤ 62 + i - 50 by omega),
    testBit_high hc (show 7 ≤ 62 + i - 43 by omega), testBit_high hn (show 32 ≤ 62 + i by omega)]

@[simp] theorem rspStatus_faultRsp (f : FaultKind) : rspStatus (faultRsp f) = faultCode f := by
  cases f <;> decide

/-! ## The descriptor and the Simple8b word -/

theorem getLsbD_encodeD0 (op bw sel i : Nat) (m : Bool) :
    (encodeD0 op bw m sel).getLsbD i = (decide (i < 64) &&
      ((decide (60 ≤ i) && op.testBit (i - 60)) || (decide (54 ≤ i) && bw.testBit (i - 54)) ||
        (decide (53 ≤ i) && m.toNat.testBit (i - 53)) || (decide (49 ≤ i) && sel.testBit (i - 49)))) := by
  by_cases hi : i < 64
  · simp only [encodeD0, BitVec.getLsbD_or, BitVec.getLsbD_shiftLeft, BitVec.getLsbD_ofNat, hi,
      decide_true, Bool.true_and]
    have h1 : i - 60 < 64 := by omega
    have h2 : i - 54 < 64 := by omega
    have h3 : i - 53 < 64 := by omega
    have h4 : i - 49 < 64 := by omega
    simp only [h1, h2, h3, h4, decide_true, Bool.true_and, not_decide_lt]
  · rw [BitVec.getLsbD_of_ge _ _ (by omega)]; simp [hi]

theorem toNat_lt_two (m : Bool) : m.toNat < 2 ^ 1 := by cases m <;> decide

theorem fieldRsv_encodeD0 (op bw sel : Nat) (m : Bool) : fieldRsv (encodeD0 op bw m sel) = 0 := by
  apply extract_toNat_of_bits _ _ _ _ (by decide)
  intro i hi
  rw [getLsbD_encodeD0]
  simp [show ¬ 60 ≤ i by omega, show ¬ 54 ≤ i by omega, show ¬ 53 ≤ i by omega, show ¬ 49 ≤ i by omega]

theorem fieldSel_encodeD0 (op bw sel : Nat) (m : Bool) (hs : sel < 2 ^ 4) :
    fieldSel (encodeD0 op bw m sel) = sel := by
  apply extract_toNat_of_bits _ _ _ _ hs
  intro i hi
  rw [getLsbD_encodeD0]
  simp [show 49 + i < 64 by omega, show ¬ 60 ≤ 49 + i by omega, show ¬ 54 ≤ 49 + i by omega,
    show ¬ 53 ≤ 49 + i by omega]

theorem fieldM_encodeD0 (op bw sel : Nat) (m : Bool) (hs : sel < 2 ^ 4) :
    fieldM (encodeD0 op bw m sel) = m := by
  unfold fieldM
  rw [getLsbD_encodeD0]
  simp only [show ¬ 60 ≤ 53 by omega, show ¬ 54 ≤ 53 by omega,
    testBit_high hs (show 4 ≤ 53 - 49 by omega), decide_false, Bool.false_and, Bool.false_or,
    Bool.and_false, Bool.or_false]
  cases m <;> decide

theorem fieldBw_encodeD0 (op bw sel : Nat) (m : Bool) (hb : bw < 2 ^ 6) (hs : sel < 2 ^ 4) :
    fieldBw (encodeD0 op bw m sel) = bw := by
  apply extract_toNat_of_bits _ _ _ _ hb
  intro i hi
  rw [getLsbD_encodeD0]
  simp [show 54 + i < 64 by omega, show ¬ 60 ≤ 54 + i by omega,
    testBit_high (toNat_lt_two m) (show 1 ≤ 54 + i - 53 by omega),
    testBit_high hs (show 4 ≤ 54 + i - 49 by omega)]

theorem fieldOp_encodeD0 (op bw sel : Nat) (m : Bool) (ho : op < 2 ^ 4) (hb : bw < 2 ^ 6)
    (hs : sel < 2 ^ 4) : fieldOp (encodeD0 op bw m sel) = op := by
  apply extract_toNat_of_bits _ _ _ _ ho
  intro i hi
  rw [getLsbD_encodeD0]
  simp [show 60 + i < 64 by omega, testBit_high hb (show 6 ≤ 60 + i - 54 by omega),
    testBit_high (toNat_lt_two m) (show 1 ≤ 60 + i - 53 by omega),
    testBit_high hs (show 4 ≤ 60 + i - 49 by omega)]

theorem getLsbD_encodeD1 (cap len i : Nat) (hi : i < 64) :
    (encodeD1 cap len).getLsbD i = ((decide (32 ≤ i) && cap.testBit (i - 32)) || len.testBit i) := by
  simp only [encodeD1, BitVec.getLsbD_or, BitVec.getLsbD_shiftLeft, BitVec.getLsbD_ofNat, hi,
    decide_true, Bool.true_and]
  simp only [show i - 32 < 64 by omega, decide_true, Bool.true_and, not_decide_lt]

theorem fieldLen_encodeD1 (cap len : Nat) (hl : len < 2 ^ 32) : fieldLen (encodeD1 cap len) = len := by
  apply extract_toNat_of_bits _ _ _ _ hl
  intro i hi
  rw [getLsbD_encodeD1 _ _ _ (by omega)]
  simp [show ¬ 32 ≤ i by omega]

theorem fieldCap_encodeD1 (cap len : Nat) (hc : cap < 2 ^ 32) (hl : len < 2 ^ 32) :
    fieldCap (encodeD1 cap len) = cap := by
  apply extract_toNat_of_bits _ _ _ _ hc
  intro i hi
  rw [getLsbD_encodeD1 _ _ _ (by omega)]
  simp [testBit_high hl (show 32 ≤ 32 + i by omega)]

theorem selectorOf_wordOf (sel : Nat) (p : BitVec 60) (hs : sel < 2 ^ 4) : selectorOf (wordOf sel p) = sel := by
  apply extract_toNat_of_bits _ _ _ _ hs
  intro i hi
  rw [wordOf, BitVec.getLsbD_or, BitVec.getLsbD_shiftLeft, BitVec.getLsbD_ofNat]
  simp [show 60 + i < 64 by omega, show i < 64 by omega]

theorem payloadOf_wordOf (sel : Nat) (p : BitVec 60) : payloadOf (wordOf sel p) = p := by
  apply BitVec.eq_of_getLsbD_eq
  intro i hi
  simp [payloadOf, wordOf, hi]
  omega

end Sys2Proof.Machine
end

