-- ==== Sys2Proof/Laws/FixedWidth.lean ====
section
/-! SUPPORT. The fixed-width packer bit by bit: the mask, one placed value, a packed block, one extracted
value. Everything about FW.ENC and FW.DEC follows from globalBit_fwPack and getLsbD_extract. -/

namespace Sys2Proof.Machine
theorem lowMask_toNat (b : Nat) (h : b ≤ 64) : (lowMask b).toNat = 2 ^ b - 1 := by
  unfold lowMask
  rcases Nat.lt_or_ge b 64 with hb | hb
  · have h2 : 2 ^ b < 2 ^ 64 := Nat.pow_lt_pow_right (by omega) hb
    have h1 : 1 ≤ 2 ^ b := Nat.one_le_two_pow
    have : ((1#64 <<< b) : BitVec 64).toNat = 2 ^ b := by
      rw [BitVec.toNat_shiftLeft, Nat.shiftLeft_eq, BitVec.toNat_ofNat, Nat.one_mod_two_pow (by omega),
        Nat.one_mul, Nat.mod_eq_of_lt h2]
    rw [BitVec.toNat_sub, this]
    simp
    omega
  · obtain rfl : b = 64 := by omega
    decide

theorem getLsbD_lowMask (b i : Nat) (h : b ≤ 64) : (lowMask b).getLsbD i = decide (i < b) := by
  rw [BitVec.getLsbD, lowMask_toNat b h, Nat.testBit_two_pow_sub_one]

@[simp] theorem orInto_length (ws : List Word) (q : Nat) (x : Word) :
    (orInto ws q x).length = ws.length := by simp [orInto]

theorem orInto_getD (ws : List Word) (q p : Nat) (x : Word) (hq : q < ws.length) :
    (orInto ws q x).getD p 0#64 = if p = q then ws.getD p 0#64 ||| x else ws.getD p 0#64 := by
  unfold orInto
  simp only [List.getD, List.getElem?_modify]
  by_cases hp : p = q
  · subst hp; simp [hq]
  · simp [hp, Ne.symm hp]

@[simp] theorem place_length (bw : Nat) (ws : List Word) (j : Nat) (v : Word) :
    (place bw ws j v).length = ws.length := by unfold place; split <;> simp

theorem globalBit_orInto (ws : List Word) (q g : Nat) (x : Word) (hq : q < ws.length) :
    globalBit (orInto ws q x) g = (globalBit ws g || (decide (g / 64 = q) && x.getLsbD (g % 64))) := by
  unfold globalBit
  rw [orInto_getD _ _ _ _ hq]
  by_cases h : g / 64 = q <;> simp [h]

/-- Where a field ends: in its first word, or in the one after. -/
theorem secondWord_cases (bw j : Nat) (h1 : 1 ≤ bw) (h2 : bw ≤ 32) :
    (secondWord bw j = firstWord bw j ∧ fieldShift bw j + bw ≤ 64) ∨
    (secondWord bw j = firstWord bw j + 1 ∧ 64 < fieldShift bw j + bw) := by
  unfold secondWord firstWord fieldShift; omega

theorem globalBit_place (bw j g : Nat) (ws : List Word) (v : Word) (h1 : 1 ≤ bw) (h2 : bw ≤ 32)
    (hl : secondWord bw j < ws.length) :
    globalBit (place bw ws j v) g =
      (globalBit ws g || (decide (j * bw ≤ g) && decide (g / 64 ≤ secondWord bw j) && v.getLsbD (g - j * bw))) := by
  have hs := secondWord_cases bw j h1 h2
  have hfs : fieldShift bw j = j * bw % 64 := rfl
  have hf : firstWord bw j = j * bw / 64 := rfl
  unfold place straddles
  rcases hs with ⟨he, hb⟩ | ⟨he, hb⟩
  · rw [if_neg (by simp [he]), globalBit_orInto _ _ _ _ (by omega)]
    congr 1
    rw [BitVec.getLsbD_shiftLeft]
    by_cases hg : j * bw ≤ g
    · by_cases hw : g / 64 ≤ secondWord bw j
      · have hq : g / 64 = firstWord bw j := by omega
        have : g % 64 - fieldShift bw j = g - j * bw := by omega
        have h3 : ¬ g % 64 < fieldShift bw j := by omega
        have h4 : g % 64 < 64 := by omega
        simp [hg, hq, this, h3, h4]
        intro _; omega
      · have hq : g / 64 ≠ firstWord bw j := by omega
        simp [hw, hq]
    · by_cases hq : g / 64 = firstWord bw j
      · have h3 : g % 64 < fieldShift bw j := by omega
        simp [hg, h3]
      · simp [hg, hq]
  · rw [if_pos (by simp [he]), globalBit_orInto _ _ _ _ (by simp; omega), globalBit_orInto _ _ _ _ (by omega),
      Bool.or_assoc]
    congr 1
    rw [BitVec.getLsbD_shiftLeft, BitVec.getLsbD_ushiftRight]
    by_cases hg : j * bw ≤ g
    · by_cases hq : g / 64 = firstWord bw j
      · have : g % 64 - fieldShift bw j = g - j * bw := by omega
        have h3 : ¬ g % 64 < fieldShift bw j := by omega
        have h4 : g % 64 < 64 := by omega
        have h5 : firstWord bw j ≠ secondWord bw j := by omega
        have h6 : firstWord bw j ≤ secondWord bw j := by omega
        simp [hg, hq, this, h3, h4, h5, h6]
      · by_cases hq2 : g / 64 = secondWord bw j
        · have : 64 - fieldShift bw j + g % 64 = g - j * bw := by omega
          have h5 : secondWord bw j ≠ firstWord bw j := by omega
          simp [hg, hq2, this, h5]
        · have h6 : ¬ g / 64 ≤ secondWord bw j := by omega
          simp [hq, hq2, h6]
    · have h5 : g / 64 ≠ secondWord bw j := by omega
      by_cases hq : g / 64 = firstWord bw j
      · have h3 : g % 64 < fieldShift bw j := by omega
        simp [hg, h3, h5]
      · simp [hg, hq, h5]

@[simp] theorem placeFrom_length (bw j : Nat) (vs ws : List Word) :
    (placeFrom bw j vs ws).length = ws.length := by
  induction vs generalizing j ws with
  | nil => rfl
  | cons v vs ih => simp [placeFrom, ih]

theorem globalBit_placeFrom (bw j g : Nat) (vs ws : List Word) (h1 : 1 ≤ bw) (h2 : bw ≤ 32)
    (hl : ∀ i, i < j + vs.length → secondWord bw i < ws.length) :
    globalBit (placeFrom bw j vs ws) g =
      (globalBit ws g || (List.range vs.length).any (fun i =>
        decide ((j + i) * bw ≤ g) && decide (g / 64 ≤ secondWord bw (j + i)) &&
          (vs.getD i 0#64).getLsbD (g - (j + i) * bw))) := by
  induction vs generalizing j ws with
  | nil => simp [placeFrom]
  | cons v vs ih =>
    have hl' : ∀ i, i < j + 1 + vs.length → secondWord bw i < (place bw ws j v).length := by
      intro i hi; rw [place_length]; exact hl i (by simp; omega)
    rw [placeFrom, ih (j + 1) _ hl', globalBit_place bw j g ws v h1 h2 (hl j (by simp)), Bool.or_assoc]
    congr 1
    rw [List.length_cons, List.range_succ_eq_map, List.any_cons, List.any_map]
    simp only [Nat.add_zero, List.getD_cons_zero]
    congr 1
    apply congrArg (fun f => List.any _ f)
    funext i
    have : j + 1 + i = j + (i + 1) := by omega
    simp [this]

theorem fwWords_pos_bound (bw j : Nat) (h1 : 1 ≤ bw) (hj : j < 32) :
    secondWord bw j < fwWords bw := by
  unfold secondWord fwWords
  have : (j + 1) * bw ≤ 32 * bw := Nat.mul_le_mul_right _ (by omega)
  have h : (j + 1) * bw = j * bw + bw := by ring
  omega

@[simp] theorem fwPack_length (m : Bool) (bw : Nat) (vals : List (BitVec 32)) :
    (fwPack m bw vals).length = fwWords bw := by simp [fwPack]

theorem globalBit_replicate_zero (n g : Nat) : globalBit (List.replicate n 0#64) g = false := by
  unfold globalBit
  rw [List.getD, List.getElem?_replicate]
  split <;> simp

/-- Every bit of a packed block. -/
theorem globalBit_fwPack (m : Bool) (bw g : Nat) (vals : List (BitVec 32)) (h1 : 1 ≤ bw)
    (h2 : bw ≤ 32) (hl : vals.length ≤ 32) :
    globalBit (fwPack m bw vals) g = packedBit bw (vals.map (fwOperand m bw)) g := by
  unfold fwPack packedBit
  rw [globalBit_placeFrom bw 0 g _ _ h1 h2, globalBit_replicate_zero]
  · simp
  · intro i hi
    simp at hi ⊢
    exact fwWords_pos_bound bw i h1 (by omega)

/-- Every bit of an extracted value. -/
theorem getLsbD_extract (bw j b : Nat) (ws : List Word) (h1 : 1 ≤ bw) (h2 : bw ≤ 32) :
    (extract bw ws j).getLsbD b = (decide (b < bw) && globalBit ws (j * bw + b)) := by
  have hs := secondWord_cases bw j h1 h2
  have hfs : fieldShift bw j = j * bw % 64 := rfl
  have hf : firstWord bw j = j * bw / 64 := rfl
  by_cases hb : b < bw
  · have h32 : b < 32 := by omega
    unfold extract straddles
    simp only [BitVec.getLsbD_setWidth, BitVec.getLsbD_and, getLsbD_lowMask bw b (by omega), h32, hb,
      decide_true, Bool.true_and, Bool.and_true]
    rcases hs with ⟨he, hc⟩ | ⟨he, hc⟩
    · rw [if_neg (by simp [he]), BitVec.getLsbD_ushiftRight]
      unfold globalBit
      have e1 : (j * bw + b) / 64 = firstWord bw j := by omega
      have e2 : (j * bw + b) % 64 = fieldShift bw j + b := by omega
      rw [e1, e2]
    · rw [if_pos (by simp [he]), BitVec.getLsbD_or, BitVec.getLsbD_ushiftRight, BitVec.getLsbD_shiftLeft]
      unfold globalBit
      by_cases hq : fieldShift bw j + b < 64
      · have e1 : (j * bw + b) / 64 = firstWord bw j := by omega
        have e2 : (j * bw + b) % 64 = fieldShift bw j + b := by omega
        have h3 : b < 64 - fieldShift bw j := by omega
        rw [e1, e2]; simp [h3]
      · have e1 : (j * bw + b) / 64 = secondWord bw j := by omega
        have e2 : (j * bw + b) % 64 = b - (64 - fieldShift bw j) := by omega
        have h3 : ¬ b < 64 - fieldShift bw j := by omega
        have h4 : b < 64 := by omega
        rw [e1, e2, BitVec.getLsbD_of_ge _ _ (by omega)]; simp [h3, h4]
  · unfold extract
    simp [getLsbD_lowMask bw b (by omega), hb]


/-- A field of a packed run whose values all fit their width holds its own value alone. -/
theorem packedBit_field (bw j b : Nat) (vs : List Word) (hb : b < bw) (h2 : bw ≤ 32)
    (hj : j < vs.length) (hv : ∀ v ∈ vs, ∀ k, bw ≤ k → v.getLsbD k = false) :
    packedBit bw vs (j * bw + b) = (vs.getD j 0#64).getLsbD b := by
  have hother : ∀ i, i < vs.length → i ≠ j →
      (decide (i * bw ≤ j * bw + b) && decide ((j * bw + b) / 64 ≤ secondWord bw i) &&
        (vs.getD i 0#64).getLsbD (j * bw + b - i * bw)) = false := by
    intro i hi hne
    rcases Nat.lt_or_gt_of_ne hne with h | h
    · have hm : (i + 1) * bw ≤ j * bw := Nat.mul_le_mul_right _ h
      rw [Nat.add_mul] at hm
      have hmem : vs.getD i 0#64 ∈ vs := by
        simp [List.getD, List.getElem?_eq_getElem hi]
      rw [hv _ hmem _ (by omega), Bool.and_false]
    · have hm : (j + 1) * bw ≤ i * bw := Nat.mul_le_mul_right _ h
      rw [Nat.add_mul] at hm
      rw [decide_eq_false (by omega)]
      simp
  have hown : (decide (j * bw ≤ j * bw + b) && decide ((j * bw + b) / 64 ≤ secondWord bw j) &&
        (vs.getD j 0#64).getLsbD (j * bw + b - j * bw)) = (vs.getD j 0#64).getLsbD b := by
    have : (j * bw + b) / 64 ≤ secondWord bw j := by unfold secondWord; omega
    simp [this]
  unfold packedBit
  rw [Bool.eq_iff_iff, List.any_eq_true]
  constructor
  · rintro ⟨i, hi, h⟩
    by_cases hij : i = j
    · subst hij; rwa [hown] at h
    · rw [hother i (by simpa using hi) hij] at h; simp at h
  · intro h
    exact ⟨j, by simpa using hj, by rw [hown]; exact h⟩

/-- In masked mode, or for a value in range, what is placed fits its width. -/
theorem fwOperand_high (m : Bool) (bw k : Nat) (x : BitVec 32) (h2 : bw ≤ 32) (hk : bw ≤ k)
    (h : m = true ∨ x.toNat < 2 ^ bw) : (fwOperand m bw x).getLsbD k = false := by
  unfold fwOperand
  have hx : x.toNat < 2 ^ bw → x.getLsbD k = false := fun hlt =>
    Nat.testBit_lt_two_pow (Nat.lt_of_lt_of_le hlt (Nat.pow_le_pow_right (by omega) hk))
  cases m
  · have := hx (by simpa using h)
    simp [this]
  · simp only [if_true, BitVec.getLsbD_and, getLsbD_lowMask bw k (by omega)]
    simp; omega

/-- Below its width, what is placed is the value. -/
theorem fwOperand_low (m : Bool) (bw b : Nat) (x : BitVec 32) (h2 : bw ≤ 32) (hb : b < bw) :
    (fwOperand m bw x).getLsbD b = x.getLsbD b := by
  unfold fwOperand
  cases m <;> simp [getLsbD_lowMask bw b (by omega), hb] <;> omega

end Sys2Proof.Machine
end

