-- ==== Sys2Proof/Laws/PerInstr.lean ====
section
/-! SUPPORT. The family FirstWord: the first word the encoder writes for an instruction carries its row's top
four bits, and for a command a zero RSV (spec/30_encoding.md R50, R66). -/

namespace Sys2Proof.Laws

open Sys2Proof Sys2Proof.Machine

/-- What FirstWord says of one instruction. -/
def FirstWord.Statement (i : Instr) : Prop :=
  WellFormed i = true →
    ∃ w rest, encode i = w :: rest ∧ fieldOp w = fieldOp (rowMatch i) ∧
      (i.format = .cmd → fieldRsv w = 0)

/-- The case of a command. -/
theorem firstWord_of_command (i : Instr) (op bw sel : Nat) (m : Bool) (d1 : Word)
    (he : encode i = [encodeD0 op bw m sel, d1]) (ho : op < 2 ^ 4) (hr : fieldOp (rowMatch i) = op)
    (hw : WellFormed i = true → bw < 2 ^ 6 ∧ sel < 2 ^ 4) : FirstWord.Statement i := fun h =>
  ⟨_, _, he, by rw [hr]; exact fieldOp_encodeD0 op bw sel m ho (hw h).1 (hw h).2,
    fun _ => fieldRsv_encodeD0 op bw sel m⟩

/-- The case of a Simple8b word. -/
theorem firstWord_of_word (i : Instr) (sel : Nat) (p : BitVec 60) (he : encode i = [wordOf sel p])
    (hs : sel < 2 ^ 4) (hr : fieldOp (rowMatch i) = sel) (hf : i.format = .s8w) :
    FirstWord.Statement i := fun _ =>
  ⟨_, _, he, by rw [hr]; exact selectorOf_wordOf sel p hs, fun h => by rw [hf] at h; cases h⟩

theorem FirstWord.fwEnc (bw : Nat) (m : Bool) (cap len : Nat) : FirstWord.Statement (.fwEnc bw m cap len) :=
  firstWord_of_command _ 1 bw 0 m _ rfl (by decide) (by simp only [rowMatch]; decide)
    (by simp [WellFormed, bwFits, countFits]; omega)

theorem FirstWord.fwDec (bw cap len : Nat) : FirstWord.Statement (.fwDec bw cap len) :=
  firstWord_of_command _ 2 bw 0 false _ rfl (by decide) (by simp only [rowMatch]; decide)
    (by simp [WellFormed, bwFits, countFits]; omega)

theorem FirstWord.catRd (sel cap : Nat) : FirstWord.Statement (.catRd sel cap) :=
  firstWord_of_command _ 3 0 sel false _ rfl (by decide) (by simp only [rowMatch]; decide)
    (by simp [WellFormed, selFits, countFits]; omega)

theorem FirstWord.s8Choose (len : Nat) : FirstWord.Statement (.s8Choose len) :=
  firstWord_of_command _ 4 0 0 false _ rfl (by decide) (by simp only [rowMatch]; decide)
    (by simp)

theorem FirstWord.s8Encsel (sel cap len : Nat) : FirstWord.Statement (.s8Encsel sel cap len) :=
  firstWord_of_command _ 5 0 sel false _ rfl (by decide) (by simp only [rowMatch]; decide)
    (by simp [WellFormed, selFits, countFits]; omega)

theorem FirstWord.s8Decsel (cap len : Nat) : FirstWord.Statement (.s8Decsel cap len) :=
  firstWord_of_command _ 6 0 0 false _ rfl (by decide) (by simp only [rowMatch]; decide)
    (by simp)

theorem FirstWord.s8Enc (cap len : Nat) : FirstWord.Statement (.s8Enc cap len) :=
  firstWord_of_command _ 7 0 0 false _ rfl (by decide) (by simp only [rowMatch]; decide)
    (by simp)

theorem FirstWord.s8Dec (cap len : Nat) : FirstWord.Statement (.s8Dec cap len) :=
  firstWord_of_command _ 8 0 0 false _ rfl (by decide) (by simp only [rowMatch]; decide)
    (by simp)

theorem FirstWord.s8wSel0 (p : BitVec 60) : FirstWord.Statement (.s8wSel0 p) :=
  firstWord_of_word _ 0 p rfl (by decide) (by simp only [rowMatch]; decide) rfl

theorem FirstWord.s8wSel1 (p : BitVec 60) : FirstWord.Statement (.s8wSel1 p) :=
  firstWord_of_word _ 1 p rfl (by decide) (by simp only [rowMatch]; decide) rfl

theorem FirstWord.s8wSel2 (p : BitVec 60) : FirstWord.Statement (.s8wSel2 p) :=
  firstWord_of_word _ 2 p rfl (by decide) (by simp only [rowMatch]; decide) rfl

theorem FirstWord.s8wSel3 (p : BitVec 60) : FirstWord.Statement (.s8wSel3 p) :=
  firstWord_of_word _ 3 p rfl (by decide) (by simp only [rowMatch]; decide) rfl

theorem FirstWord.s8wSel4 (p : BitVec 60) : FirstWord.Statement (.s8wSel4 p) :=
  firstWord_of_word _ 4 p rfl (by decide) (by simp only [rowMatch]; decide) rfl

theorem FirstWord.s8wSel5 (p : BitVec 60) : FirstWord.Statement (.s8wSel5 p) :=
  firstWord_of_word _ 5 p rfl (by decide) (by simp only [rowMatch]; decide) rfl

theorem FirstWord.s8wSel6 (p : BitVec 60) : FirstWord.Statement (.s8wSel6 p) :=
  firstWord_of_word _ 6 p rfl (by decide) (by simp only [rowMatch]; decide) rfl

theorem FirstWord.s8wSel7 (p : BitVec 60) : FirstWord.Statement (.s8wSel7 p) :=
  firstWord_of_word _ 7 p rfl (by decide) (by simp only [rowMatch]; decide) rfl

theorem FirstWord.s8wSel8 (p : BitVec 60) : FirstWord.Statement (.s8wSel8 p) :=
  firstWord_of_word _ 8 p rfl (by decide) (by simp only [rowMatch]; decide) rfl

theorem FirstWord.s8wSel9 (p : BitVec 60) : FirstWord.Statement (.s8wSel9 p) :=
  firstWord_of_word _ 9 p rfl (by decide) (by simp only [rowMatch]; decide) rfl

theorem FirstWord.s8wSel10 (p : BitVec 60) : FirstWord.Statement (.s8wSel10 p) :=
  firstWord_of_word _ 10 p rfl (by decide) (by simp only [rowMatch]; decide) rfl

theorem FirstWord.s8wSel11 (p : BitVec 60) : FirstWord.Statement (.s8wSel11 p) :=
  firstWord_of_word _ 11 p rfl (by decide) (by simp only [rowMatch]; decide) rfl

theorem FirstWord.s8wSel12 (p : BitVec 60) : FirstWord.Statement (.s8wSel12 p) :=
  firstWord_of_word _ 12 p rfl (by decide) (by simp only [rowMatch]; decide) rfl

theorem FirstWord.s8wSel13 (p : BitVec 60) : FirstWord.Statement (.s8wSel13 p) :=
  firstWord_of_word _ 13 p rfl (by decide) (by simp only [rowMatch]; decide) rfl

theorem FirstWord.s8wSel14 (p : BitVec 60) : FirstWord.Statement (.s8wSel14 p) :=
  firstWord_of_word _ 14 p rfl (by decide) (by simp only [rowMatch]; decide) rfl

theorem FirstWord.s8wSel15 (p : BitVec 60) : FirstWord.Statement (.s8wSel15 p) :=
  firstWord_of_word _ 15 p rfl (by decide) (by simp only [rowMatch]; decide) rfl

end Sys2Proof.Laws
end

