-- ==== Sys2Proof/Laws/Simple8b.lean ====
section
/-! SUPPORT. The catalog's facts, the selector choice, one word built and taken apart, and the S8.DEC loop;
exec_decodeWord says what running any of the sixteen Simple8b words is. -/

namespace Sys2Proof.Machine

/-! ## The catalog -/

/-- What the table says of every entry, checked once. -/
theorem catalog_facts (sel : Nat) (h : sel < 16) :
    (entryAt romCatalog sel).bits ≤ 60 ∧ 1 ≤ (entryAt romCatalog sel).count ∧
    (entryAt romCatalog sel).count ≤ 240 ∧
    (entryAt romCatalog sel).mask = lowMask (entryAt romCatalog sel).bits ∧
    (entryAt romCatalog sel).count * (entryAt romCatalog sel).bits ≤ 60 := by
  revert sel; decide

/-- The shift list of every entry that has fields. -/
theorem catalog_shifts (sel : Nat) (h : sel < 16) (hb : (entryAt romCatalog sel).bits ≠ 0) :
    (entryAt romCatalog sel).shifts = (List.range (entryAt romCatalog sel).count).map (fun i =>
      (entryAt romCatalog sel).bits * ((entryAt romCatalog sel).count - 1 - i)) := by
  revert sel; decide

/-- An entry without fields has no shifts. -/
theorem catalog_no_shifts (sel : Nat) (h : sel < 16) (hb : (entryAt romCatalog sel).bits = 0) :
    (entryAt romCatalog sel).shifts = [] := by
  revert sel; decide

theorem entry_of_intact (s : State) (sel : Nat) (h : CatalogIntact s) :
    s.entry sel = entryAt romCatalog sel := by rw [State.entry, h]

theorem selectorOf_lt (w : Word) : selectorOf w < 16 := (w.extractLsb' 60 4).isLt

/-- The fit test is a comparison with a power of two. -/
theorem fits_iff (e : CatEntry) (v : Word) (hb : e.bits ≤ 64) (hm : e.mask = lowMask e.bits) :
    fits e v = true ↔ v.toNat < 2 ^ e.bits := by
  unfold fits
  rw [hm, beq_iff_eq]
  constructor
  · intro h
    apply Nat.lt_pow_two_of_testBit
    intro i hi
    by_contra hc
    have hv : v.getLsbD i = true := by simpa [BitVec.getLsbD] using hc
    have hi64 : i < 64 := by
      by_contra hn; rw [BitVec.getLsbD_of_ge _ _ (by omega)] at hv; simp at hv
    have := congrArg (fun x : Word => x.getLsbD i) h
    simp only [BitVec.getLsbD_and, BitVec.getLsbD_not, getLsbD_lowMask e.bits i hb] at this
    simp [hv, hi64] at this
    omega
  · intro h
    apply BitVec.eq_of_getLsbD_eq
    intro i hi
    by_cases hc : i < e.bits
    · simp [hi, getLsbD_lowMask e.bits i hb, hc]
    · have : v.getLsbD i = false :=
        Nat.testBit_lt_two_pow (Nat.lt_of_lt_of_le h (Nat.pow_le_pow_right (by omega) (by omega)))
      simp [this]

/-! ## Choosing -/

theorem feasible_iff (e : CatEntry) (vals : List Word) :
    feasible e vals = true ↔ ∀ v ∈ vals.take (min e.count vals.length), fits e v = true := by
  simp [feasible, List.all_eq_true]

/-- What a successful scan answers: the first feasible entry and its count. -/
theorem chooseFrom_some (es : List CatEntry) (n : Nat) (vals : List Word) (sel c : Nat)
    (h : chooseFrom es n vals = some (sel, c)) :
    ∃ k e, es[k]? = some e ∧ sel = n + k ∧ feasible e vals = true ∧ c = min e.count vals.length ∧
      ∀ k', k' < k → ∀ e', es[k']? = some e' → feasible e' vals = false := by
  induction es generalizing n with
  | nil => simp [chooseFrom] at h
  | cons e es ih =>
    unfold chooseFrom at h
    split at h
    · rename_i hf
      simp at h
      exact ⟨0, e, rfl, by omega, hf, by omega, fun k' hk => absurd hk (by omega)⟩
    · rename_i hf
      obtain ⟨k, e', h1, h2, h3, h4, h5⟩ := ih _ h
      refine ⟨k + 1, e', by simpa using h1, by omega, h3, h4, ?_⟩
      intro k' hk e'' he
      cases k' with
      | zero => simp at he; subst he; simpa using hf
      | succ k' => exact h5 k' (by omega) e'' (by simpa using he)

/-- A scan that finds nothing has found every entry infeasible. -/
theorem chooseFrom_none (es : List CatEntry) (n : Nat) (vals : List Word)
    (h : chooseFrom es n vals = none) : ∀ e ∈ es, feasible e vals = false := by
  induction es generalizing n with
  | nil => simp
  | cons e es ih =>
    unfold chooseFrom at h
    split at h
    · simp at h
    · rename_i hf
      intro e' he
      rcases List.mem_cons.mp he with rfl | he
      · simpa using hf
      · exact ih _ h _ he

/-! ## Building and taking apart a word -/

/-- Every bit of a word with fields inserted. -/
theorem getLsbD_insertFields (mask acc : Word) (vs : List Word) (shs : List Nat) (g : Nat) :
    (insertFields mask vs shs acc).getLsbD g =
      (acc.getLsbD g || (List.zip vs shs).any (fun p => ((p.1 &&& mask) <<< p.2).getLsbD g)) := by
  induction vs generalizing shs acc with
  | nil => simp [insertFields]
  | cons v vs ih =>
    cases shs with
    | nil => simp [insertFields]
    | cons sh shs =>
      rw [insertFields, ih]
      simp [List.zip_cons_cons, Bool.or_assoc]

@[simp] theorem decodeFields_length (e : CatEntry) (w : Word) : (decodeFields e w).length = e.count := by
  simp [decodeFields]

@[simp] theorem wordValues_length (w : Word) : (wordValues w).length = wordCount w := by
  simp [wordValues, wordCount]

theorem decodeFields_getD (e : CatEntry) (w : Word) (i : Nat) (h : i < e.count) :
    (decodeFields e w).getD i 0#64 = fieldValue e w i := by
  simp [decodeFields, List.getD, h]

/-! ## The loops -/

/-- One pass of the S8.DEC loop with room for its word. -/
theorem emitWord_ok (cap : Nat) (w : Word) (s : State) (hc : CatalogIntact s)
    (h : s.emitted.length + wordCount w ≤ cap) :
    emitWord cap w s = .ok { s with emitted := s.emitted ++ wordValues w, cur := s.cur + 1 } := by
  unfold emitWord
  rw [entry_of_intact s _ hc, if_neg (by simp only [wordCount] at h; omega)]
  rfl

/-- One pass without room. -/
theorem emitWord_error (cap : Nat) (w : Word) (s : State) (hc : CatalogIntact s)
    (h : cap < s.emitted.length + wordCount w) : emitWord cap w s = .error .boundsError := by
  unfold emitWord
  rw [entry_of_intact s _ hc, if_pos (by simpa only [wordCount] using h)]

/-- The whole loop with room for all its words. -/
theorem emitWords_ok (cap : Nat) (ws : List Word) (s : State) (hc : CatalogIntact s)
    (h : s.emitted.length + totalCount ws ≤ cap) :
    emitWords cap ws s =
      .ok { s with emitted := s.emitted ++ ws.flatMap wordValues, cur := s.cur + ws.length } := by
  induction ws generalizing s with
  | nil => simp [emitWords]
  | cons w ws ih =>
    have hw : s.emitted.length + (wordCount w + totalCount ws) ≤ cap := by
      simpa [totalCount] using h
    rw [emitWords, emitWord_ok cap w s hc (by omega)]
    simp only
    rw [ih { s with emitted := s.emitted ++ wordValues w, cur := s.cur + 1 } hc (by simp; omega)]
    simp [Nat.add_assoc, Nat.add_comm 1]

/-- The whole loop without it. -/
theorem emitWords_error (cap : Nat) (ws : List Word) (s : State) (hc : CatalogIntact s)
    (h0 : s.emitted.length ≤ cap) (h : cap < s.emitted.length + totalCount ws) :
    emitWords cap ws s = .error .boundsError := by
  induction ws generalizing s with
  | nil => simp [totalCount] at h; omega
  | cons w ws ih =>
    have hw : cap < s.emitted.length + (wordCount w + totalCount ws) := by
      simpa [totalCount] using h
    rw [emitWords]
    by_cases hr : s.emitted.length + wordCount w ≤ cap
    · rw [emitWord_ok cap w s hc hr]
      simp only
      exact ih { s with emitted := s.emitted ++ wordValues w, cur := s.cur + 1 } hc (by simp; omega)
        (by simp; omega)
    · rw [emitWord_error cap w s hc (by omega)]

/-- Running any Simple8b word is one pass of the loop for it. -/
theorem exec_decodeWord (w : Word) (s : State) : exec (decodeWord w) s = .next (runWord w s) := by
  have hw : ∀ n, selectorOf w = n → wordOf n (payloadOf w) = w := by
    intro n hn
    subst hn
    apply BitVec.eq_of_getLsbD_eq
    intro i hi
    by_cases h : i < 60
    · simp [wordOf, payloadOf, h, hi]
    · have h1 : i - 60 < 4 := by omega
      have h2 : 60 + (i - 60) = i := by omega
      have h3 : (BitVec.ofNat 64 (selectorOf w)).getLsbD (i - 60) = w.getLsbD i := by
        rw [BitVec.getLsbD_ofNat, selectorOf]
        have : (w.extractLsb' 60 4).toNat.testBit (i - 60) = (w.extractLsb' 60 4).getLsbD (i - 60) := rfl
        rw [this, BitVec.getLsbD_extractLsb']
        simp [h1, h2]
        omega
      unfold wordOf
      rw [BitVec.getLsbD_or, BitVec.getLsbD_shiftLeft, h3]
      simp [h, hi, payloadOf]
  have hlt := selectorOf_lt w
  unfold decodeWord
  generalize selectorOf w = n at hlt hw
  have hn := hw n rfl
  interval_cases n <;> simp only [exec, execS8wSel0, execS8wSel1, execS8wSel2, execS8wSel3, execS8wSel4,
    execS8wSel5, execS8wSel6, execS8wSel7, execS8wSel8, execS8wSel9, execS8wSel10, execS8wSel11,
    execS8wSel12, execS8wSel13, execS8wSel14, execS8wSel15, hn]

end Sys2Proof.Machine
end

