-- ==== Sys2Proof/Laws/Step.lean ====
section
/-! SUPPORT. What one step can do, said once. -/

namespace Sys2Proof.Machine

/-! ## The host's side -/

/-- What the host's conduct leaves of the engine's own move. -/
theorem settle_cases (cap : Nat) (s : State) :
    s.settle cap = s ∨
      (s.run = .idle ∧ s.dutiesKept = false ∧ s.settle cap = s.breachOutputs cap) := by
  unfold State.settle
  split
  · rename_i h1 h2; exact .inr ⟨h1, h2, rfl⟩
  · exact .inl rfl

/-! ## The engine's own move -/

/-- The engine's own move: the command DESC holds, a reserved descriptor's fault, the word at the cursor,
or the end of the S8.DEC loop. -/
theorem engineMove_cases (s : State) :
    (s.stage = .command ∧ ∃ i, decodeCommand s.desc.d0 s.desc.d1 = .ok i ∧ engineMove s = exec i s) ∨
    (s.stage = .command ∧ (∃ e, decodeCommand s.desc.d0 s.desc.d1 = .error e) ∧
      engineMove s = .next (s.raise .invalidArgument 0)) ∨
    (s.stage = .words ∧ s.cur < s.descLen ∧ engineMove s = exec (decodeWord (s.readW s.cur)) s) ∨
    (s.stage = .words ∧ s.descLen ≤ s.cur ∧ engineMove s = .next (s.complete {} s.emitted)) := by
  unfold engineMove
  cases hs : s.stage with
  | command =>
    cases hd : decodeCommand s.desc.d0 s.desc.d1 with
    | ok i => exact .inl ⟨rfl, i, rfl, by simp only [commandMove, hd]⟩
    | error e => exact .inr (.inl ⟨rfl, ⟨e, rfl⟩, by simp only [commandMove, hd]⟩)
  | words =>
    by_cases h : s.cur < s.descLen
    · exact .inr (.inr (.inl ⟨rfl, h, by simp only [wordsMove, if_pos h]⟩))
    · exact .inr (.inr (.inr ⟨rfl, by omega, by simp only [wordsMove, if_neg h]⟩))

theorem engineMove_next (s : State) : ∃ t, engineMove s = .next t := by
  rcases engineMove_cases s with ⟨-, i, -, h⟩ | ⟨-, -, h⟩ | ⟨-, -, h⟩ | ⟨-, -, h⟩ <;> rw [h]
  · exact exec_next i s
  · exact ⟨_, rfl⟩
  · exact exec_next _ s
  · exact ⟨_, rfl⟩

/-! ## The step -/

/-- Everything one step can do. -/
theorem step_cases (s t : State) (h : step s = .next t) :
    (∃ rest, s.host = .reset :: rest ∧ t = State.assertReset { s with host := rest }) ∨
    (∃ c rest, s.host = .issue c :: rest ∧ s.run = .idle ∧ t = State.accept { s with host := rest } c) ∨
    (s.run = .idle ∧ (∀ rest, s.host ≠ .reset :: rest) ∧ t = s.tickHost) ∨
    (s.run = .busy ∧ (∀ rest, s.host ≠ .reset :: rest) ∧
      ∃ u, engineMove s.tickHost = .next u ∧ t = u.settle s.outLimit) := by
  unfold step advance at h
  split at h
  · rename_i hh
    exact .inl ⟨_, hh, by simpa using h.symm⟩
  · rename_i hh hr
    refine .inr (.inl ⟨_, _, hh, hr, ?_⟩)
    simp only [hostIssue, hr, Host.Outcome.next.injEq] at h
    exact h.symm
  · rename_i hrun hne _
    exact .inr (.inr (.inl ⟨hrun, fun rest he => hne rest he, by simpa using h.symm⟩))
  · rename_i hrun hne
    refine .inr (.inr (.inr ⟨hrun, fun rest he => hne rest he, ?_⟩))
    obtain ⟨u, hu⟩ := engineMove_next s.tickHost
    rw [hu] at h
    exact ⟨u, hu, by simpa [onNext] using h.symm⟩

end Sys2Proof.Machine
end

