-- ==== Sys2Proof/Tests/Slice0.lean ====
section
/-! SUPPORT. Tests. Expected results are taken from spec/: a row of 95_test_vectors.md is named by its id
(F6, K41, Z33 and so on), a rule's worked example by its rule. After the tests, the witnesses: for every
statement with hypotheses, states and operands that meet them. -/

namespace Sys2Proof.Tests

open Sys2Proof Sys2Proof.Machine

-- Checked one after another: side by side, the checks' threads outgrow the compile's memory limit.
set_option Elab.async false

/-! ## Helpers -/

/-- An IDLE engine with the two buffers. -/
def idleWith (input output : List Word) : State :=
  { State.reset with mem := { input := input, output := output } }

/-- A BUSY engine at the start of the command its descriptor names. -/
def busyWith (d0 d1 : Word) (input output : List Word) : State :=
  { idleWith input output with run := .busy, desc := { d0 := d0, d1 := d1 } }

/-- An engine in the S8.DEC loop with CAP `cap` over the words `ws`. -/
def inLoop (cap : Nat) (ws : List Word) : State :=
  { busyWith (encodeD0 8 0 false 0) (encodeD1 cap ws.length) ws [] with stage := .words }

/-- The response and the output buffer. -/
def result : Host.Outcome State Fault Refusal → Option (Word × List Word)
  | .next t => some (t.rsp, t.mem.output)
  | _ => none

/-- The response alone. -/
def response : Host.Outcome State Fault Refusal → Option Word
  | .next t => some t.rsp
  | _ => none

/-- The values produced so far and the cursor. -/
def produced : Host.Outcome State Fault Refusal → Option (List Word × Nat)
  | .next t => some (t.emitted, t.cur)
  | _ => none

/-- `n` elements with the value 7, none of which a test expects to be left over by chance. -/
def room (n : Nat) : List Word := List.replicate n 7#64

/-- One step of the command with its buffers, under the default parameters. -/
def runCommand (d0 d1 : Word) (input output : List Word) : Option (Word × List Word) :=
  result (step (busyWith d0 d1 input output))

/-- The same with `P_ZERO_WIDTH = accept`. -/
def runAccept (d0 d1 : Word) (input output : List Word) : Option (Word × List Word) :=
  result (step { busyWith d0 d1 input output with
    params := { zeroWidth := .accept, faultOutput := .untouched } })

/-- One word run in the S8.DEC loop. -/
def runLoopWord (cap : Nat) (w : Word) : Option (List Word × Nat) := produced (step (inLoop cap [w]))

/-! ## WellFormed refuses -/

/-- BW is 6 bits (R16). -/
theorem test_wf_bw :
    WellFormed (.fwEnc 64 true 2 32) = false := by decide

theorem test_wf_bw_dec :
    WellFormed (.fwDec 64 32 2) = false := by decide

/-- SEL is 4 bits (R16). -/
theorem test_wf_sel :
    WellFormed (.catRd 16 1) = false := by decide

theorem test_wf_sel_encsel :
    WellFormed (.s8Encsel 16 1 1) = false := by decide

/-- CAP is 32 bits (R16). -/
theorem test_wf_cap :
    WellFormed (.s8Enc 4294967296 0) = false := by decide

/-- LEN is 32 bits (R16). -/
theorem test_wf_len :
    WellFormed (.s8Dec 0 4294967296) = false := by decide

theorem test_wf_len_choose :
    WellFormed (.s8Choose 4294967296) = false := by decide

theorem test_wf_greatest :
    WellFormed (.fwEnc 63 true 4294967295 4294967295) = true := by decide

/-! ## Decoding: the descriptors of 95_test_vectors.md 2.1 and 2.11 -/

theorem test_decode_fwEnc :
    decodeCommand 0x10E0000000000000#64 0x0000000200000020#64 = .ok (.fwEnc 3 true 2 32) := by decide

theorem test_decode_fwEnc_unmasked :
    decodeCommand 0x10C0000000000000#64 0x0000000200000020#64 = .ok (.fwEnc 3 false 2 32) := by decide

theorem test_decode_fwDec :
    decodeCommand 0x27C0000000000000#64 0x0000002000000010#64 = .ok (.fwDec 31 32 16) := by decide

theorem test_decode_catRd :
    decodeCommand 0x3FF0000000000000#64 0x0000000100000007#64 = .ok (.catRd 8 1) := by decide

theorem test_decode_s8Choose :
    decodeCommand 0x4FFE000000000000#64 0x0000006300000003#64 = .ok (.s8Choose 3) := by decide

theorem test_decode_s8Encsel :
    decodeCommand 0x5018000000000000#64 0x0000000100000008#64 = .ok (.s8Encsel 12 1 8) := by decide

theorem test_decode_s8Decsel :
    decodeCommand 0x6000000000000000#64 0x000000F000000001#64 = .ok (.s8Decsel 240 1) := by decide

theorem test_decode_s8Enc :
    decodeCommand 0x7FFE000000000000#64 0x0000000300000008#64 = .ok (.s8Enc 3 8) := by decide

theorem test_decode_s8Dec :
    decodeCommand 0x8000000000000000#64 0x000002D000000003#64 = .ok (.s8Dec 720 3) := by decide

/-- Z11, Z2 and Z4. -/
theorem test_decode_reserved_op :
    decodeCommand 0xF0E0000000000000#64 0x0000000200000020#64 = .error .reservedOp := by decide

theorem test_decode_reserved_bit :
    decodeCommand 0x10E1000000000000#64 0x0000000200000020#64 = .error .reservedBits := by decide

theorem test_decode_rsv_before_op :
    decodeCommand 0x0000800000000000#64 0x0000000000000000#64 = .error .reservedBits := by decide

/-- R45: a descriptor is two words. -/
theorem test_decode_short :
    decode .cmd [0x10E0000000000000#64] = .error .tooShort ∧ decode .s8w [] = .error .tooShort := by decide

/-! ## Decoding: the words of 95_test_vectors.md 2.8, selector and payload -/

theorem test_decode_s8wSel0 :
    decodeWord 0x0FFFFFFFFFFFFFFF#64 = .s8wSel0 0xFFFFFFFFFFFFFFF#60 := by decide

theorem test_decode_s8wSel1 :
    decodeWord 0x1000000000000ABC#64 = .s8wSel1 0x000000000000ABC#60 := by decide

theorem test_decode_s8wSel2 :
    decodeWord 0x2AAAAAAAAAAAAAAA#64 = .s8wSel2 0xAAAAAAAAAAAAAAA#60 := by decide

theorem test_decode_s8wSel3 :
    decodeWord 0x36DB6DB6DB6DB6DB#64 = .s8wSel3 0x6DB6DB6DB6DB6DB#60 := by decide

theorem test_decode_s8wSel4 :
    decodeWord 0x4053977FFFFFFFFF#64 = .s8wSel4 0x053977FFFFFFFFF#60 := by decide

theorem test_decode_s8wSel5 :
    decodeWord 0x50123456789ABCDE#64 = .s8wSel5 0x0123456789ABCDE#60 := by decide

theorem test_decode_s8wSel6 :
    decodeWord 0x600443214C74254B#64 = .s8wSel6 0x00443214C74254B#60 := by decide

theorem test_decode_s8wSel7 :
    decodeWord 0x7FFFFFFFFFFFFFFF#64 = .s8wSel7 0xFFFFFFFFFFFFFFF#60 := by decide

theorem test_decode_s8wSel8 :
    decodeWord 0x8F00041030814307#64 = .s8wSel8 0xF00041030814307#60 := by decide

theorem test_decode_s8wSel9 :
    decodeWord 0x9F01020304050607#64 = .s8wSel9 0xF01020304050607#60 := by decide

theorem test_decode_s8wSel10 :
    decodeWord 0xA0040080300400A0#64 = .s8wSel10 0x0040080300400A0#60 := by decide

theorem test_decode_s8wSel11 :
    decodeWord 0xB001002003004005#64 = .s8wSel11 0x001002003004005#60 := by decide

theorem test_decode_s8wSel12 :
    decodeWord 0xC0002000400083E8#64 = .s8wSel12 0x0002000400083E8#60 := by decide

theorem test_decode_s8wSel13 :
    decodeWord 0xD000010000200003#64 = .s8wSel13 0x000010000200003#60 := by decide

theorem test_decode_s8wSel14 :
    decodeWord 0xEE00000004000000#64 = .s8wSel14 0xE00000004000000#60 := by decide

theorem test_decode_s8wSel15 :
    decodeWord 0xF000010000000000#64 = .s8wSel15 0x000010000000000#60 := by decide

/-- The table's numbering: the second word's bits count on from the first's. -/
theorem test_table_word_command :
    decodeTableWord 128 0x000000020000002010E0000000000000 = some (.fwEnc 3 true 2 32) := by decide

theorem test_table_word_s8w :
    decodeTableWord 64 0x50123456789ABCDE = some (.s8wSel5 0x0123456789ABCDE#60) := by decide

theorem test_table_word_rejected :
    decodeTableWord 128 0x000000020000002090E0000000000000 = none := by decide

/-! ## FW.ENC and FW.DEC -/

/-- F6, DOC0's example (R79). -/
theorem test_fwEnc_masked :
    runCommand 0x10E0000000000000#64 0x0000000200000020#64 (List.replicate 32 5) (room 2) =
      some (0x2#64, [0xDB6DB6DB6DB6DB6D#64, 0xB6DB6DB6#64]) := by decide +kernel

/-- G2 with M = 0: a straddling value's excess bits land over later fields (R74). -/
theorem test_fwEnc_unmasked_excess :
    runCommand 0x10C0000000000000#64 0x0000000200000020#64
      (List.replicate 21 0 ++ 0xFF :: List.replicate 10 0) (room 2) = some (0x2#64, [0x8000000000000000#64, 0x7F#64]) := by decide +kernel

/-- H2: bits 63:32 of the last word are ignored at an odd width (R61). -/
theorem test_fwDec_unused_bits :
    runCommand 0x20C0000000000000#64 0x0000002000000002#64
      [0xDB6DB6DB6DB6DB6D#64, 0xFFFFFFFFB6DB6DB6#64] (room 32) = some (0x20#64, List.replicate 32 5) := by decide +kernel

/-- H5: values that straddle words. -/
theorem test_fwDec_straddle :
    runCommand 0x2180000000000000#64 0x0000002000000003#64
      [0xFFFFFFFFFFFFFFFF#64, 0#64, 0xFFFFFFFFFFFFFFFF#64] (room 32) = some (0x20#64,
        List.replicate 10 63 ++ 15 :: List.replicate 10 0 ++ 60 :: List.replicate 10 63) := by decide +kernel

/-- Z12 and Z18. -/
theorem test_fw_bad_width :
    response (step (busyWith 0x1020000000000000#64 0x0000000200000020#64 [] [])) =
      some 0x4000000000000000#64 ∧
    response (step (busyWith 0x2840000000000000#64 0x0000002000000011#64 [] [])) =
      some 0x4000000000000000#64 := by decide

/-- Z61. -/
theorem test_fwEnc_zero_width :
    runAccept 0x1020000000000000#64 0x20#64 (List.replicate 32 5) [] = some (0#64, []) := by decide

/-- Z63. -/
theorem test_fwEnc_zero_width_length :
    runAccept 0x1020000000000000#64 0x1F#64 [] [] = some (0x8000000000000000#64, []) := by decide

/-- Z64. -/
theorem test_fwDec_zero_width :
    runAccept 0x2000000000000000#64 0x0000002000000000#64 [] (room 32) =
      some (0x20#64, List.replicate 32 0) := by decide

/-- Z65. -/
theorem test_fwDec_zero_width_room :
    runAccept 0x2000000000000000#64 0x0000001F00000000#64 [] (room 32) =
      some (0x8000000000000000#64, room 32) := by decide

/-! ## CAT.RD, S8.CHOOSE, S8.ENCSEL, S8.DECSEL -/

/-- Z33: BW, M and LEN are ignored; only out[0] is written. -/
theorem test_catRd :
    runCommand 0x3FF0000000000000#64 0x0000000100000007#64 [] (room 2) =
      some (0x2020380000000001#64, [0x7F#64, 7#64]) := by decide

/-- Z32. -/
theorem test_catRd_room :
    response (step (busyWith 0x3010000000000000#64 0#64 [] [])) = some 0x8000000000000000#64 := by decide

/-- K41, the example of R91. -/
theorem test_s8Choose :
    runCommand 0x4000000000000000#64 0x8#64 [1, 1, 1, 1000, 0x10000000000, 0, 0, 3] [] =
      some (0x3010780000000000#64, []) := by decide +kernel

/-- K42. -/
theorem test_s8Choose_too_large :
    runCommand 0x4000000000000000#64 0x1#64 [0x1000000000000000] [] =
      some (0x4000000000000000#64, []) := by decide +kernel

/-- S15, DOC0's literal (E6). -/
theorem test_s8Encsel :
    runCommand 0x5010000000000000#64 0x0000000100000008#64 [0, 1, 2, 3, 4, 5, 6, 7] (room 1) =
      some (0x0020380000000001#64, [0x8000041030814307#64]) := by decide +kernel

/-- S11: 9 is masked to 3 bits, the fields beyond stay zero. -/
theorem test_s8Encsel_masks :
    runCommand 0x5008000000000000#64 0x0000000100000002#64 [9, 1] (room 1) =
      some (0x0008180000000001#64, [0x4240000000000000#64]) := by decide +kernel

/-- T12 in the setting of Z46: wasted bits ignored, in[0] only. -/
theorem test_s8Decsel :
    runCommand 0x6000000000000000#64 0x0000000800000003#64 [0x8F00041030814307, 0, 0] (room 9) =
      some (0x2020380000000008#64, [0, 1, 2, 3, 4, 5, 6, 7, 7]) := by decide +kernel

/-- Z42: selector 0 claims 240. -/
theorem test_s8Decsel_room :
    response (step (busyWith 0x6000000000000000#64 0x000000EF00000001#64 [0] [])) =
      some 0x8000000000000000#64 := by decide

/-! ## S8.ENC and S8.DEC -/

/-- Z56, the example of R108. -/
theorem test_s8Enc :
    runCommand 0x7FFE000000000000#64 0x0000000300000008#64 [1, 1, 1, 1000, 0x10000000000, 0, 0, 3]
      (room 3) = some (0x3#64, [0xC0002000400083E8#64, 0xF000010000000000#64, 0x30C0000000000000#64]) := by decide +kernel

/-- Z51 and Z52: the room is tested per run, after the choice. -/
theorem test_s8Enc_fault_order :
    response (step (busyWith 0x7000000000000000#64 0x0000000000000002#64 [1, 0x1000000000000000] [])) =
      some 0x8000000000000000#64 ∧
    response (step (busyWith 0x7000000000000000#64 0x0000000100000002#64 [1, 0x1000000000000000] [])) =
      some 0x4000000000000000#64 := by decide +kernel

/-- Y11, the example of R113. -/
theorem test_s8Dec :
    runCommand 0x8000000000000000#64 0x0000002300000003#64
      [0xC0002000400083E8, 0xF000010000000000, 0x30C0000000000000] (room 35) =
      some (0x23#64, [1, 1, 1, 1000, 0x10000000000, 0, 0, 3] ++ List.replicate 27 0) := by decide +kernel

/-- Z58: word 2 claims 240 and one slot is used. -/
theorem test_s8Dec_room :
    response (step (busyWith 0x8000000000000000#64 0x000000F000000002#64 [0xFFFFFFFFFFFFFFFF, 0] [])) =
      some 0x8000000000000000#64 := by decide +kernel

/-! ## The Simple8b words, as passes of the S8.DEC loop (95_test_vectors.md 2.8) -/

/-- T2. -/
theorem test_s8wSel0 :
    runLoopWord 240 0x0FFFFFFFFFFFFFFF#64 = some (List.replicate 240 0, 1) := by decide +kernel

/-- T3. -/
theorem test_s8wSel1 :
    runLoopWord 120 0x1000000000000ABC#64 = some (List.replicate 120 0, 1) := by decide +kernel

/-- T4. -/
theorem test_s8wSel2 :
    runLoopWord 60 0x2AAAAAAAAAAAAAAA#64 = some ((List.replicate 30 [1, 0]).flatten, 1) := by decide +kernel

/-- T6. -/
theorem test_s8wSel3 :
    runLoopWord 30 0x36DB6DB6DB6DB6DB#64 = some ((List.replicate 10 [1, 2, 3]).flatten, 1) := by decide +kernel

/-- T7. -/
theorem test_s8wSel4 :
    runLoopWord 20 0x4053977FFFFFFFFF#64 = some ([0, 1, 2, 3, 4, 5, 6] ++ List.replicate 13 7, 1) := by decide +kernel

/-- T8. -/
theorem test_s8wSel5 :
    runLoopWord 15 0x50123456789ABCDE#64 = some ([0, 1, 2, 3, 4, 5, 6, 7, 8, 9, 10, 11, 12, 13, 14], 1) := by decide +kernel

/-- T9. -/
theorem test_s8wSel6 :
    runLoopWord 12 0x600443214C74254B#64 = some ([0, 1, 2, 3, 4, 5, 6, 7, 8, 9, 10, 11], 1) := by decide +kernel

/-- T10. -/
theorem test_s8wSel7 :
    runLoopWord 10 0x7FFFFFFFFFFFFFFF#64 = some (List.replicate 10 63, 1) := by decide +kernel

/-- T12. -/
theorem test_s8wSel8 :
    runLoopWord 8 0x8F00041030814307#64 = some ([0, 1, 2, 3, 4, 5, 6, 7], 1) := by decide +kernel

/-- T14. -/
theorem test_s8wSel9 :
    runLoopWord 7 0x9F01020304050607#64 = some ([1, 2, 3, 4, 5, 6, 7], 1) := by decide +kernel

/-- T15. -/
theorem test_s8wSel10 :
    runLoopWord 6 0xA0040080300400A0#64 = some ([1, 0, 0x200, 0x300, 0x100, 160], 1) := by decide +kernel

/-- T16. -/
theorem test_s8wSel11 :
    runLoopWord 5 0xB001002003004005#64 = some ([1, 2, 3, 4, 5], 1) := by decide +kernel

/-- T17. -/
theorem test_s8wSel12 :
    runLoopWord 4 0xC0002000400083E8#64 = some ([1, 1, 1, 0x3E8], 1) := by decide +kernel

/-- T18. -/
theorem test_s8wSel13 :
    runLoopWord 3 0xD000010000200003#64 = some ([1, 2, 3], 1) := by decide +kernel

/-- T20. -/
theorem test_s8wSel14 :
    runLoopWord 2 0xEE00000004000000#64 = some ([0x38000000, 0x4000000], 1) := by decide +kernel

/-- T21. -/
theorem test_s8wSel15 :
    runLoopWord 1 0xF000010000000000#64 = some ([0x10000000000], 1) := by decide +kernel

/-- Z57, one word. -/
theorem test_s8w_no_room :
    response (step (inLoop 239 [0])) = some 0x8000000000000000#64 := by decide +kernel

/-! ## The host -/

/-- CAT.RD sel=8 as the host issues it. -/
def catRdIssue : Issue :=
  { d0 := 0x3010000000000000#64
    d1 := 0x0000000100000000#64
    input := []
    output := [7#64]
    dutiesKept := true }

/-- FW.ENC bw=3 on [5]*32, as a line and as the command it assembles to. -/
def fwEncLine : AsmLine :=
  { name := .fwEnc
    bw := some 3
    m := some 1
    input := some (List.replicate 32 5)
    output := some (room 2) }

/-- The command of fwEncLine. -/
def fwEncIssue : Issue :=
  { d0 := 0x10E0000000000000#64
    d1 := 0x0000000200000020#64
    input := List.replicate 32 5
    output := room 2
    dutiesKept := true }

/-- CAT.RD sel=8 issued to the engine after reset (95_test_vectors.md 2.1, R13). -/
theorem test_issue_then_run :
    (match step { State.reset with host := [.issue catRdIssue] } with
      | .next t => result (step t)
      | _ => none) = some (0x2020380000000001#64, [0x7F#64]) := by decide

/-- R143. -/
theorem test_busy_takes_nothing :
    (match hostIssue catRdIssue (busyWith 0#64 0#64 [] []) with
      | .refused .engineBusy => true
      | _ => false) = true := by decide

/-- The first row of 95_test_vectors.md 2.1, as R63 writes it. -/
theorem test_assembler :
    assemble fwEncLine = .ok fwEncIssue := by decide +kernel

/-- R64: `m=` is mandatory. -/
theorem test_assembler_needs_m :
    assemble { fwEncLine with m := none } =
      .error .missingOperand := by decide

/-- Line 2 of P2 as text, with a comment. -/
theorem test_parse_command :
    parseLine "2: S8.DEC in=W, out=T, len=3 ; LEN".toList =
      .ok (.command { name := .s8Dec, input := some (.named ['W']), output := some (.named ['T']), len := some 3 }) := by
  decide +kernel

theorem test_parse_buffer :
    parseLine "buf A : V32 = [5]*3 + [0x10]".toList = .ok (.initialised ['A'] .v32 [5, 5, 5, 16]) := by
  decide +kernel

theorem test_parse_order : parseLine "FW.ENC m=1, bw=3, in=[5], out=[1]".toList = .error .badText := by
  decide +kernel

/-- P6, steps 3 and 4, run as text from the start. -/
theorem test_program :
    (match Bench.start.runText ["buf V : V64 = [1, 2, 3, 4, 5, 6, 7]".toList, "buf X : W[1]".toList,
        "buf Y : V64[7]".toList, "3: S8.ENCSEL sel=9, in=V, out=X".toList, "4: S8.DECSEL in=X, out=Y".toList] with
      | .ok b => (b.contents ['X'], b.contents ['Y'])
      | .error _ => (none, none)) =
      (some [0x9001020304050607#64], some [1, 2, 3, 4, 5, 6, 7]) := by decide +kernel

/-- T8 placed where the first step after reset fetches. -/
theorem test_withFetchWord :
    (match step (State.reset.withFetchWord 64 0x50123456789ABCDE) with
      | .next t => t.emitted
      | _ => []) = [0, 1, 2, 3, 4, 5, 6, 7, 8, 9, 10, 11, 12, 13, 14] := by decide +kernel
/-! ## Witnesses: states and operands that meet the hypotheses of the statements -/

theorem noReset_of_host_nil (s : State) (h : s.host = []) : ∀ rest, s.host ≠ .reset :: rest := by
  rw [h]; simp

theorem witness_ResetLeavesIdleEngineWithCatalog :
    State.reset.host = [] ∧ (idleWith [1] [2]).run = .idle ∧
    { idleWith [1] [2] with host := [.reset] }.host = .reset :: [] := ⟨rfl, rfl, rfl⟩

theorem witness_StepKeepsInvariant :
    (Invariant State.reset ∧ ∃ t, step State.reset = .next t) ∧
    (Invariant { State.reset with host := [.issue catRdIssue] } ∧
      ∃ t, step { State.reset with host := [.issue catRdIssue] } = .next t) ∧
    (Invariant (busyWith 0x3010000000000000#64 0x0000000100000000#64 [] [7#64]) ∧
      ∃ t, step (busyWith 0x3010000000000000#64 0x0000000100000000#64 [] [7#64]) = .next t) ∧
    (Invariant (inLoop 240 [0]) ∧ ∃ t, step (inLoop 240 [0]) = .next t) ∧
    Invariant { State.reset with rsp := 0x8000000000000000#64, rspValid := true } := by
  refine ⟨⟨?_, _, rfl⟩, ⟨?_, _, rfl⟩, ⟨?_, _, rfl⟩, ⟨?_, _, rfl⟩, ?_⟩ <;>
    (unfold Invariant CatalogIntact WorkingClean WordsBounded ResponseWindow ResponseWf RspWf; decide)

theorem witness_StepRunsDecodedCommand :
    ((busyWith 0x3010000000000000#64 0x0000000100000000#64 [] [7#64]).run = .busy ∧
      (busyWith 0x3010000000000000#64 0x0000000100000000#64 [] [7#64]).stage = .command ∧
      (∀ rest, (busyWith 0x3010000000000000#64 0x0000000100000000#64 [] [7#64]).host ≠ .reset :: rest) ∧
      (busyWith 0x3010000000000000#64 0x0000000100000000#64 [] [7#64]).dutiesKept = true ∧
      decodeCommand 0x3010000000000000#64 0x0000000100000000#64 = .ok (.catRd 8 1)) ∧
    (busyWith 0#64 0#64 [] []).run = .busy ∧ (busyWith 0#64 0#64 [] []).stage = .command ∧
      (∀ rest, (busyWith 0#64 0#64 [] []).host ≠ .reset :: rest) ∧
      decodeCommand 0#64 0#64 = .error .reservedOp :=
  ⟨⟨rfl, rfl, noReset_of_host_nil _ rfl, rfl, by decide⟩, rfl, rfl, noReset_of_host_nil _ rfl, by decide⟩

theorem witness_StepRunsWordAtCursor :
    ((inLoop 240 [0]).run = .busy ∧ (inLoop 240 [0]).stage = .words ∧
      (∀ rest, (inLoop 240 [0]).host ≠ .reset :: rest) ∧ (inLoop 240 [0]).cur < (inLoop 240 [0]).descLen ∧
      (inLoop 240 [0]).dutiesKept = true) ∧
    (inLoop 240 [0]).descLen ≤ { inLoop 240 [0] with cur := 1 }.cur :=
  ⟨⟨rfl, rfl, noReset_of_host_nil _ rfl, by decide, rfl⟩, by decide⟩

theorem witness_AcceptedCommandEnds :
    (inLoop 240 [0]).run = .busy ∧ HostInput.reset ∉ (inLoop 240 [0]).host := by decide

theorem witness_DecodeOfEncodeIsIdentity :
    ∀ i ∈ ([.fwEnc 63 true 4294967295 4294967295, .fwDec 63 4294967295 4294967295, .catRd 15 4294967295,
      .s8Choose 4294967295, .s8Encsel 15 4294967295 4294967295, .s8Decsel 4294967295 4294967295,
      .s8Enc 4294967295 4294967295, .s8Dec 4294967295 4294967295, .s8wSel15 0xFFFFFFFFFFFFFFF#60] : List Instr),
      WellFormed i = true := by decide

theorem witness_EncodeOfDecodeKeepsUsedBits :
    decodeCommand 0x4FFE000000000000#64 0x0000006300000003#64 = .ok (.s8Choose 3) := by decide

theorem witness_DescriptorsMatchTheirRow :
    decodeCommand 0x8FFE000000000000#64 0xFFFFFFFFFFFFFFFF#64 = .ok (.s8Dec 4294967295 4294967295) := by
  decide

theorem witness_IgnoredFieldsHaveNoEffect :
    decodeCommand 0x4000000000000000#64 0x0000000000000003#64 = .ok (.s8Choose 3) ∧
    0x4FFE000000000000#64 &&& (usedD0 (.s8Choose 3) ||| 0x0001FFFFFFFFFFFF#64) =
      0x4000000000000000#64 &&& (usedD0 (.s8Choose 3) ||| 0x0001FFFFFFFFFFFF#64) ∧
    0x0000006300000003#64 &&& usedD1 (.s8Choose 3) = 0x0000000000000003#64 &&& usedD1 (.s8Choose 3) := by
  decide

theorem witness_EveryWordIsDecodable :
    (Instr.s8wSel0 0#60).format = .s8w ∧
    0x0FFFFFFFFFFFFFFF#64 &&& rowMask (.s8wSel0 0#60) = rowMatch (.s8wSel0 0#60) ∧
    CatalogIntact (inLoop 240 [0]) ∧
    (inLoop 240 [0]).emitted.length + wordCount 0x0FFFFFFFFFFFFFFF#64 ≤ (inLoop 240 [0]).descCap :=
  ⟨rfl, by decide, rfl, by decide⟩

theorem witness_ReservedDescriptorsRaiseInvalidArgument :
    (∀ d0 : Word, (busyWith d0 0#64 [] []).run = .busy ∧ (busyWith d0 0#64 [] []).stage = .command ∧
      (∀ rest, (busyWith d0 0#64 [] []).host ≠ .reset :: rest) ∧
      (busyWith d0 0#64 [] []).dutiesKept = true ∧ (busyWith d0 0#64 [] []).desc.d0 = d0) ∧
    (fieldRsv 0x10E0000000000001#64 ≠ 0 ∧ fieldRsv 0x10E1000000000000#64 ≠ 0) ∧
    fieldOp 0x0000000000000000#64 = 0 ∧ 9 ≤ fieldOp 0x90E0000000000000#64 ∧
    9 ≤ fieldOp 0xF0E0000000000000#64 :=
  ⟨fun _ => ⟨rfl, rfl, noReset_of_host_nil _ rfl, rfl, rfl⟩, by decide⟩

theorem witness_AssemblerEmitsItsCommand :
    assemble fwEncLine = .ok fwEncIssue ∧ { fwEncLine with m := none }.name = .fwEnc ∧
      { fwEncLine with m := none }.m = none := by decide

/-- FW.ENC bw=3 and FW.DEC bw=3 on the words of H1, and those of H2. -/
def fives : State := idleWith (List.replicate 32 5) (room 2)

/-- The words of F6 as an input. -/
def fivesPacked : State := idleWith [0xDB6DB6DB6DB6DB6D#64, 0xB6DB6DB6#64] (room 32)

/-- The same with the unused bits set. -/
def fivesPackedHigh : State := idleWith [0xDB6DB6DB6DB6DB6D#64, 0xFFFFFFFFB6DB6DB6#64] (room 32)

theorem witness_FwEncPacksBlock :
    (1 ≤ 1 ∧ 1 ≤ 32 ∧ fwWords 1 ≤ 1) ∧ (1 ≤ 32 ∧ 32 ≤ 32 ∧ fwWords 32 ≤ 16) := by decide

theorem witness_FwEncMaskedMode :
    1 ≤ 3 ∧ 3 ≤ 32 ∧ fwWords 3 ≤ 2 ∧ ∀ j, j < 32 → (fives.readV32 j).toNat < 2 ^ 3 := by decide +kernel

theorem witness_FwEncNeverDisturbsEarlierValues :
    1 ≤ 3 ∧ 3 ≤ 32 ∧ fwWords 3 ≤ 2 ∧ 21 ≤ 32 ∧
    (∀ i, i < 21 → fives.readV32 i =
      (idleWith (List.replicate 21 5 ++ List.replicate 11 255) (room 2)).readV32 i) ∧
    fives.readV32 21 ≠ (idleWith (List.replicate 21 5 ++ List.replicate 11 255) (room 2)).readV32 21 := by
  decide +kernel

theorem witness_FwDecUnpacksBlock : (1 ≤ 1 ∧ 1 ≤ 32 ∧ 32 ≤ 32) ∧ (1 ≤ 32 ∧ 32 ≤ 32) := by decide

theorem witness_FwRoundTrip :
    1 ≤ 3 ∧ 3 ≤ 32 ∧ fwWords 3 ≤ 2 ∧
    fwPack true 3 (fives.inV32 32) = [0xDB6DB6DB6DB6DB6D#64, 0xB6DB6DB6#64] ∧
    fivesPacked.inW 2 = [0xDB6DB6DB6DB6DB6D#64, 0xB6DB6DB6#64] ∧
    ∀ j, j < 32 → (fives.readV32 j).toNat < 2 ^ 3 := by decide +kernel

theorem witness_FwUnusedBitsOfOddWidths :
    (3 % 2 = 1 ∧ 3 ≤ 32 ∧ fwWords 3 ≤ 2 ∧ ∀ j, j < 32 → (fives.readV32 j).toNat < 2 ^ 3) ∧
    (31 % 2 = 1 ∧ 31 ≤ 32 ∧ fwWords 31 ≤ 16) ∧
    (∀ q, q < fwWords 3 - 1 → fivesPacked.readW q = fivesPackedHigh.readW q) ∧
    (fivesPacked.readW (fwWords 3 - 1)).extractLsb' 0 32 =
      (fivesPackedHigh.readW (fwWords 3 - 1)).extractLsb' 0 32 ∧
    fivesPacked.readW 1 ≠ fivesPackedHigh.readW 1 := by decide +kernel

/-- G5: unmasked, one bit wide, value 31 out of range, so that unused bits are set (R61, R74). -/
theorem test_fwEnc_unused_bits_set :
    2 ^ 1 ≤ ((idleWith (List.replicate 31 0 ++ [0xFFFFFFFF]) (room 1)).readV32 31).toNat ∧
    result (exec (.fwEnc 1 false 1 32) (idleWith (List.replicate 31 0 ++ [0xFFFFFFFF]) (room 1))) =
      some (0x1#64, [0x7FFFFFFF80000000#64]) := by decide +kernel

theorem witness_FwWidthOutOfRangeRaisesInvalidArgument :
    32 < 33 ∧ 32 < 63 ∧ (0 = 0 ∧ State.reset.params.zeroWidth = .fault) := by decide

/-- An instance built with `P_ZERO_WIDTH = accept` and `P_FAULT_OUTPUT = untouched`. -/
def accepting : State := { State.reset with params := { zeroWidth := .accept, faultOutput := .untouched } }

theorem witness_FwZeroWidth :
    State.reset.params.zeroWidth = .fault ∧ accepting.params.zeroWidth = .accept ∧ (31 ≠ 0 ∧ 31 ≠ 32) ∧ (33 ≠ 0 ∧ 33 ≠ 32) ∧ 32 ≤ 32 ∧ 31 < 32 := by
  decide

theorem witness_FwLengthRules :
    (1 ≤ 1 ∧ 1 ≤ 32 ∧ 1 ≠ 0 ∧ 1 ≠ 32 ∧ 0 < fwWords 1) ∧ (1 ≤ 32 ∧ 32 ≤ 32 ∧ 32 ≠ 0 ∧ 15 < fwWords 32) ∧
    17 ≠ fwWords 32 ∧ 31 < 32 := by decide

theorem witness_FwFieldPositions :
    (1 ≤ 3 ∧ 3 ≤ 32 ∧ 21 < 32 ∧ straddles 3 21 = true) ∧ (1 ≤ 31 ∧ 30 < 32 ∧ straddles 31 30 = true) ∧
    straddles 32 31 = false := by decide

theorem witness_CatalogShapes : (0 < 16) ∧ (2 ≤ 2 ∧ 2 < 16) ∧ (2 ≤ 15 ∧ 15 < 16) := by decide

theorem witness_CatRdReadsEntry :
    CatalogIntact State.reset ∧ 1 ≤ 1 ∧ 63 < 64 ∧ 15 < 16 ∧ 4294967295 < 2 ^ 32 :=
  ⟨rfl, by decide⟩

theorem witness_FitTestComparesBitsRequired :
    15 < 16 ∧ 1 ≤ 1 ∧ 2 ^ 60 ≤ (0x1000000000000000#64).toNat := by decide

/-- The example of R91. -/
def exampleStream : State := idleWith [1, 1, 1, 1000, 0x10000000000, 0, 0, 3] (room 3)

/-- A value of `2^60` after a small one. -/
def tooLargeSecond : State := idleWith [1, 0x1000000000000000] (room 2)

theorem witness_ChooseReturnsFirstFeasible :
    CatalogIntact exampleStream ∧ 1 ≤ 8 ∧ (exampleStream.readV64 0).toNat < 2 ^ 60 ∧
    CatalogIntact (idleWith [0x0FFFFFFFFFFFFFFF] []) ∧ 1 ≤ 1 ∧
    ((idleWith [0x0FFFFFFFFFFFFFFF] []).readV64 0).toNat < 2 ^ 60 :=
  ⟨rfl, by decide, by decide, rfl, by decide, by decide⟩

theorem witness_ChooseIsGreedy :
    CatalogIntact exampleStream ∧
    (∃ t, exec (.s8Choose 8) exampleStream = .next t ∧ rspStatus t.rsp = 0) ∧
    (12 < 16 ∧ ∀ i, i < min (entryAt romCatalog 12).count 8 →
      (exampleStream.readV64 i).toNat < 2 ^ (entryAt romCatalog 12).bits) ∧
    ∃ s' : State, CatalogIntact s' ∧ ∀ i, i < min 240 8 → s'.readV64 i = exampleStream.readV64 i :=
  ⟨rfl, ⟨_, rfl, by decide +kernel⟩, by decide +kernel, { exampleStream with draws := 5 }, rfl,
    by decide +kernel⟩

/-- Leading zeros of an input. -/
theorem readV64_zeros (n : Nat) (rest : List Word) :
    ∀ i, i < n → (idleWith (List.replicate n 0#64 ++ rest) []).readV64 i = 0#64 := by
  intro i hi
  have hl : i < (List.replicate n 0#64 ++ rest).length := by simp; omega
  have hr : i < (List.replicate n 0#64).length := by simpa using hi
  rw [State.readV64, inCell_of_lt _ _ hl]
  show (List.replicate n 0#64 ++ rest)[i] = 0#64
  rw [List.getElem_append_left hr, List.getElem_replicate]

theorem witness_ChooseZeroRuns :
    (∀ i, i < 240 → (idleWith (List.replicate 240 0#64 ++ [1]) []).readV64 i = 0#64) ∧
    ((∀ i, i < 239 → (idleWith (List.replicate 239 0#64 ++ [1]) []).readV64 i = 0#64) ∧
      (idleWith (List.replicate 239 0#64 ++ [1]) []).readV64 239 ≠ 0#64) ∧
    ((∀ i, i < 120 → (idleWith (List.replicate 120 0#64 ++ [1]) []).readV64 i = 0#64) ∧
      (idleWith (List.replicate 120 0#64 ++ [1]) []).readV64 120 ≠ 0#64) ∧
    ((∀ i, i < 119 → (idleWith (List.replicate 119 0#64 ++ [1]) []).readV64 i = 0#64) ∧
      (idleWith (List.replicate 119 0#64 ++ [1]) []).readV64 119 ≠ 0#64 ∧
      (response (exec (.s8Choose 120) (idleWith (List.replicate 119 0#64 ++ [1]) []))).map rspStatus = some 0) ∧
    (∀ i, i < 239 → (idleWith (List.replicate 239 0#64 ++ []) []).readV64 i = 0#64) ∧
    ((response (exec (.s8Choose 5) (idleWith (List.replicate 5 0#64 ++ []) []))).map rspRsel = some 0 ∧
      (response (exec (.s8Choose 121) (idleWith (List.replicate 120 0#64 ++ [1]) []))).map rspRsel = some 1) :=
  ⟨readV64_zeros _ _, ⟨readV64_zeros _ _, by decide +kernel⟩, ⟨readV64_zeros _ _, by decide +kernel⟩,
    ⟨readV64_zeros _ _, by decide +kernel, by decide +kernel⟩, readV64_zeros _ _, by decide +kernel⟩

theorem witness_ChooseFaults :
    CatalogIntact tooLargeSecond ∧ CatalogIntact (idleWith [0x1000000000000000] []) ∧ 1 ≤ 1 ∧
    2 ^ 60 ≤ ((idleWith [0x1000000000000000] []).readV64 0).toNat := ⟨rfl, rfl, by decide, by decide⟩

theorem witness_EncselBuildsWord :
    CatalogIntact exampleStream ∧ 15 < 16 ∧ 1 ≤ 8 ∧ 1 ≤ 1 := ⟨rfl, by decide⟩

theorem witness_WordCommandsRaiseBoundsError :
    CatalogIntact (idleWith [0] []) ∧ 239 < wordCount ((idleWith [0] []).readW 0) := ⟨rfl, by decide⟩

theorem witness_IrregularSelectorWords :
    CatalogIntact (idleWith [0, 1, 2, 3, 4, 5, 6, 7] []) ∧
    (idleWith [0, 1, 2, 3, 4, 5, 6, 7] []).inV64 8 = [0, 1, 2, 3, 4, 5, 6, 7] ∧
    CatalogIntact (idleWith [0x8000041030814307#64] []) ∧
    (idleWith [0x8000041030814307#64] []).readW 0 = 0x8000041030814307#64 ∧
    CatalogIntact (idleWith [1, 2, 3, 4, 5, 6, 7] []) ∧
    (idleWith [1, 2, 3, 4, 5, 6, 7] []).inV64 7 = [1, 2, 3, 4, 5, 6, 7] ∧
    CatalogIntact (idleWith [0x9001020304050607#64] []) ∧
    (idleWith [0x9001020304050607#64] []).readW 0 = 0x9001020304050607#64 :=
  ⟨rfl, by decide, rfl, by decide, rfl, by decide, rfl, by decide⟩

theorem witness_DecselReturnsFields :
    CatalogIntact (idleWith [0] []) ∧ 1 ≤ 1 ∧ wordCount ((idleWith [0] []).readW 0) ≤ 240 ∧
    CatalogIntact (idleWith [0xFFFFFFFFFFFFFFFF#64] []) ∧
    wordCount ((idleWith [0xFFFFFFFFFFFFFFFF#64] []).readW 0) ≤ 1 :=
  ⟨rfl, by decide, by decide, rfl, by decide⟩

theorem witness_WastedBitsCarryNothing :
    AlikeButWasted 0x8F00041030814307#64 0x8000041030814307#64 ∧
    AlikeButWasted 0x0FFFFFFFFFFFFFFF#64 0#64 ∧
    CatalogIntact (idleWith [0x8F00041030814307#64] []) ∧ CatalogIntact (idleWith [0x8000041030814307#64] []) ∧
    (idleWith [0x8F00041030814307#64] []).readW 0 = 0x8F00041030814307#64 ∧
    (idleWith [0x8000041030814307#64] []).readW 0 = 0x8000041030814307#64 ∧
    wordCount 0x8F00041030814307#64 ≤ 8 ∧
    (∀ q, q < 1 → AlikeButWasted ((idleWith [0x8F00041030814307#64] []).readW q)
      ((idleWith [0x8000041030814307#64] []).readW q)) ∧
    CatalogIntact exampleStream ∧ ∀ i, i < 8 → (exampleStream.readV64 i).toNat < 2 ^ 60 := by
  refine ⟨by unfold AlikeButWasted; decide, by unfold AlikeButWasted; decide, rfl, rfl, by decide, by decide,
    by decide, ?_, rfl, by decide⟩
  unfold AlikeButWasted; decide

theorem witness_WordRoundTrip :
    (CatalogIntact exampleStream ∧ CatalogIntact (idleWith [0xC0002000400083E8#64] []) ∧ 12 < 16 ∧ 1 ≤ 4 ∧
      4 ≤ (entryAt romCatalog 12).count ∧ (entryAt romCatalog 12).count ≤ 4 ∧
      (∀ i, i < 4 → (exampleStream.readV64 i).toNat < 2 ^ (entryAt romCatalog 12).bits) ∧
      encSel (entryAt romCatalog 12) 12 (exampleStream.inV64 4) = 0xC0002000400083E8#64 ∧
      (idleWith [0xC0002000400083E8#64] []).readW 0 = 0xC0002000400083E8#64) ∧
    CatalogIntact (idleWith [0, 1, 2, 3, 4, 5, 6, 7] []) ∧
    (idleWith [0, 1, 2, 3, 4, 5, 6, 7] []).inV64 (wordCount 0x8F00041030814307#64) =
      wordValues 0x8F00041030814307#64 :=
  ⟨⟨rfl, rfl, by decide +kernel⟩, rfl, by decide +kernel⟩

theorem witness_EncEncodesStream :
    CatalogIntact exampleStream ∧ (∀ i, i < 8 → (exampleStream.readV64 i).toNat < 2 ^ 60) ∧
    (response (exec (.s8Enc 3 8) exampleStream) = some 3#64) ∧
    response (exec (.s8Enc 2 8) exampleStream) = some 0x8000000000000000#64 :=
  ⟨rfl, by decide, by decide +kernel, by decide +kernel⟩

theorem witness_EncFaultsInStreamOrder :
    (CatalogIntact tooLargeSecond ∧ 1 < 2 ∧ 2 ^ 60 ≤ (tooLargeSecond.readV64 1).toNat ∧
      ∀ i, i < 1 → (tooLargeSecond.readV64 i).toNat < 2 ^ 60) ∧
    CatalogIntact (idleWith [0x1000000000000000] []) ∧ 0 < 1 ∧
    2 ^ 60 ≤ ((idleWith [0x1000000000000000] []).readV64 0).toNat :=
  ⟨⟨rfl, by decide⟩, rfl, by decide⟩

theorem witness_EncPadsLastWordOnly :
    CatalogIntact exampleStream ∧ 1 ≤ 8 ∧ (∀ i, i < 8 → (exampleStream.readV64 i).toNat < 2 ^ 60) ∧
    CatalogIntact (idleWith (List.replicate 239 0#64 ++ []) []) ∧ 239 < 240 ∧ 1 ≤ 1 ∧
    ∀ i, i < 239 → (idleWith (List.replicate 239 0#64 ++ []) []).readV64 i = 0#64 :=
  ⟨rfl, by decide, by decide, rfl, by decide, by decide, readV64_zeros _ _⟩

/-- The words of exampleStream. -/
def exampleWords : State :=
  idleWith [0xC0002000400083E8#64, 0xF000010000000000#64, 0x30C0000000000000#64] (room 35)

theorem witness_DecDecodesWords :
    CatalogIntact exampleWords ∧ totalCount (exampleWords.inW 3) ≤ 35 ∧
    34 < totalCount (exampleWords.inW 3) := ⟨rfl, by decide +kernel⟩

theorem witness_StreamRoundTrip :
    CatalogIntact exampleStream ∧ (∀ i, i < 8 → (exampleStream.readV64 i).toNat < 2 ^ 60) ∧
    result (exec (.s8Enc 3 8) exampleStream) = some (3#64, exampleWords.inW 3) ∧
    CatalogIntact exampleWords ∧ totalCount (exampleWords.inW 3) ≤ 35 :=
  ⟨rfl, by decide, by decide +kernel, rfl, by decide +kernel⟩

theorem witness_DecWordsAreIndependent :
    CatalogIntact exampleWords ∧
    exampleWords.inW (1 + 2) = (idleWith [0xC0002000400083E8#64] []).inW 1 ++
      (idleWith [0xF000010000000000#64, 0x30C0000000000000#64] []).inW 2 ∧
    totalCount (exampleWords.inW (1 + 2)) ≤ 35 ∧ wordCount (exampleWords.readW 0) ≤ 4 :=
  ⟨rfl, by decide +kernel⟩

theorem witness_HostLoopEqualsEnc :
    CatalogIntact State.reset ∧ CatalogIntact exampleStream ∧
    (∀ v ∈ ([1, 1, 1, 1000, 0x10000000000, 0, 0, 3] : List Word), v.toNat < 2 ^ 60) ∧
    exampleStream.inV64 8 = [1, 1, 1, 1000, 0x10000000000, 0, 0, 3] :=
  ⟨rfl, rfl, by simp, by decide +kernel⟩

theorem witness_WordsRunAsDecLoopPasses :
    (Instr.s8wSel0 0#60).format = .s8w ∧ encode (.s8wSel0 0#60) = [0#64] ∧ CatalogIntact (inLoop 240 [0]) ∧
    (inLoop 240 [0]).emitted.length + wordCount 0#64 ≤ (inLoop 240 [0]).descCap ∧
    CatalogIntact (inLoop 239 [0]) ∧
    (inLoop 239 [0]).descCap < (inLoop 239 [0]).emitted.length + wordCount 0#64 :=
  ⟨rfl, by decide, rfl, by decide, rfl, by decide⟩

theorem witness_WordStepsRefineDec :
    (inLoop 240 [0]).host = [] ∧ (inLoop 240 [0]).dutiesKept = true := by decide

theorem witness_OutputAfterFault :
    (Instr.catRd 8 0).format = .cmd ∧ WellFormed (.catRd 8 0) = true ∧ CatalogIntact accepting ∧
    (∃ t, exec (.catRd 8 0) accepting = .next t ∧ rspStatus t.rsp ≠ 0 ∧
      t = accepting.raise .boundsError (outCap (.catRd 8 0) accepting)) ∧
    accepting.params.faultOutput = .untouched ∧
    (∃ t, exec (.fwEnc 0 true 2 32) fives = .next t ∧ rspStatus t.rsp ≠ 0 ∧
      t = fives.raise .invalidArgument (outCap (.fwEnc 0 true 2 32) fives)) ∧
    fives.params.faultOutput = .any ∧ 1 < outCap (.fwEnc 0 true 2 32) fives ∧ 1 < fives.mem.output.length :=
  ⟨rfl, by decide, rfl, ⟨_, rfl, by decide, rfl⟩, rfl, ⟨_, rfl, by decide, rfl⟩, rfl, by decide, by decide⟩

theorem witness_FaultPriority :
    fieldRsv 0x0000800000000000#64 ≠ 0 ∧ (fieldRsv 0#64 = 0 ∧ fieldOp 0#64 = 0) ∧
    (fieldRsv 0x90E0000000000000#64 = 0 ∧ 9 ≤ fieldOp 0x90E0000000000000#64) ∧
    (CatalogIntact (idleWith [0x1000000000000000] []) ∧
      2 ^ 60 ≤ ((idleWith [0x1000000000000000] []).readV64 0).toNat) ∧
    (CatalogIntact tooLargeSecond ∧ (tooLargeSecond.readV64 0).toNat < 2 ^ 60) ∧
    (1 ≤ 32 ∧ 32 ≤ 32 ∧ 31 ≠ 0 ∧ 31 ≠ 32) ∧ (1 ≤ 1 ∧ 1 ≤ 32 ∧ 33 ≠ 0 ∧ 33 ≠ 32) ∧ 17 ≠ fwWords 32 :=
  ⟨by decide, by decide, by decide, ⟨rfl, by decide⟩, ⟨rfl, by decide⟩, by decide⟩

theorem witness_CommandFrame :
    (Instr.s8Enc 3 8).format = .cmd ∧ (∃ t, exec (.s8Enc 3 8) exampleStream = .next t ∧ rspStatus t.rsp = 0) ∧
    ∃ t, exec (.s8Enc 2 8) exampleStream = .next t ∧ rspStatus t.rsp = 2 :=
  ⟨rfl, ⟨_, rfl, by decide +kernel⟩, _, rfl, by decide +kernel⟩

theorem witness_CommandOutputFrame :
    (Instr.catRd 8 2).format = .cmd ∧ WellFormed (.catRd 8 2) = true ∧
    (∃ t, exec (.catRd 8 2) (idleWith [] (room 4)) = .next t ∧ rspStatus t.rsp = 0 ∧ rspNout t.rsp = 1 ∧
      0 < (idleWith [] (room 4)).mem.output.length) ∧
    ∃ r : Results, r.rsel < 16 ∧ r.rcount < 256 ∧ r.rbits < 128 ∧ ([5#64] : List Word).length < 2 ^ 32 :=
  ⟨rfl, by decide, ⟨_, rfl, by decide +kernel, by decide +kernel, by decide⟩,
    { rsel := 15, rcount := 255, rbits := 127 }, by decide⟩

theorem witness_WordFrame :
    (Instr.s8wSel15 0#60).format = .s8w ∧ (∃ t, exec (.s8wSel15 0#60) (inLoop 1 [0]) = .next t) ∧
    ∃ t, exec (.s8wSel15 0#60) (inLoop 0 [0]) = .next t := ⟨rfl, ⟨_, rfl⟩, _, rfl⟩

theorem witness_CommandsDependOnTheirOperandsOnly :
    (Instr.s8Enc 3 8).format = .cmd ∧ WellFormed (.s8Enc 3 8) = true ∧
    exampleStream.cat = { exampleStream with rsp := 5#64 }.cat ∧
    exampleStream.params = { exampleStream with rsp := 5#64 }.params ∧
    (∀ k, k < inLen (.s8Enc 3 8) → exampleStream.inCell k = { exampleStream with rsp := 5#64 }.inCell k) ∧
    ∃ t t', exec (.s8Enc 3 8) exampleStream = .next t ∧
      exec (.s8Enc 3 8) { exampleStream with rsp := 5#64 } = .next t' ∧ rspStatus t.rsp = 0 :=
  ⟨rfl, by decide, rfl, rfl, by decide, _, _, rfl, rfl, by decide +kernel⟩

theorem witness_StepKeepsParamsAndInput :
    (∃ t, step (busyWith 0x3010000000000000#64 0x0000000100000000#64 [] [7#64]) = .next t) ∧
    ∃ t, step { State.reset with host := [.issue catRdIssue] } = .next t := ⟨⟨_, rfl⟩, _, rfl⟩

theorem witness_IdleEngineAcceptsDescriptor :
    { State.reset with host := [.issue catRdIssue] }.run = .idle ∧
    { State.reset with host := [.issue catRdIssue] }.host = .issue catRdIssue :: [] := ⟨rfl, rfl⟩

theorem witness_BusyEngineTakesNoDescriptor :
    { inLoop 240 [0] with host := [.issue catRdIssue] }.run = .busy ∧
    { inLoop 240 [0] with host := [.issue catRdIssue] }.host = .issue catRdIssue :: [] ∧
    ∃ t, step { inLoop 240 [0] with host := [.issue catRdIssue] } = .next t := ⟨rfl, rfl, _, rfl⟩

/-- A running S8.ENC that is about to be reset. -/
def aboutToReset : State := { busyWith 0x7000000000000000#64 0x0000000100000001#64 [1] (room 2) with
  host := [.reset] }

/-- A running S8.CHOOSE that is about to be reset, its ignored CAP not zero. -/
def chooseAboutToReset : State := { busyWith 0x4000000000000000#64 0x0000000200000001#64 [1] (room 2) with
  host := [.reset] }

/-- A latched descriptor that decodes to another command than S8.CHOOSE, or to none. -/
theorem not_choose (d0 d1 : Word) (h : fieldOp d0 ≠ 4) :
    ∀ len, decodeCommand d0 d1 ≠ .ok (.s8Choose len) := by
  intro len hd
  unfold decodeCommand at hd
  split at hd
  · cases hd
  · split at hd <;> simp_all

theorem witness_ResetAbandonsCommand :
    (aboutToReset.host = .reset :: [] ∧ aboutToReset.run = .busy ∧ 0 < aboutToReset.descCap ∧
      0 < aboutToReset.mem.output.length ∧ aboutToReset.descCap ≤ 1 ∧
      ∀ len, decodeCommand aboutToReset.desc.d0 aboutToReset.desc.d1 ≠ .ok (.s8Choose len)) ∧
    chooseAboutToReset.host = .reset :: [] ∧ chooseAboutToReset.run = .busy ∧
    decodeCommand chooseAboutToReset.desc.d0 chooseAboutToReset.desc.d1 = .ok (.s8Choose 1) ∧
    0 < chooseAboutToReset.descCap ∧ 0 < chooseAboutToReset.mem.output.length :=
  ⟨⟨rfl, rfl, by decide, by decide, by decide, not_choose _ _ (by decide)⟩, rfl, rfl, by decide⟩

/-- R139, R33, R53: an abandoned S8.CHOOSE has no output buffer, so its ignored CAP spoils nothing. -/
theorem test_reset_during_choose :
    (match step chooseAboutToReset with
      | .next t => some t.mem.output
      | _ => none) = some (room 2) := by decide

/-- R51, U11: a reserved descriptor writes no output element under `P_FAULT_OUTPUT = any`. -/
theorem test_reserved_writes_nothing :
    runCommand 0x90E0000000000000#64 0x0000000200000020#64 [] (room 2) =
      some (0x4000000000000000#64, room 2) := by decide

/-- A running S8.ENC whose host writes to a buffer of it. -/
def brokenDuties : State := { busyWith 0x7000000000000000#64 0x0000000100000001#64 [1] (room 2) with
  dutiesKept := false }

theorem witness_BrokenDutiesSpoilOutputs :
    brokenDuties.run = .busy ∧ brokenDuties.dutiesKept = false ∧
    (∀ rest, brokenDuties.host ≠ .reset :: rest) ∧ brokenDuties.stage = .command ∧
    (∃ t, step brokenDuties = .next t) ∧ 0 < brokenDuties.descCap ∧ 0 < brokenDuties.mem.output.length ∧
    (∀ len, decodeCommand brokenDuties.desc.d0 brokenDuties.desc.d1 ≠ .ok (.s8Choose len)) ∧
    ∃ t, step { chooseAboutToReset with host := [], dutiesKept := false } = .next t :=
  ⟨rfl, rfl, noReset_of_host_nil _ rfl, rfl, ⟨_, rfl⟩, by decide, by decide, not_choose _ _ (by decide),
    _, rfl⟩

theorem witness_EnginesAreIndependent :
    0 ≠ 1 ∧ 1 < 2 ∧ (System.reset 2).engines[0]? = some State.reset ∧
    (System.reset 2).engines[1]? = some { State.reset with unit := 1 } := by decide

end Sys2Proof.Tests
end

/-! ## The frame of a step: parameters, engine number, input buffer -/

namespace Sys2Proof.Machine

/-- The decoder of descriptors yields commands only, never a Simple8b word (R66). -/
theorem decodeCommand_format {d0 d1 : Word} {i : Instr} (h : decodeCommand d0 d1 = .ok i) :
    i.format = .cmd := by
  unfold decodeCommand at h
  split at h
  · cases h
  · split at h <;> cases h <;> rfl

/-- What the engine's own move leaves: its command has completed, it has raised a fault, or it is one
pass further in the S8.DEC loop (R113, R124). -/
theorem engineMove_outcome {s u : State} (h : engineMove s = .next u) :
    (∃ r vals, u = s.complete r vals) ∨ (∃ f cap, u = s.raise f cap) ∨
    (s.stage = .words ∧ ∃ w, w = s.readW s.cur ∧
      u = { s with emitted := s.emitted ++ decodeFields (s.entry (selectorOf w)) w,
                   cur := s.cur + 1 }) := by
  rcases engineMove_cases s with
    ⟨-, i, hdecode, hmove⟩ | ⟨-, -, hmove⟩ | ⟨hstage, -, hmove⟩ | ⟨-, -, hmove⟩ <;> rw [hmove] at h
  · exact (exec_command_shape i s u (decodeCommand_format hdecode) h).imp_right .inl
  · exact .inr (.inl ⟨_, _, (Host.Outcome.next.inj h).symm⟩)
  · rw [exec_decodeWord] at h
    obtain rfl := Host.Outcome.next.inj h
    rcases runWord_cases (s.readW s.cur) s with ⟨-, hpass⟩ | ⟨-, hraise⟩
    · exact .inr (.inr ⟨hstage, _, rfl, hpass⟩)
    · exact .inr (.inl ⟨_, _, hraise⟩)
  · exact .inl ⟨_, _, (Host.Outcome.next.inj h).symm⟩

/-- The engine's own move writes neither the parameters, nor its number, nor the input buffer. -/
theorem engineMove_keeps_params_unit_input {s u : State} (h : engineMove s = .next u) :
    u.params = s.params ∧ u.unit = s.unit ∧ u.mem.input = s.mem.input := by
  rcases engineMove_outcome h with ⟨r, vals, rfl⟩ | ⟨f, cap, rfl⟩ | ⟨-, w, -, rfl⟩
  · simp
  · simp
  · exact ⟨rfl, rfl, rfl⟩

/-- Settles O55, by the four things a step can do: only accepting a descriptor gives the engine
another input buffer, the one issued with it. -/
theorem stepKeepsParamsAndInput : Obligations.StepKeepsParamsAndInput := by
  intro s t h
  rcases step_cases s t h with
    ⟨rest, -, rfl⟩ | ⟨c, rest, hhost, hidle, rfl⟩ | ⟨-, -, rfl⟩ | ⟨-, -, u, hmove, rfl⟩
  · exact ⟨rfl, rfl, .inl rfl⟩
  · exact ⟨rfl, rfl, .inr ⟨c, rest, hidle, hhost, rfl⟩⟩
  · simp
  · obtain ⟨hparams, hunit, hinput⟩ := engineMove_keeps_params_unit_input hmove
    simp [hparams, hunit, hinput]

end Sys2Proof.Machine

/-! ## Single steps, reset and acceptance -/

namespace Sys2Proof.Machine

/-- Reset takes effect at once, whatever the engine does (R139). -/
theorem step_of_reset {s : State} {rest : List HostInput} (h : s.host = .reset :: rest) :
    step s = .next (State.assertReset { s with host := rest }) := by
  simp [step, advance, h]

/-- An IDLE engine takes the descriptor issued (R13). -/
theorem step_of_issue {s : State} {c : Issue} {rest : List HostInput} (hrun : s.run = .idle)
    (h : s.host = .issue c :: rest) : step s = .next (State.accept { s with host := rest } c) := by
  simp [step, advance, hostIssue, h, hrun]

/-- An IDLE engine with nothing issued stands still. -/
theorem step_of_idle {s : State} (hrun : s.run = .idle) (h : s.host = []) : step s = .next s := by
  simp [step, advance, State.tickHost, h, hrun]

theorem readRsp_of_not_valid {s : State} (h : s.rspValid = false) :
    s.readRsp = Config.freeRsp s.unit s.draws := by
  simp [State.readRsp, h]

/-- With no command in flight reset touches neither buffer (R25). -/
theorem assertReset_mem_of_idle {s : State} (h : s.run = .idle) : s.assertReset.mem = s.mem := by
  simp [State.assertReset, State.resetOutput, h]

/-- Settles O1, by the three kinds of step an IDLE engine can take. -/
theorem resetLeavesIdleEngineWithCatalog : Obligations.ResetLeavesIdleEngineWithCatalog := by
  refine ⟨⟨rfl, rfl, rfl, rfl, rfl, readRsp_of_not_valid rfl, step_of_idle rfl rfl⟩, fun s => ?_⟩
  exact ⟨rfl, rfl, rfl, rfl, rfl, ⟨_, readRsp_of_not_valid rfl⟩, ⟨_, rfl⟩, rfl,
    assertReset_mem_of_idle, fun _ => step_of_reset, step_of_idle (s := s.assertReset) rfl⟩

/-- Settles O56: the one step of an IDLE engine with a descriptor issued is `State.accept`. -/
theorem idleEngineAcceptsDescriptor : Obligations.IdleEngineAcceptsDescriptor := by
  intro s c rest hrun hhost
  exact ⟨_, step_of_issue hrun hhost, rfl, rfl, rfl, rfl, rfl, rfl, rfl, rfl, rfl⟩

end Sys2Proof.Machine

/-! ## How a command ends -/

namespace Sys2Proof.Machine

/-- Settles O51: a command completes or raises a fault, and both have this frame. -/
theorem commandFrame : Obligations.CommandFrame := by
  intro i s t hcmd h
  rcases exec_command_shape i s t hcmd h with ⟨r, vals, rfl⟩ | ⟨f, cap, rfl⟩
  · simpa using ⟨s.draws, rfl⟩
  · simpa using ⟨s.draws, rfl⟩

/-- Scalar results a catalog entry can give: a 4-bit selector, and its count and bits (R81). -/
def Results.Legal (r : Results) : Prop := r.rsel < 16 ∧ r.rcount ≤ 240 ∧ r.rbits ≤ 60

/-- A command with a buffer of `cap` elements has ended: it completed with legal results and no more
elements than that (R35), or it raised a fault. -/
inductive EndsWithin (cap : Nat) (s : State) : State → Prop where
  | complete (r : Results) (vals : List Word) (hr : r.Legal) (hv : vals.length ≤ cap) :
      EndsWithin cap s (s.complete r vals)
  | raise (f : FaultKind) (c : Nat) : EndsWithin cap s (s.raise f c)

/-- The results of a command that returns none. -/
theorem legal_default : ({} : Results).Legal := ⟨by decide, by decide, by decide⟩

/-- Results read from an entry of the intact catalog, with no more values counted than it has. -/
theorem legal_of_entry {s : State} {sel : Nat} (hcat : CatalogIntact s) (hsel : sel < 16) {rsel n : Nat}
    (hrsel : rsel < 16) (hn : n ≤ (s.entry sel).count) :
    (⟨rsel, n, (s.entry sel).bits⟩ : Results).Legal := by
  obtain ⟨hbits, -, hcount, -, -⟩ := catalog_facts sel hsel
  rw [entry_of_intact s sel hcat] at hn ⊢
  exact ⟨hrsel, hn.trans hcount, hbits⟩

/-- The choice over the intact catalog: a 4-bit selector, and at most its entry's count (R91). -/
theorem choose_bounds {s : State} {vals : List Word} {sel c : Nat} (hcat : CatalogIntact s)
    (h : choose s.cat vals = some (sel, c)) : sel < 16 ∧ c ≤ (s.entry sel).count := by
  obtain ⟨k, e, hk, rfl, -, rfl, -⟩ := chooseFrom_some _ _ _ _ _ h
  have hlt : k < s.cat.length := (List.getElem?_eq_some_iff.mp hk).1
  rw [hcat] at hlt
  refine ⟨by simpa [romCatalog] using hlt, ?_⟩
  simp [State.entry, entryAt, hk]

/-- R110: the room is tested before each word is written. -/
theorem encodeRuns_length {cat : List CatEntry} {room : Nat} {vals ws : List Word}
    (h : encodeRuns cat room vals = .ok ws) : ws.length ≤ room := by
  induction room generalizing vals ws with
  | zero =>
    cases vals with
    | nil => cases h; simp
    | cons v vs =>
      simp only [encodeRuns] at h
      split at h <;> cases h
  | succ room ih =>
    cases vals with
    | nil => cases h; simp
    | cons v vs =>
      simp only [encodeRuns] at h
      split at h
      · cases h
      · split at h
        · rename_i hrest
          cases h
          simpa using ih hrest
        · cases h

/-- R115: a word whose values do not fit is not produced. -/
theorem emitWord_length {cap : Nat} {w : Word} {s t : State} (h : emitWord cap w s = .ok t) :
    t.emitted.length ≤ cap := by
  unfold emitWord at h
  split at h
  · cases h
  · cases h
    simp; omega

theorem emitWords_length {cap : Nat} {ws : List Word} {s t : State} (hs : s.emitted.length ≤ cap)
    (h : emitWords cap ws s = .ok t) : t.emitted.length ≤ cap := by
  induction ws generalizing s with
  | nil => cases h; exact hs
  | cons w ws ih =>
    simp only [emitWords] at h
    split at h
    · rename_i hw
      exact ih (emitWord_length hw) h
    · cases h

/-- The end of the S8.DEC loop is the end of the command that began it. -/
theorem complete_of_emitWords {cap : Nat} {ws : List Word} {s t : State}
    (h : emitWords cap ws s.beginWords = .ok t) (r : Results) (vals : List Word) :
    t.complete r vals = s.complete r vals := by
  rw [emitWords_frame _ _ _ _ h]
  rfl

end Sys2Proof.Machine

/-! ## What a command that ends leaves: legal results within CAP -/

namespace Sys2Proof.Machine

/-- A branch of a command is taken with its condition at hand. -/
theorem EndsWithin.ite {cap : Nat} {s a b : State} {p : Prop} [Decidable p] (ha : p → EndsWithin cap s a)
    (hb : ¬p → EndsWithin cap s b) : EndsWithin cap s (if p then a else b) := by
  split
  · exact ha ‹p›
  · exact hb ‹¬p›

/-- A command without scalar results. -/
theorem EndsWithin.plain {cap : Nat} {s : State} {vals : List Word} (hv : vals.length ≤ cap) :
    EndsWithin cap s (s.complete {} vals) :=
  .complete {} vals legal_default hv

theorem execFwEnc_endsWithin (bw : Nat) (m : Bool) (cap len : Nat) (s : State) :
    ∃ t, execFwEnc bw m cap len s = .next t ∧ EndsWithin cap s t :=
  ⟨_, rfl,
    .ite (fun _ => .ite (fun _ => .plain (by simp)) fun _ => .raise _ _) fun _ =>
    .ite (fun _ => .raise _ _) fun _ =>
    .ite (fun _ => .plain (by simp)) fun _ =>
    .ite (fun _ => .raise _ _) fun _ =>
    .ite (fun _ => .raise _ _) fun hroom =>
    .plain (by rw [fwPack_length]; exact Nat.not_lt.mp hroom)⟩

theorem execFwDec_endsWithin (bw cap len : Nat) (s : State) :
    ∃ t, execFwDec bw cap len s = .next t ∧ EndsWithin cap s t :=
  ⟨_, rfl,
    .ite (fun _ => .ite (fun _ => .raise _ _) fun hroom =>
      .plain (by simpa [cellsOfV32] using Nat.not_lt.mp fun hsmall => hroom (.inr hsmall))) fun _ =>
    .ite (fun _ => .raise _ _) fun _ =>
    .ite (fun _ => .plain (by simp)) fun _ =>
    .ite (fun _ => .raise _ _) fun _ =>
    .ite (fun _ => .raise _ _) fun hroom =>
    .plain (by simpa [cellsOfV32, fwUnpack] using hroom)⟩

theorem execCatRd_endsWithin {sel : Nat} (cap : Nat) {s : State} (hcat : CatalogIntact s) (hsel : sel < 16) :
    ∃ t, execCatRd sel cap s = .next t ∧ EndsWithin cap s t :=
  ⟨_, rfl,
    .ite (fun _ => .raise _ _) fun hroom =>
    .complete _ _ (legal_of_entry hcat hsel hsel le_rfl) (Nat.not_lt.mp hroom)⟩

theorem execS8Choose_endsWithin (len : Nat) {s : State} (hcat : CatalogIntact s) :
    ∃ t, execS8Choose len s = .next t ∧ EndsWithin 0 s t := by
  refine ⟨_, rfl, .ite (fun _ => .raise _ _) fun _ => ?_⟩
  cases hch : choose s.cat (s.inV64 len) with
  | none => exact .raise _ _
  | some sc =>
    obtain ⟨hsel, hc⟩ := choose_bounds hcat hch
    exact .complete _ _ (legal_of_entry hcat hsel hsel hc) le_rfl

theorem execS8Encsel_endsWithin {sel : Nat} (cap len : Nat) {s : State} (hcat : CatalogIntact s)
    (hsel : sel < 16) : ∃ t, execS8Encsel sel cap len s = .next t ∧ EndsWithin cap s t :=
  ⟨_, rfl,
    .ite (fun _ => .raise _ _) fun _ =>
    .ite (fun _ => .raise _ _) fun hroom =>
    .complete _ _ (legal_of_entry hcat hsel (by decide) (min_le_left _ _)) (Nat.not_lt.mp hroom)⟩

theorem execS8Decsel_endsWithin (cap len : Nat) {s : State} (hcat : CatalogIntact s) :
    ∃ t, execS8Decsel cap len s = .next t ∧ EndsWithin cap s t :=
  have hsel := selectorOf_lt (s.readW 0)
  ⟨_, rfl,
    .ite (fun _ => .raise _ _) fun _ =>
    .ite (fun _ => .raise _ _) fun hroom =>
    .complete _ _ (legal_of_entry hcat hsel hsel le_rfl)
      (by rw [decodeFields_length]; exact Nat.not_lt.mp hroom)⟩

theorem execS8Enc_endsWithin (cap len : Nat) (s : State) :
    ∃ t, execS8Enc cap len s = .next t ∧ EndsWithin cap s t := by
  refine ⟨_, rfl, ?_⟩
  cases h : encodeRuns s.cat cap (s.inV64 len) with
  | ok ws => exact .plain (encodeRuns_length h)
  | error f => exact .raise _ _

theorem execS8Dec_endsWithin (cap len : Nat) (s : State) :
    ∃ t, execS8Dec cap len s = .next t ∧ EndsWithin cap s t := by
  refine ⟨_, rfl, ?_⟩
  cases h : emitWords cap (s.inW len) s.beginWords with
  | ok u =>
    simp only [complete_of_emitWords h]
    exact .plain (emitWords_length (by simp) h)
  | error f => exact .raise _ _

/-- Every command ends, with legal results and no more elements than its CAP, or with a fault. -/
theorem exec_endsWithin {i : Instr} {s : State} (hcmd : i.format = .cmd) (hwf : WellFormed i = true)
    (hcat : CatalogIntact s) : ∃ t, exec i s = .next t ∧ EndsWithin (outCap i s) s t := by
  cases i with
  | fwEnc bw m cap len => exact execFwEnc_endsWithin bw m cap len s
  | fwDec bw cap len => exact execFwDec_endsWithin bw cap len s
  | catRd sel cap =>
    simp only [WellFormed, selFits, Bool.and_eq_true, decide_eq_true_eq] at hwf
    exact execCatRd_endsWithin cap hcat hwf.1
  | s8Choose len => exact execS8Choose_endsWithin len hcat
  | s8Encsel sel cap len =>
    simp only [WellFormed, selFits, Bool.and_eq_true, decide_eq_true_eq] at hwf
    exact execS8Encsel_endsWithin cap len hcat hwf.1.1
  | s8Decsel cap len => exact execS8Decsel_endsWithin cap len hcat
  | s8Enc cap len => exact execS8Enc_endsWithin cap len s
  | s8Dec cap len => exact execS8Dec_endsWithin cap len s
  | _ => cases hcmd

theorem fieldCap_lt (d1 : Word) : fieldCap d1 < 2 ^ 32 := (d1.extractLsb' 32 32).isLt

/-- What a descriptor decodes to is well formed, and its CAP is the descriptor's, but none for S8.CHOOSE. -/
theorem decodeCommand_bounds {d0 d1 : Word} {i : Instr} (h : decodeCommand d0 d1 = .ok i) (s : State) :
    WellFormed i = true ∧ outCap i s ≤ fieldCap d1 := by
  have hbw : fieldBw d0 < 64 := (d0.extractLsb' 54 6).isLt
  have hsel : fieldSel d0 < 16 := (d0.extractLsb' 49 4).isLt
  have hcap : fieldCap d1 < 4294967296 := fieldCap_lt d1
  have hlen : fieldLen d1 < 4294967296 := (d1.extractLsb' 0 32).isLt
  unfold decodeCommand at h
  split at h
  · cases h
  · split at h <;> cases h <;> simp [WellFormed, bwFits, selFits, countFits, outCap, *]

end Sys2Proof.Machine

/-! ## Legal response words -/

namespace Sys2Proof.Machine

/-- A response within a capacity is within any larger one. -/
theorem RspWf.mono {r : Word} {cap cap' : Nat} (h : RspWf r cap) (hle : cap ≤ cap') : RspWf r cap' := by
  obtain ⟨hstatus, hzero, hrcount, hrbits, hnout, hfault⟩ := h
  exact ⟨hstatus, hzero, hrcount, hrbits, hnout.trans hle, hfault⟩

theorem rspStatus_okRsp {r : Results} {n : Nat} (hr : r.Legal) (hn : n < 2 ^ 32) :
    rspStatus (okRsp r n) = 0 := by
  obtain ⟨hrsel, hrcount, hrbits⟩ := hr
  exact rspStatus_rspWord _ _ _ _ _ (by decide) (by omega) (by omega) (by omega) hn

theorem okRsp_wf {r : Results} {n cap : Nat} (hr : r.Legal) (hn : n ≤ cap) (hcap : cap < 2 ^ 32) :
    RspWf (okRsp r n) cap := by
  have hstatus := rspStatus_okRsp hr (hn.trans_lt hcap)
  obtain ⟨-, hrcount, hrbits⟩ := hr
  refine ⟨by simp [hstatus], rspZero_rspWord _ _ _ _ _ (by omega), ?_, ?_, ?_, fun h => absurd hstatus h⟩
  · rw [okRsp, rspRcount_rspWord _ _ _ _ _ (by omega) (by omega) (by omega)]
    exact hrcount
  · rw [okRsp, rspRbits_rspWord _ _ _ _ _ (by omega) (by omega)]
    exact hrbits
  · rw [okRsp, rspNout_rspWord _ _ _ _ _ (by omega)]
    exact hn

theorem faultRsp_wf (f : FaultKind) (cap : Nat) : RspWf (faultRsp f) cap := by
  have hzero : rspNout (faultRsp f) = 0 := by cases f <;> decide
  refine ⟨?_, ?_, ?_, ?_, hzero ▸ Nat.zero_le cap, fun _ => ?_⟩ <;> cases f <;> decide

theorem EndsWithin.rspWf {cap : Nat} {s t : State} (h : EndsWithin cap s t) (hcap : cap < 2 ^ 32) :
    RspWf t.rsp cap := by
  cases h with
  | complete r vals hr hv => exact okRsp_wf hr hv hcap
  | raise f c => exact faultRsp_wf f cap

end Sys2Proof.Machine

/-! ## The invariant -/

namespace Sys2Proof.Machine

/-- Settles O2: after reset the engine is IDLE with no working variables and no readable response. -/
theorem resetSatisfiesInvariant : Obligations.ResetSatisfiesInvariant :=
  ⟨rfl, ⟨fun _ => rfl, fun _ => ⟨rfl, rfl⟩⟩, nofun, nofun, nofun⟩

theorem EndsWithin.mono {cap cap' : Nat} {s t : State} (h : EndsWithin cap s t) (hle : cap ≤ cap') :
    EndsWithin cap' s t := by
  cases h with
  | complete r vals hr hv => exact .complete r vals hr (hv.trans hle)
  | raise f c => exact .raise f c

/-- The engine between commands, whatever its response holds. -/
theorem invariant_of_idle {s : State} (hcat : CatalogIntact s) (hrun : s.run = .idle)
    (hstage : s.stage = .command) (hcur : s.cur = 0) (hemitted : s.emitted = []) (hrsp : ResponseWf s) :
    Invariant s :=
  ⟨hcat, ⟨fun _ => hstage, fun _ => ⟨hcur, hemitted⟩⟩, fun h => by simp [hstage] at h, fun _ => hrun, hrsp⟩

theorem assertReset_invariant (s : State) : Invariant s.assertReset :=
  invariant_of_idle rfl rfl rfl rfl rfl nofun

theorem accept_invariant {s : State} (hcat : CatalogIntact s) (c : Issue) : Invariant (s.accept c) :=
  ⟨hcat, ⟨nofun, fun _ => ⟨rfl, rfl⟩⟩, nofun, nofun, nofun⟩

/-- The invariant says nothing of the host's inputs. -/
theorem tickHost_invariant {s : State} (h : Invariant s) : Invariant s.tickHost := by
  unfold State.tickHost
  split <;> exact h

/-- A command's end leaves the engine between commands. -/
theorem EndsWithin.invariant {cap : Nat} {s t : State} (h : EndsWithin cap s t) (hcat : CatalogIntact s)
    (hcap : cap < 2 ^ 32) : Invariant t := by
  have hrsp : ResponseWf t := fun _ _ => (h.rspWf hcap).mono (Nat.le_pred_of_lt hcap)
  cases h with
  | complete r vals => exact invariant_of_idle hcat rfl rfl rfl rfl hrsp
  | raise f c => exact invariant_of_idle hcat rfl rfl rfl rfl hrsp

/-- The host's conduct spoils a response only where the invariant no longer speaks of it (U6). -/
theorem settle_invariant {s : State} (h : Invariant s) (cap : Nat) : Invariant (s.settle cap) := by
  rcases settle_cases cap s with heq | ⟨-, hbroken, heq⟩
  · rwa [heq]
  · obtain ⟨hcat, hclean, hbounds, hwindow, -⟩ := h
    rw [heq]
    exact ⟨hcat, hclean, hbounds, hwindow, fun _ hkept => by simp [hbroken] at hkept⟩

/-- One pass of the S8.DEC loop with room for its word, which leaves the engine BUSY (R113). -/
theorem wordPass_invariant {s : State} {vals : List Word} (h : Invariant s) (hstage : s.stage = .words)
    (hcur : s.cur < s.descLen) (hroom : s.emitted.length + vals.length ≤ s.descCap) :
    Invariant { s with emitted := s.emitted ++ vals, cur := s.cur + 1 } := by
  obtain ⟨hcat, ⟨hidle, -⟩, -, hwindow, hrsp⟩ := h
  refine ⟨hcat, ⟨hidle, fun hc => by simp [hstage] at hc⟩, fun _ => ⟨hcur, ?_⟩, hwindow, hrsp⟩
  rw [List.length_append]
  exact hroom

/-- The engine's own move ends the command within its CAP, or is a pass of the S8.DEC loop with room for
its word. -/
theorem engineMove_bounded {s u : State} (h : engineMove s = .next u) (hcat : CatalogIntact s)
    (hbounds : WordsBounded s) :
    EndsWithin s.descCap s u ∨ (s.stage = .words ∧ s.cur < s.descLen ∧ ∃ vals : List Word,
      s.emitted.length + vals.length ≤ s.descCap ∧
      u = { s with emitted := s.emitted ++ vals, cur := s.cur + 1 }) := by
  rcases engineMove_cases s with
    ⟨-, i, hdecode, hmove⟩ | ⟨-, -, hmove⟩ | ⟨hstage, hcur, hmove⟩ | ⟨hstage, -, hmove⟩ <;> rw [hmove] at h
  · obtain ⟨hwf, hcap⟩ := decodeCommand_bounds hdecode s
    obtain ⟨t, ht, hends⟩ := exec_endsWithin (decodeCommand_format hdecode) hwf hcat
    obtain rfl := Host.Outcome.next.inj (ht.symm.trans h)
    exact .inl (hends.mono hcap)
  · obtain rfl := Host.Outcome.next.inj h
    exact .inl (.raise _ _)
  · rw [exec_decodeWord] at h
    obtain rfl := Host.Outcome.next.inj h
    rcases runWord_cases (s.readW s.cur) s with ⟨hroom, hpass⟩ | ⟨-, hraise⟩
    · exact .inr ⟨hstage, hcur, _, by simpa using hroom, hpass⟩
    · exact .inl (hraise ▸ .raise _ _)
  · obtain rfl := Host.Outcome.next.inj h
    exact .inl (.plain (hbounds hstage).2)

/-- The move of a BUSY engine keeps the invariant, and a response it makes readable is legal for the CAP of
its command. -/
theorem engineMove_invariant {s u : State} (hs : Invariant s) (hbusy : s.run = .busy)
    (h : engineMove s = .next u) : Invariant u ∧ (u.rspValid = true → RspWf u.rsp s.descCap) := by
  have ⟨hcat, _, hbounds, hwindow, _⟩ := hs
  rcases engineMove_bounded h hcat hbounds with hends | ⟨hstage, hcur, vals, hroom, rfl⟩
  · exact ⟨hends.invariant hcat (fieldCap_lt _), fun _ => hends.rspWf (fieldCap_lt _)⟩
  · refine ⟨wordPass_invariant hs hstage hcur hroom, fun hvalid => ?_⟩
    exact absurd (hbusy.symm.trans (hwindow hvalid)) (by decide)

/-- Settles O3, by the four things a step can do; the engine's own move is the one that can end a command. -/
theorem stepKeepsInvariant : Obligations.StepKeepsInvariant := by
  intro s t hs hstep
  have hcat : CatalogIntact s := hs.1
  rcases step_cases s t hstep with
    ⟨rest, -, rfl⟩ | ⟨c, rest, -, -, rfl⟩ | ⟨hidle, -, rfl⟩ | ⟨hbusy, -, u, hmove, rfl⟩
  · exact ⟨assertReset_invariant _, nofun⟩
  · exact ⟨accept_invariant hcat c, nofun⟩
  · exact ⟨tickHost_invariant hs, fun hbusy => absurd (hidle.symm.trans hbusy) (by decide)⟩
  · obtain ⟨hu, hrsp⟩ := engineMove_invariant (tickHost_invariant hs) (by simpa using hbusy) hmove
    refine ⟨settle_invariant hu _, fun _ hvalid hkept => ?_⟩
    rw [State.settle_dutiesKept] at hkept
    rw [State.settle_rspValid] at hvalid
    rw [State.settle_of_kept _ _ hkept]
    simpa [State.descCap] using hrsp hvalid

end Sys2Proof.Machine

/-! ## The assembler -/

namespace Sys2Proof.Machine

/-- A number operand the assembler takes: the one given, or zero where the command takes none (R63). -/
theorem asmNumber_ok {takes : Bool} {limit n : Nat} {o : Option Nat} (hlimit : 0 < limit)
    (h : asmNumber takes limit o = .ok n) : n = o.getD 0 ∧ n < limit := by
  cases o with
  | none => cases takes <;> cases h; exact ⟨rfl, hlimit⟩
  | some k =>
    simp only [asmNumber] at h
    split at h
    · split at h <;> cases h
      exact ⟨rfl, ‹_›⟩
    · cases h

theorem asmBuffer_ok {takes : Bool} {o : Option (List Word)} {b : List Word}
    (h : asmBuffer takes o = .ok b) : b = o.getD [] := by
  cases o <;> cases takes <;> cases h <;> rfl

theorem asmCount_ok {override : Option Nat} {size n : Nat} (h : asmCount override size = .ok n) :
    n = override.getD size ∧ n < 2 ^ 32 := by
  unfold asmCount at h
  split at h <;> cases h
  exact ⟨rfl, ‹_›⟩

/-- What the assembler accepts: every operand is accepted, and the descriptor is the one of R46. -/
theorem assemble_ok {l : AsmLine} {c : Issue} (h : assemble l = .ok c) :
    ∃ bw m sel cap len, asmNumber (takesBw l.name) 64 l.bw = .ok bw ∧
      asmNumber (takesM l.name) 2 l.m = .ok m ∧ asmNumber (takesSel l.name) 16 l.sel = .ok sel ∧
      asmBuffer (takesIn l.name) l.input = .ok c.input ∧ asmBuffer (takesOut l.name) l.output = .ok c.output ∧
      asmCount l.cap c.output.length = .ok cap ∧ asmCount l.len c.input.length = .ok len ∧
      c.d0 = encodeD0 (commandOp l.name) bw (m == 1) sel ∧ c.d1 = encodeD1 cap len := by
  unfold assemble at h
  split at h
  case h_1 hbw hm hsel hin hout =>
    split at h
    case h_1 hcap hlen =>
      cases h
      exact ⟨_, _, _, _, _, hbw, hm, hsel, hin, hout, hcap, hlen, rfl, rfl⟩
    all_goals cases h
  all_goals cases h

theorem commandOp_bounds (n : CommandName) : 1 ≤ commandOp n ∧ commandOp n ≤ 8 := by
  cases n <;> decide

/-- A descriptor with RSV zero and an operation code of R50 decodes. -/
theorem decodeCommand_ok_of_op {d0 : Word} (d1 : Word) (hrsv : fieldRsv d0 = 0) (hlo : 1 ≤ fieldOp d0)
    (hhi : fieldOp d0 ≤ 8) : ∃ i, decodeCommand d0 d1 = .ok i := by
  unfold decodeCommand
  rw [if_neg (by simpa using hrsv)]
  generalize fieldOp d0 = op at *
  interval_cases op <;> exact ⟨_, rfl⟩

/-- FW.ENC without `m=` is rejected: `m=` is mandatory there (R17). -/
theorem assemble_fwEnc_without_m {l : AsmLine} (hname : l.name = .fwEnc) (hm : l.m = none) :
    ∃ e, assemble l = .error e := by
  cases h : assemble l with
  | error e => exact ⟨e, rfl⟩
  | ok c =>
    obtain ⟨bw, m, sel, cap, len, -, hmOk, -⟩ := assemble_ok h
    rw [hname, hm] at hmOk
    cases hmOk

/-- Settles O15: each operand that is accepted is in its field, and the operation code is one of R50's. -/
theorem assemblerEmitsItsCommand : Obligations.AssemblerEmitsItsCommand := by
  refine ⟨fun l c h => ?_, fun l => assemble_fwEnc_without_m⟩
  obtain ⟨bw, m, sel, cap, len, hbw, hm, hsel, hin, hout, hcap, hlen, hd0, hd1⟩ := assemble_ok h
  obtain ⟨hbw, hbwFits⟩ := asmNumber_ok (by decide) hbw
  obtain ⟨hm, -⟩ := asmNumber_ok (by decide) hm
  obtain ⟨hsel, hselFits⟩ := asmNumber_ok (by decide) hsel
  obtain ⟨hcap, hcapFits⟩ := asmCount_ok hcap
  obtain ⟨hlen, hlenFits⟩ := asmCount_ok hlen
  obtain ⟨hopLo, hopHi⟩ := commandOp_bounds l.name
  have hop : fieldOp c.d0 = commandOp l.name :=
    hd0 ▸ fieldOp_encodeD0 _ _ _ _ (by omega) hbwFits hselFits
  have hrsv : fieldRsv c.d0 = 0 := hd0 ▸ fieldRsv_encodeD0 _ _ _ _
  refine ⟨hop, hrsv, ?_, ?_, ?_, asmBuffer_ok hin, asmBuffer_ok hout, ?_, ?_,
    decodeCommand_ok_of_op _ hrsv (hop ▸ hopLo) (hop ▸ hopHi)⟩
  · rw [hd0, fieldBw_encodeD0 _ _ _ _ hbwFits hselFits, hbw]
  · rw [hd0, fieldSel_encodeD0 _ _ _ _ hselFits, hsel]
  · rw [hd0, fieldM_encodeD0 _ _ _ _ hselFits, hm]
  · rw [hd1, fieldLen_encodeD1 _ _ hlenFits, hlen]
  · rw [hd1, fieldCap_encodeD1 _ _ hcapFits hlenFits, hcap]

end Sys2Proof.Machine

/-! ## Commands depend on their operands only -/

namespace Sys2Proof.Machine

/-- Two commands, begun in two states, have ended alike: both completed with the same results and elements,
or both raised the same fault. -/
inductive EndAlike (s s' : State) : State → State → Prop where
  | complete (r : Results) (vals : List Word) : EndAlike s s' (s.complete r vals) (s'.complete r vals)
  | raise (f : FaultKind) (c : Nat) : EndAlike s s' (s.raise f c) (s'.raise f c)

/-- A branch that both commands take alike, with its condition at hand. -/
theorem EndAlike.ite {s s' a a' b b' : State} {p : Prop} [Decidable p] (ha : p → EndAlike s s' a a')
    (hb : ¬p → EndAlike s s' b b') : EndAlike s s' (if p then a else b) (if p then a' else b') := by
  split
  · exact ha ‹p›
  · exact hb ‹¬p›

theorem inV64_congr {s s' : State} {n : Nat} (h : ∀ k, k < n → s.inCell k = s'.inCell k) :
    s.inV64 n = s'.inV64 n :=
  List.map_congr_left fun k hk => h k (List.mem_range.mp hk)

theorem inW_congr {s s' : State} {n : Nat} (h : ∀ k, k < n → s.inCell k = s'.inCell k) :
    s.inW n = s'.inW n :=
  inV64_congr h

theorem inV32_congr {s s' : State} {n : Nat} (h : ∀ k, k < n → s.inCell k = s'.inCell k) :
    s.inV32 n = s'.inV32 n :=
  List.map_congr_left fun k hk => congrArg (BitVec.setWidth 32) (h k (List.mem_range.mp hk))

theorem entry_congr {s s' : State} (h : s.cat = s'.cat) (sel : Nat) : s.entry sel = s'.entry sel := by
  rw [State.entry, h, State.entry]

/-- Two passes of the S8.DEC loop over one catalog, from the same values produced so far. -/
inductive PassAlike : Except FaultKind State → Except FaultKind State → Prop where
  | ok {t t' : State} (hcat : t.cat = t'.cat) (hemitted : t.emitted = t'.emitted) : PassAlike (.ok t) (.ok t')
  | error (f : FaultKind) : PassAlike (.error f) (.error f)

theorem emitWord_alike (cap : Nat) (w : Word) {s s' : State} (hcat : s.cat = s'.cat)
    (hemitted : s.emitted = s'.emitted) : PassAlike (emitWord cap w s) (emitWord cap w s') := by
  unfold emitWord
  rw [entry_congr hcat, hemitted]
  split
  · exact .error _
  · exact .ok hcat rfl

theorem emitWords_alike (cap : Nat) (ws : List Word) {s s' : State} (hcat : s.cat = s'.cat)
    (hemitted : s.emitted = s'.emitted) : PassAlike (emitWords cap ws s) (emitWords cap ws s') := by
  induction ws generalizing s s' with
  | nil => exact .ok hcat hemitted
  | cons w ws ih =>
    have hpass := emitWord_alike cap w hcat hemitted
    simp only [emitWords]
    generalize emitWord cap w s = a, emitWord cap w s' = a' at hpass
    cases hpass with
    | ok hcat hemitted => exact ih hcat hemitted
    | error f => exact .error f

section
variable {s s' : State}

theorem execFwEnc_alike (bw : Nat) (m : Bool) (cap len : Nat) (hparams : s.params = s'.params)
    (hin : ∀ k, k < len → s.inCell k = s'.inCell k) :
    ∃ t t', execFwEnc bw m cap len s = .next t ∧ execFwEnc bw m cap len s' = .next t' ∧ EndAlike s s' t t' := by
  refine ⟨_, _, rfl, rfl, ?_⟩
  rw [hparams]
  exact
    .ite (fun _ => .ite (fun _ => .complete _ _) fun _ => .raise _ _) fun _ =>
    .ite (fun _ => .raise _ _) fun _ =>
    .ite (fun _ => .complete _ _) fun _ =>
    .ite (fun _ => .raise _ _) fun hlen =>
    .ite (fun _ => .raise _ _) fun _ =>
    inV32_congr (not_not.mp hlen ▸ hin) ▸ .complete _ _

theorem execFwDec_alike (bw cap len : Nat) (hparams : s.params = s'.params)
    (hin : ∀ k, k < len → s.inCell k = s'.inCell k) :
    ∃ t t', execFwDec bw cap len s = .next t ∧ execFwDec bw cap len s' = .next t' ∧ EndAlike s s' t t' := by
  refine ⟨_, _, rfl, rfl, ?_⟩
  rw [hparams]
  exact
    .ite (fun _ => .ite (fun _ => .raise _ _) fun _ => .complete _ _) fun _ =>
    .ite (fun _ => .raise _ _) fun _ =>
    .ite (fun _ => .complete _ _) fun _ =>
    .ite (fun _ => .raise _ _) fun hlen =>
    .ite (fun _ => .raise _ _) fun _ =>
    inW_congr (not_not.mp hlen ▸ hin) ▸ .complete _ _

theorem execCatRd_alike (sel cap : Nat) (hcat : s.cat = s'.cat) :
    ∃ t t', execCatRd sel cap s = .next t ∧ execCatRd sel cap s' = .next t' ∧ EndAlike s s' t t' := by
  refine ⟨_, _, rfl, rfl, ?_⟩
  rw [entry_congr hcat]
  exact .ite (fun _ => .raise _ _) fun _ => .complete _ _

theorem execS8Choose_alike (len : Nat) (hcat : s.cat = s'.cat)
    (hin : ∀ k, k < len → s.inCell k = s'.inCell k) :
    ∃ t t', execS8Choose len s = .next t ∧ execS8Choose len s' = .next t' ∧ EndAlike s s' t t' := by
  refine ⟨_, _, rfl, rfl, ?_⟩
  simp only [entry_congr hcat, hcat, inV64_congr hin]
  refine .ite (fun _ => .raise _ _) fun _ => ?_
  cases choose s'.cat (s'.inV64 len) with
  | none => exact .raise _ _
  | some sc => exact .complete _ _

theorem execS8Encsel_alike (sel cap len : Nat) (hcat : s.cat = s'.cat)
    (hin : ∀ k, k < len → s.inCell k = s'.inCell k) :
    ∃ t t', execS8Encsel sel cap len s = .next t ∧ execS8Encsel sel cap len s' = .next t' ∧
      EndAlike s s' t t' := by
  refine ⟨_, _, rfl, rfl, ?_⟩
  rw [entry_congr hcat, inV64_congr fun k hk => hin k (hk.trans_le (min_le_right _ _))]
  exact .ite (fun _ => .raise _ _) fun _ => .ite (fun _ => .raise _ _) fun _ => .complete _ _

theorem execS8Decsel_alike (cap len : Nat) (hcat : s.cat = s'.cat)
    (hin : ∀ k, k < len → s.inCell k = s'.inCell k) :
    ∃ t t', execS8Decsel cap len s = .next t ∧ execS8Decsel cap len s' = .next t' ∧ EndAlike s s' t t' := by
  refine ⟨_, _, rfl, rfl, .ite (fun _ => .raise _ _) fun hlen => ?_⟩
  have hword : s.readW 0 = s'.readW 0 := hin 0 (Nat.pos_of_ne_zero hlen)
  simp only [hword, entry_congr hcat]
  exact .ite (fun _ => .raise _ _) fun _ => .complete _ _

theorem execS8Enc_alike (cap len : Nat) (hcat : s.cat = s'.cat)
    (hin : ∀ k, k < len → s.inCell k = s'.inCell k) :
    ∃ t t', execS8Enc cap len s = .next t ∧ execS8Enc cap len s' = .next t' ∧ EndAlike s s' t t' := by
  refine ⟨_, _, rfl, rfl, ?_⟩
  rw [hcat, inV64_congr hin]
  cases encodeRuns s'.cat cap (s'.inV64 len) with
  | ok ws => exact .complete _ _
  | error f => exact .raise _ _

theorem execS8Dec_alike (cap len : Nat) (hcat : s.cat = s'.cat)
    (hin : ∀ k, k < len → s.inCell k = s'.inCell k) :
    ∃ t t', execS8Dec cap len s = .next t ∧ execS8Dec cap len s' = .next t' ∧ EndAlike s s' t t' := by
  refine ⟨_, _, rfl, rfl, ?_⟩
  rw [inW_congr hin]
  have hloop := emitWords_alike cap (s'.inW len) (s := s.beginWords) (s' := s'.beginWords) hcat rfl
  generalize h : emitWords cap (s'.inW len) s.beginWords = a,
    h' : emitWords cap (s'.inW len) s'.beginWords = a' at hloop
  cases hloop with
  | ok _ hemitted =>
    simp only [complete_of_emitWords h, complete_of_emitWords h', hemitted]
    exact .complete _ _
  | error f => exact .raise _ _

/-- A command with the same catalog, parameters and input elements ends alike. -/
theorem exec_alike {i : Instr} (hcmd : i.format = .cmd) (hcat : s.cat = s'.cat)
    (hparams : s.params = s'.params) (hin : ∀ k, k < inLen i → s.inCell k = s'.inCell k) :
    ∃ t t', exec i s = .next t ∧ exec i s' = .next t' ∧ EndAlike s s' t t' := by
  cases i with
  | fwEnc bw m cap len => exact execFwEnc_alike bw m cap len hparams hin
  | fwDec bw cap len => exact execFwDec_alike bw cap len hparams hin
  | catRd sel cap => exact execCatRd_alike sel cap hcat
  | s8Choose len => exact execS8Choose_alike len hcat hin
  | s8Encsel sel cap len => exact execS8Encsel_alike sel cap len hcat hin
  | s8Decsel cap len => exact execS8Decsel_alike cap len hcat hin
  | s8Enc cap len => exact execS8Enc_alike cap len hcat hin
  | s8Dec cap len => exact execS8Dec_alike cap len hcat hin
  | _ => cases hcmd

/-- NOUT never reads back as more elements than were written; it has 32 bits (R48). -/
theorem rspNout_okRsp_le (r : Results) (n : Nat) : rspNout (okRsp r n) ≤ n := by
  have hmod : rspNout (okRsp r n) = n % 2 ^ 32 := by
    apply extract_toNat_of_bits _ _ _ _ (Nat.mod_lt _ (by decide))
    intro i hi
    rw [okRsp, getLsbD_rspWord, Nat.testBit_mod_two_pow]
    simp [hi, show i < 64 by omega, show ¬ 62 ≤ i by omega, show ¬ 58 ≤ i by omega,
      show ¬ 50 ≤ i by omega, show ¬ 43 ≤ i by omega]
  exact hmod ▸ Nat.mod_le _ _

theorem EndAlike.rsp_eq {t t' : State} (h : EndAlike s s' t t') : t.rsp = t'.rsp := by
  cases h <;> rfl

/-- Where both commands completed, every element they wrote and both buffers hold is the same. -/
theorem EndAlike.output_eq {t t' : State} (h : EndAlike s s' t t') (hok : rspStatus t.rsp = 0) {k : Nat}
    (hk : k < rspNout t.rsp) (hs : k < s.mem.output.length) (hs' : k < s'.mem.output.length) :
    t.mem.output[k]? = t'.mem.output[k]? := by
  cases h with
  | complete r vals =>
    have hvals : k < vals.length := hk.trans_le (rspNout_okRsp_le r vals.length)
    rw [complete_output_getElem? s r vals k hs, complete_output_getElem? s' r vals k hs', if_pos hvals,
      if_pos hvals]
  | raise f c =>
    rw [State.raise_rsp, rspStatus_faultRsp] at hok
    cases f <;> cases hok

end

/-- Settles O54: the two commands end alike, and that fixes the response and the elements written. -/
theorem commandsDependOnTheirOperandsOnly : Obligations.CommandsDependOnTheirOperandsOnly := by
  intro i s s' t t' hcmd _ hcat hparams hin ht ht'
  obtain ⟨u, u', hu, hu', halike⟩ := exec_alike hcmd hcat hparams hin
  obtain rfl := Host.Outcome.next.inj (hu.symm.trans ht)
  obtain rfl := Host.Outcome.next.inj (hu'.symm.trans ht')
  exact ⟨halike.rsp_eq, fun hok k hk hs hs' => halike.output_eq hok hk hs hs'⟩

end Sys2Proof.Machine

/-! ## What a command writes in its output buffer -/

namespace Sys2Proof.Machine

/-- A command whose output buffer has `cap` elements has ended: it completed and wrote no more elements than
that, or it raised a fault over exactly that buffer (R35, R126). Unlike `EndsWithin` this holds for every
catalog, and it fixes the capacity of the fault. -/
inductive WritesWithin (cap : Nat) (s : State) : State → Prop where
  | complete (r : Results) (vals : List Word) (hv : vals.length ≤ cap) :
      WritesWithin cap s (s.complete r vals)
  | raise (f : FaultKind) : WritesWithin cap s (s.raise f cap)

/-- A branch of a command is taken with its condition at hand. -/
theorem WritesWithin.ite {cap : Nat} {s a b : State} {p : Prop} [Decidable p] (ha : p → WritesWithin cap s a)
    (hb : ¬p → WritesWithin cap s b) : WritesWithin cap s (if p then a else b) := by
  split
  · exact ha ‹p›
  · exact hb ‹¬p›

/-- A command that completes without elements. -/
theorem WritesWithin.empty {cap : Nat} {s : State} (r : Results) : WritesWithin cap s (s.complete r []) :=
  .complete r [] (Nat.zero_le cap)

theorem execFwEnc_writesWithin (bw : Nat) (m : Bool) (cap len : Nat) (s : State) :
    ∃ t, execFwEnc bw m cap len s = .next t ∧ WritesWithin cap s t :=
  ⟨_, rfl,
    .ite (fun _ => .ite (fun _ => .empty _) fun _ => .raise _) fun _ =>
    .ite (fun _ => .raise _) fun _ =>
    .ite (fun _ => .empty _) fun _ =>
    .ite (fun _ => .raise _) fun _ =>
    .ite (fun _ => .raise _) fun hroom =>
    .complete _ _ (by rw [fwPack_length]; exact Nat.not_lt.mp hroom)⟩

theorem execFwDec_writesWithin (bw cap len : Nat) (s : State) :
    ∃ t, execFwDec bw cap len s = .next t ∧ WritesWithin cap s t :=
  ⟨_, rfl,
    .ite (fun _ => .ite (fun _ => .raise _) fun hroom =>
      .complete _ _ (by simpa [cellsOfV32] using (not_or.mp hroom).2)) fun _ =>
    .ite (fun _ => .raise _) fun _ =>
    .ite (fun _ => .empty _) fun _ =>
    .ite (fun _ => .raise _) fun _ =>
    .ite (fun _ => .raise _) fun hroom =>
    .complete _ _ (by simpa [cellsOfV32, fwUnpack] using hroom)⟩

theorem execCatRd_writesWithin (sel cap : Nat) (s : State) :
    ∃ t, execCatRd sel cap s = .next t ∧ WritesWithin cap s t :=
  ⟨_, rfl, .ite (fun _ => .raise _) fun hroom => .complete _ _ (Nat.not_lt.mp hroom)⟩

/-- S8.CHOOSE has no output buffer (R33). -/
theorem execS8Choose_writesWithin (len : Nat) (s : State) :
    ∃ t, execS8Choose len s = .next t ∧ WritesWithin 0 s t := by
  refine ⟨_, rfl, .ite (fun _ => .raise _) fun _ => ?_⟩
  cases choose s.cat (s.inV64 len) with
  | none => exact .raise _
  | some sc => exact .empty _

theorem execS8Encsel_writesWithin (sel cap len : Nat) (s : State) :
    ∃ t, execS8Encsel sel cap len s = .next t ∧ WritesWithin cap s t :=
  ⟨_, rfl,
    .ite (fun _ => .raise _) fun _ =>
    .ite (fun _ => .raise _) fun hroom =>
    .complete _ _ (Nat.not_lt.mp hroom)⟩

theorem execS8Decsel_writesWithin (cap len : Nat) (s : State) :
    ∃ t, execS8Decsel cap len s = .next t ∧ WritesWithin cap s t :=
  ⟨_, rfl,
    .ite (fun _ => .raise _) fun _ =>
    .ite (fun _ => .raise _) fun hroom =>
    .complete _ _ (by rw [decodeFields_length]; exact Nat.not_lt.mp hroom)⟩

theorem execS8Enc_writesWithin (cap len : Nat) (s : State) :
    ∃ t, execS8Enc cap len s = .next t ∧ WritesWithin cap s t := by
  refine ⟨_, rfl, ?_⟩
  cases h : encodeRuns s.cat cap (s.inV64 len) with
  | ok ws => exact .complete _ _ (encodeRuns_length h)
  | error f => exact .raise _

theorem execS8Dec_writesWithin (cap len : Nat) (s : State) :
    ∃ t, execS8Dec cap len s = .next t ∧ WritesWithin cap s t := by
  refine ⟨_, rfl, ?_⟩
  cases h : emitWords cap (s.inW len) s.beginWords with
  | ok u =>
    simp only [complete_of_emitWords h]
    exact .complete _ _ (emitWords_length (by simp) h)
  | error f => exact .raise _

/-- Every command ends with no more elements than its CAP, or with a fault over its own buffer. -/
theorem exec_writesWithin {i : Instr} {s t : State} (hcmd : i.format = .cmd) (h : exec i s = .next t) :
    WritesWithin (outCap i s) s t := by
  suffices ∃ u, exec i s = .next u ∧ WritesWithin (outCap i s) s u by
    obtain ⟨u, hu, hwrites⟩ := this
    exact Host.Outcome.next.inj (hu.symm.trans h) ▸ hwrites
  cases i with
  | fwEnc bw m cap len => exact execFwEnc_writesWithin bw m cap len s
  | fwDec bw cap len => exact execFwDec_writesWithin bw cap len s
  | catRd sel cap => exact execCatRd_writesWithin sel cap s
  | s8Choose len => exact execS8Choose_writesWithin len s
  | s8Encsel sel cap len => exact execS8Encsel_writesWithin sel cap len s
  | s8Decsel cap len => exact execS8Decsel_writesWithin cap len s
  | s8Enc cap len => exact execS8Enc_writesWithin cap len s
  | s8Dec cap len => exact execS8Dec_writesWithin cap len s
  | _ => cases hcmd

/-- CAP has 32 bits (R16). -/
theorem outCap_lt {i : Instr} (hcmd : i.format = .cmd) (hwf : WellFormed i = true) (s : State) :
    outCap i s < 2 ^ 32 := by
  cases i <;> simp_all [WellFormed, countFits, outCap, Instr.format]

theorem rspNout_faultRsp (f : FaultKind) : rspNout (faultRsp f) = 0 :=
  rspNout_rspWord _ _ _ _ _ (by decide)

theorem rspStatus_faultRsp_ne_zero (f : FaultKind) : rspStatus (faultRsp f) ≠ 0 := by
  rw [rspStatus_faultRsp]
  cases f <;> decide

theorem complete_output_written (s : State) (r : Results) (vals : List Word) {k : Nat} (hk : k < vals.length)
    (hbuf : k < s.mem.output.length) : (s.complete r vals).mem.output[k]? = vals[k]? := by
  rw [complete_output_getElem? s r vals k hbuf, if_pos hk]

theorem complete_output_past (s : State) (r : Results) (vals : List Word) {k : Nat} (hk : vals.length ≤ k) :
    (s.complete r vals).mem.output[k]? = s.mem.output[k]? :=
  overlay_getElem?_past _ _ _ hk

section
variable {cap : Nat} {s t : State}

theorem WritesWithin.rspNout_le (h : WritesWithin cap s t) : rspNout t.rsp ≤ cap := by
  cases h with
  | complete r vals hv => exact (rspNout_okRsp_le r vals.length).trans hv
  | raise f => exact (rspNout_faultRsp f).trans_le (Nat.zero_le cap)

/-- No element at CAP or beyond is written, with a fault or without (R35, R126). -/
theorem WritesWithin.output_past (h : WritesWithin cap s t) {k : Nat} (hk : cap ≤ k) :
    t.mem.output[k]? = s.mem.output[k]? := by
  cases h with
  | complete r vals hv => exact complete_output_past s r vals (hv.trans hk)
  | raise f => exact faultOutput_getElem?_past s cap k hk

/-- A command with no output buffer leaves the host's list as it was. -/
theorem WritesWithin.output_eq_of_zero (h : WritesWithin 0 s t) : t.mem.output = s.mem.output :=
  List.ext_getElem? fun k => h.output_past (Nat.zero_le k)

/-- A response with STATUS zero is that of a command that completed, and counts its elements (R18). -/
theorem WritesWithin.completed (h : WritesWithin cap s t) (hcap : cap < 2 ^ 32) (hok : rspStatus t.rsp = 0) :
    ∃ r vals, t = s.complete r vals ∧ vals.length = rspNout t.rsp := by
  cases h with
  | complete r vals hv => exact ⟨r, vals, rfl, (rspNout_rspWord _ _ _ _ _ (hv.trans_lt hcap)).symm⟩
  | raise f => exact absurd hok (rspStatus_faultRsp_ne_zero f)

end

/-- Settles O52: a command writes within its CAP, and STATUS zero says that it completed with NOUT elements;
the second half reads back the fields of the response word (R48). -/
theorem commandOutputFrame : Obligations.CommandOutputFrame := by
  refine ⟨fun i s t hcmd hwf h => ?_, fun s r vals hrsel hrcount hrbits hnout => ?_⟩
  · have hwrites := exec_writesWithin hcmd h
    refine ⟨hwrites.rspNout_le, fun hok => ?_, fun k => hwrites.output_past⟩
    obtain ⟨r, vals, rfl, hlen⟩ := hwrites.completed (outCap_lt hcmd hwf s) hok
    rw [← hlen]
    exact ⟨⟨r, vals, rfl, rfl, fun k => complete_output_written s r vals⟩,
      fun k => complete_output_past s r vals⟩
  · exact ⟨rfl, rfl, rspStatus_rspWord _ _ _ _ _ (by decide) hrsel hrcount hrbits hnout,
      rspRsel_rspWord _ _ _ _ _ hrsel hrcount hrbits hnout, rspRcount_rspWord _ _ _ _ _ hrcount hrbits hnout,
      rspRbits_rspWord _ _ _ _ _ hrbits hnout, rspZero_rspWord _ _ _ _ _ hnout,
      rspNout_rspWord _ _ _ _ _ hnout, fun k => complete_output_written s r vals,
      fun k => complete_output_past s r vals⟩

end Sys2Proof.Machine

/-! ## Broken duties -/

namespace Sys2Proof.Machine

/-- A BUSY engine that no reset interrupts makes its own move, with the host's conduct during it taken into
account (U6). -/
theorem step_of_busy {s t : State} (hbusy : s.run = .busy) (hhost : ∀ rest, s.host ≠ .reset :: rest)
    (h : step s = .next t) : ∃ u, engineMove s.tickHost = .next u ∧ t = u.settle s.outLimit := by
  rcases step_cases s t h with
    ⟨rest, hreset, -⟩ | ⟨-, -, -, hidle, -⟩ | ⟨hidle, -, -⟩ | ⟨-, -, hmove⟩
  · exact absurd hreset (hhost rest)
  · cases hbusy.symm.trans hidle
  · cases hbusy.symm.trans hidle
  · exact hmove

/-- The move from the start of a command ends it, and leaves the host's duties and the length of its list. -/
theorem engineMove_ends_command {s u : State} (hstage : s.stage = .command) (h : engineMove s = .next u) :
    u.run = .idle ∧ u.dutiesKept = s.dutiesKept ∧ u.mem.output.length = s.mem.output.length := by
  rcases engineMove_outcome h with ⟨r, vals, rfl⟩ | ⟨f, cap, rfl⟩ | ⟨hwords, -⟩
  · simp
  · simp
  · cases hstage.symm.trans hwords

/-- At the start of a command the engine's move is the command DESC decodes to. -/
theorem engineMove_of_decode {s : State} {i : Instr} (hstage : s.stage = .command)
    (hdecode : decodeCommand s.desc.d0 s.desc.d1 = .ok i) : engineMove s = exec i s := by
  simp [engineMove, commandMove, hstage, hdecode]

/-- S8.CHOOSE writes nothing, whatever comes of it (R33). -/
theorem engineMove_choose_output {s u : State} {len : Nat} (hstage : s.stage = .command)
    (hchoose : decodeCommand s.desc.d0 s.desc.d1 = .ok (.s8Choose len)) (h : engineMove s = .next u) :
    u.mem.output = s.mem.output := by
  rw [engineMove_of_decode hstage hchoose] at h
  exact (exec_writesWithin rfl h).output_eq_of_zero

/-- A command that has ended is spoilt by broken duties. -/
theorem State.settle_of_broken (cap : Nat) {s : State} (hidle : s.run = .idle)
    (hbroken : s.dutiesKept = false) : s.settle cap = s.breachOutputs cap := by
  simp [State.settle, hidle, hbroken]

@[simp] theorem scrambled_zero (unit n : Nat) (old : List Word) : scrambled unit n 0 old = old := by
  simp [scrambled]

/-- Settles O59: the engine's move ends the command, and what the move leaves is then spoilt over the
command's output buffer, which S8.CHOOSE does not have. -/
theorem brokenDutiesSpoilOutputs : Obligations.BrokenDutiesSpoilOutputs := by
  intro s t hbusy hbroken hhost hstage h
  obtain ⟨u, hmove, rfl⟩ := step_of_busy hbusy hhost h
  have hstage' : s.tickHost.stage = .command := s.tickHost_stage.trans hstage
  obtain ⟨hidle, hduties, hlength⟩ := engineMove_ends_command hstage' hmove
  obtain ⟨-, hunit, hinput⟩ := engineMove_keeps_params_unit_input hmove
  simp only [State.tickHost_dutiesKept, State.tickHost_unit, State.tickHost_mem]
    at hduties hlength hunit hinput
  rw [State.settle_of_broken _ hidle (hduties.trans hbroken)]
  refine ⟨hidle, ⟨u.draws, hunit ▸ rfl⟩, hinput, fun hnot k hk hbuf => ⟨u.draws, ?_⟩, fun len hchoose => ?_⟩
  · rw [State.outLimit_of_not_choose s hnot, State.breachOutputs_mem_output, hunit]
    exact scrambled_getElem?_free _ _ _ _ _ hk (hlength ▸ hbuf)
  · rw [State.outLimit_of_choose s len hchoose, State.breachOutputs_mem_output, scrambled_zero]
    simpa using engineMove_choose_output hstage' (by simpa using hchoose) hmove

end Sys2Proof.Machine

/-! ## Engines side by side -/

namespace Sys2Proof.Machine

/-- Every state has a next one: a step neither stops the machine nor is refused. -/
theorem step_next (s : State) : ∃ t, step s = .next t := by
  unfold step advance
  split
  · exact ⟨_, rfl⟩
  · simp [hostIssue, *]
  · exact ⟨_, rfl⟩
  · obtain ⟨u, hu⟩ := engineMove_next s.tickHost
    exact ⟨_, congrArg (onNext _) hu⟩

/-- The state an engine steps to; it always has one (`step_eq_stepped`). -/
def stepped (s : State) : State :=
  match step s with
  | .next t => t
  | _ => s

theorem step_eq_stepped (s : State) : step s = .next (stepped s) := by
  obtain ⟨t, ht⟩ := step_next s
  simp [stepped, ht]

/-- A step of one engine changes the state of that engine alone. -/
theorem System.stepAt_eq (y : System) (i : Nat) : y.stepAt i = .next ⟨y.engines.modify i stepped⟩ := by
  unfold System.stepAt
  cases h : y.engines[i]? with
  | none => simp [List.modify_eq_self (List.getElem?_eq_none_iff.mp h)]
  | some s => simp [step_eq_stepped, List.modify_eq_set_getElem?, h]

theorem System.run_pair (y : System) (i j : Nat) :
    y.run [i, j] = .next ⟨(y.engines.modify i stepped).modify j stepped⟩ := by
  simp [System.run, System.stepAt_eq]

/-- Settles O60: each step changes its own engine's place in the list of engines, so that two steps commute
and the other places stay; reset numbers the places. -/
theorem enginesAreIndependent : Obligations.EnginesAreIndependent := by
  refine ⟨fun y i j hij => ⟨_, y.run_pair i j, ?_, fun k hki hkj => ?_⟩,
    fun n i hi => ⟨{ State.reset with unit := i }, ?_, rfl⟩⟩
  · rw [y.run_pair j i, List.modify_modify_ne _ _ _ hij]
  · simp [hki.symm, hkj.symm]
  · simp [System.reset, hi]

end Sys2Proof.Machine

/-! ## Decoding what the encoder writes -/

namespace Sys2Proof.Machine

/-- The sixteen `S8W` rows in one form: the encoder writes one word with the row's selector, the row's
`match` column is that selector alone, and the word decodes to the row. -/
theorem encode_of_s8w {i : Instr} (h : i.format = .s8w) :
    ∃ sel p, sel < 16 ∧ encode i = [wordOf sel p] ∧ rowMatch i = BitVec.ofNat 64 sel <<< 60 ∧
      decodeWord (wordOf sel p) = i := by
  cases i with
  | s8wSel0 p | s8wSel1 p | s8wSel2 p | s8wSel3 p | s8wSel4 p | s8wSel5 p | s8wSel6 p | s8wSel7 p
  | s8wSel8 p | s8wSel9 p | s8wSel10 p | s8wSel11 p | s8wSel12 p | s8wSel13 p | s8wSel14 p | s8wSel15 p =>
    refine ⟨_, p, ?_, rfl, rfl, ?_⟩
    · decide
    · simp only [decodeWord, payloadOf_wordOf, selectorOf_wordOf, Nat.reducePow, Nat.reduceLT]
  | _ => cases h

/-- The eight commands: two words, which decode to the command when its operands fit their fields. -/
theorem decode_encode_of_cmd {i : Instr} (hcmd : i.format = .cmd) (hwf : WellFormed i = true) :
    decode .cmd (encode i) = .ok i := by
  cases i with
  | fwEnc | fwDec | catRd | s8Choose | s8Encsel | s8Decsel | s8Enc | s8Dec =>
    simp only [WellFormed, bwFits, selFits, countFits, Bool.and_eq_true, decide_eq_true_eq,
      Nat.reducePow] at hwf
    simp [encode, decode, decodeCommand, fieldRsv_encodeD0, fieldOp_encodeD0, fieldBw_encodeD0,
      fieldM_encodeD0, fieldSel_encodeD0, fieldCap_encodeD1, fieldLen_encodeD1, hwf]
  | _ => cases hcmd

/-- Settles O9, by the instruction's format: each field of a descriptor reads back, and a Simple8b word
reads back its selector and its payload. -/
theorem decodeOfEncodeIsIdentity : Obligations.DecodeOfEncodeIsIdentity := by
  intro i hwf
  cases hf : i.format with
  | cmd => exact decode_encode_of_cmd hf hwf
  | s8w =>
    obtain ⟨sel, p, -, hencode, -, hdecode⟩ := encode_of_s8w hf
    rw [hencode, decode, hdecode]

end Sys2Proof.Machine

/-! ## What a descriptor and a Simple8b word decode to -/

namespace Sys2Proof.Machine

/-- The rows of R50 with the fields each command uses (R53): the commands a descriptor with RSV zero
names. -/
inductive Names (d0 d1 : Word) : Instr → Prop where
  | fwEnc (h : fieldOp d0 = 1) : Names d0 d1 (.fwEnc (fieldBw d0) (fieldM d0) (fieldCap d1) (fieldLen d1))
  | fwDec (h : fieldOp d0 = 2) : Names d0 d1 (.fwDec (fieldBw d0) (fieldCap d1) (fieldLen d1))
  | catRd (h : fieldOp d0 = 3) : Names d0 d1 (.catRd (fieldSel d0) (fieldCap d1))
  | s8Choose (h : fieldOp d0 = 4) : Names d0 d1 (.s8Choose (fieldLen d1))
  | s8Encsel (h : fieldOp d0 = 5) : Names d0 d1 (.s8Encsel (fieldSel d0) (fieldCap d1) (fieldLen d1))
  | s8Decsel (h : fieldOp d0 = 6) : Names d0 d1 (.s8Decsel (fieldCap d1) (fieldLen d1))
  | s8Enc (h : fieldOp d0 = 7) : Names d0 d1 (.s8Enc (fieldCap d1) (fieldLen d1))
  | s8Dec (h : fieldOp d0 = 8) : Names d0 d1 (.s8Dec (fieldCap d1) (fieldLen d1))

theorem decodeCommand_ok_iff {d0 d1 : Word} {i : Instr} :
    decodeCommand d0 d1 = .ok i ↔ fieldRsv d0 = 0 ∧ Names d0 d1 i := by
  constructor
  · intro h
    unfold decodeCommand at h
    split at h
    · cases h
    · refine ⟨not_not.mp ‹_›, ?_⟩
      split at h <;> cases h <;> constructor <;> assumption
  · rintro ⟨hrsv, hnames⟩
    cases hnames <;> simp [decodeCommand, *]

/-- A field put back where it was read: the word with every other bit cleared. -/
theorem extract_shiftLeft (w : Word) (start len : Nat) (h : start + len ≤ 64) :
    BitVec.ofNat 64 (w.extractLsb' start len).toNat <<< start = w &&& (lowMask len <<< start) := by
  apply BitVec.eq_of_getLsbD_eq
  intro i hi
  simp only [BitVec.ofNat_toNat, BitVec.getLsbD_and, BitVec.getLsbD_shiftLeft, BitVec.getLsbD_setWidth,
    BitVec.getLsbD_extractLsb', getLsbD_lowMask len _ (show len ≤ 64 by omega), hi]
  by_cases hs : i < start
  · simp [hs]
  · have hsum : start + (i - start) = i := by omega
    simp [hs, hsum, show i - start < 64 by omega, Bool.and_comm]

theorem fieldOp_in_place (d0 : Word) : BitVec.ofNat 64 (fieldOp d0) <<< 60 = d0 &&& 0xF000000000000000#64 :=
  extract_shiftLeft d0 60 4 (by decide)

theorem fieldBw_in_place (d0 : Word) : BitVec.ofNat 64 (fieldBw d0) <<< 54 = d0 &&& 0x0FC0000000000000#64 :=
  extract_shiftLeft d0 54 6 (by decide)

theorem fieldM_in_place (d0 : Word) : BitVec.ofNat 64 (fieldM d0).toNat <<< 53 = d0 &&& 0x0020000000000000#64 := by
  have hm : (fieldM d0).toNat = (d0.extractLsb' 53 1).toNat :=
    (extract_toNat_of_bits _ _ _ _ (toNat_lt_two _) fun i hi => by
      obtain rfl : i = 0 := by omega
      cases h : fieldM d0 <;> simpa [fieldM] using h).symm
  rw [hm]
  exact extract_shiftLeft d0 53 1 (by decide)

theorem fieldSel_in_place (d0 : Word) : BitVec.ofNat 64 (fieldSel d0) <<< 49 = d0 &&& 0x001E000000000000#64 :=
  extract_shiftLeft d0 49 4 (by decide)

theorem fieldRsv_in_place (d0 : Word) : BitVec.ofNat 64 (fieldRsv d0) = d0 &&& 0x0001FFFFFFFFFFFF#64 :=
  (BitVec.shiftLeft_zero _).symm.trans (extract_shiftLeft d0 0 49 (by decide))

theorem fieldCap_in_place (d1 : Word) : BitVec.ofNat 64 (fieldCap d1) <<< 32 = d1 &&& 0xFFFFFFFF00000000#64 :=
  extract_shiftLeft d1 32 32 (by decide)

theorem fieldLen_in_place (d1 : Word) : BitVec.ofNat 64 (fieldLen d1) = d1 &&& 0x00000000FFFFFFFF#64 :=
  (BitVec.shiftLeft_zero _).symm.trans (extract_shiftLeft d1 0 32 (by decide))

/-- The encoder gives back the used bits of a descriptor, whatever the ignored ones were (R53, R63). -/
theorem Names.encode_eq {d0 d1 : Word} {i : Instr} (h : Names d0 d1 i) :
    encode i = [d0 &&& usedD0 i, d1 &&& usedD1 i] := by
  cases h with
  | fwEnc h | fwDec h | catRd h | s8Choose h | s8Encsel h | s8Decsel h | s8Enc h | s8Dec h =>
    simp [encode, usedD0, usedD1, encodeD0, encodeD1, ← h, fieldOp_in_place, fieldBw_in_place,
      fieldM_in_place, fieldSel_in_place, fieldCap_in_place, fieldLen_in_place,
      ← BitVec.and_or_distrib_left]

/-- A Simple8b word is its selector and its payload (R54). -/
theorem wordOf_selectorOf_payloadOf (w : Word) : wordOf (selectorOf w) (payloadOf w) = w := by
  have hsel : BitVec.ofNat 64 (selectorOf w) <<< 60 = w &&& 0xF000000000000000#64 :=
    extract_shiftLeft w 60 4 (by decide)
  have hpayload : (payloadOf w).setWidth 64 = w &&& 0x0FFFFFFFFFFFFFFF#64 := by
    rw [← BitVec.ofNat_toNat, ← BitVec.shiftLeft_zero (BitVec.ofNat 64 _)]
    exact extract_shiftLeft w 0 60 (by decide)
  rw [wordOf, hsel, hpayload, ← BitVec.and_or_distrib_left]
  exact BitVec.and_allOnes

theorem decodeWord_format (w : Word) : (decodeWord w).format = .s8w := by
  unfold decodeWord
  split <;> rfl

theorem encode_decodeWord (w : Word) : encode (decodeWord w) = [w] := by
  have h : encode (decodeWord w) = [wordOf (selectorOf w) (payloadOf w)] := by
    have hlt := selectorOf_lt w
    unfold decodeWord
    generalize selectorOf w = sel at hlt
    interval_cases sel <;> rfl
  rw [h, wordOf_selectorOf_payloadOf]

/-- Settles O10: a command's used bits are its fields put back in place, and a word is its selector and its
payload. -/
theorem encodeOfDecodeKeepsUsedBits : Obligations.EncodeOfDecodeKeepsUsedBits := by
  refine ⟨fun d0 d1 i h => ⟨(decodeCommand_ok_iff.mp h).2.encode_eq, ?_⟩, encode_decodeWord⟩
  exact (decodeCommand_bounds h State.reset).1

/-- The operation code of a command's row, as the row's `match` column has it (R50). -/
theorem Names.rowMatch_eq {d0 d1 : Word} {i : Instr} (h : Names d0 d1 i) :
    rowMatch i = BitVec.ofNat 64 (fieldOp d0) <<< 60 := by
  cases h <;> simp [rowMatch, *]

theorem Names.op_bounds {d0 d1 : Word} {i : Instr} (h : Names d0 d1 i) :
    1 ≤ fieldOp d0 ∧ fieldOp d0 ≤ 8 := by
  cases h <;> omega

/-- Settles O11: the descriptors that name a command are those with RSV zero and an operation code of R50;
a row's mask is OP and RSV. -/
theorem descriptorsMatchTheirRow : Obligations.DescriptorsMatchTheirRow := by
  refine fun d0 d1 => ⟨⟨fun ⟨i, h⟩ => ?_, fun ⟨hrsv, hlo, hhi⟩ => ?_⟩, fun i h => ?_⟩
  · obtain ⟨hrsv, hnames⟩ := decodeCommand_ok_iff.mp h
    exact ⟨hrsv, hnames.op_bounds⟩
  · exact decodeCommand_ok_of_op d1 hrsv hlo hhi
  · obtain ⟨hrsv, hnames⟩ := decodeCommand_ok_iff.mp h
    have hcmd := decodeCommand_format h
    have hmask : rowMask i = 0xF000000000000000#64 ||| 0x0001FFFFFFFFFFFF#64 := by simp [rowMask, hcmd]
    refine ⟨hcmd, ?_⟩
    rw [hmask, BitVec.and_or_distrib_left, ← fieldOp_in_place, ← fieldRsv_in_place, hrsv, hnames.rowMatch_eq]
    exact BitVec.or_zero

end Sys2Proof.Machine

/-! ## Fields a command ignores -/

namespace Sys2Proof.Machine

/-- Words that agree under a mask agree under every part of it. -/
theorem and_congr_of_covered {x y m n : Word} (h : x &&& m = y &&& m) (hle : m &&& n = n) :
    x &&& n = y &&& n := by
  rw [← hle, ← BitVec.and_assoc, h, BitVec.and_assoc]

theorem or_and_self_left (m n : Word) : (m ||| n) &&& m = m :=
  BitVec.eq_of_getElem_eq fun i hi => by simpa using Or.inl

theorem or_and_self_right (m n : Word) : (m ||| n) &&& n = n := by
  rw [BitVec.or_comm, or_and_self_left]

/-- Words that agree under a mask agree in a field it covers. -/
theorem extract_congr {x y m : Word} (h : x &&& m = y &&& m) {start len : Nat}
    (hcover : m.extractLsb' start len = BitVec.allOnes len) :
    x.extractLsb' start len = y.extractLsb' start len := by
  have hfield := congrArg (BitVec.extractLsb' start len) h
  simpa only [BitVec.extractLsb'_and, hcover, BitVec.and_allOnes] using hfield

theorem fieldOp_congr {e0 d0 : Word} (h : e0 &&& 0xF000000000000000#64 = d0 &&& 0xF000000000000000#64) :
    fieldOp e0 = fieldOp d0 :=
  congrArg BitVec.toNat (extract_congr h (by decide))

theorem fieldRsv_congr {e0 d0 : Word} (h : e0 &&& 0x0001FFFFFFFFFFFF#64 = d0 &&& 0x0001FFFFFFFFFFFF#64) :
    fieldRsv e0 = fieldRsv d0 :=
  congrArg BitVec.toNat (extract_congr h (by decide))

/-- Every command uses OP. -/
theorem usedD0_and_op (i : Instr) : usedD0 i &&& 0xF000000000000000#64 = 0xF000000000000000#64 := by
  unfold usedD0
  split <;> decide

/-- A descriptor with the same operation code names a command that uses the same bits. -/
theorem Names.of_op_eq {d0 d1 e0 : Word} {i : Instr} (h : Names d0 d1 i) (hop : fieldOp e0 = fieldOp d0)
    (e1 : Word) : ∃ j, Names e0 e1 j ∧ usedD0 j = usedD0 i ∧ usedD1 j = usedD1 i := by
  cases h with
  | fwEnc h => exact ⟨_, .fwEnc (hop.trans h), rfl, rfl⟩
  | fwDec h => exact ⟨_, .fwDec (hop.trans h), rfl, rfl⟩
  | catRd h => exact ⟨_, .catRd (hop.trans h), rfl, rfl⟩
  | s8Choose h => exact ⟨_, .s8Choose (hop.trans h), rfl, rfl⟩
  | s8Encsel h => exact ⟨_, .s8Encsel (hop.trans h), rfl, rfl⟩
  | s8Decsel h => exact ⟨_, .s8Decsel (hop.trans h), rfl, rfl⟩
  | s8Enc h => exact ⟨_, .s8Enc (hop.trans h), rfl, rfl⟩
  | s8Dec h => exact ⟨_, .s8Dec (hop.trans h), rfl, rfl⟩

/-- Commands that encode alike are the same. -/
theorem decoded_eq_of_encode_eq {d0 d1 e0 e1 : Word} {i j : Instr} (hi : decodeCommand d0 d1 = .ok i)
    (hj : decodeCommand e0 e1 = .ok j) (h : encode i = encode j) : i = j := by
  have hwi := (decodeCommand_bounds hi State.reset).1
  have hwj := (decodeCommand_bounds hj State.reset).1
  have hdecode := decode_encode_of_cmd (decodeCommand_format hi) hwi
  rw [h, decode_encode_of_cmd (decodeCommand_format hj) hwj] at hdecode
  exact (Except.ok.inj hdecode).symm

/-- Settles O12: both descriptors name commands that use the same bits, so the encoder gives the same words
for both (`Names.encode_eq`), and it writes different words for different commands. -/
theorem ignoredFieldsHaveNoEffect : Obligations.IgnoredFieldsHaveNoEffect := by
  intro d0 d1 e0 e1 i h h0 h1
  obtain ⟨hrsv, hnames⟩ := decodeCommand_ok_iff.mp h
  have hused : e0 &&& usedD0 i = d0 &&& usedD0 i := and_congr_of_covered h0 (or_and_self_left _ _)
  have hop : fieldOp e0 = fieldOp d0 := fieldOp_congr (and_congr_of_covered hused (usedD0_and_op i))
  have hrsv' : fieldRsv e0 = 0 :=
    (fieldRsv_congr (and_congr_of_covered h0 (or_and_self_right _ _))).trans hrsv
  obtain ⟨j, hnames', hj0, hj1⟩ := hnames.of_op_eq hop e1
  have hj := decodeCommand_ok_iff.mpr ⟨hrsv', hnames'⟩
  rw [hj, decoded_eq_of_encode_eq hj h]
  rw [hnames.encode_eq, hnames'.encode_eq, hj0, hj1, hused, h1]

end Sys2Proof.Machine

/-! ## The rows of the Simple8b words -/

namespace Sys2Proof.Machine

/-- Selectors differ where they stand. -/
theorem shiftLeft_60_inj {a b : Nat} (ha : a < 16) (hb : b < 16)
    (h : BitVec.ofNat 64 a <<< 60 = BitVec.ofNat 64 b <<< 60) : a = b := by
  rw [← selectorOf_wordOf a 0#60 ha, wordOf, h, ← wordOf, selectorOf_wordOf b 0#60 hb]

/-- A word matches the row of its own selector and no other (R66). -/
theorem and_rowMask_eq_iff {w : Word} {sel : Nat} (hsel : sel < 16) :
    w &&& 0xF000000000000000#64 = BitVec.ofNat 64 sel <<< 60 ↔ selectorOf w = sel := by
  have hw : BitVec.ofNat 64 (selectorOf w) <<< 60 = w &&& 0xF000000000000000#64 := fieldOp_in_place w
  rw [← hw]
  exact ⟨shiftLeft_60_inj (selectorOf_lt w) hsel, fun h => by rw [h]⟩

/-- A pass of the loop with room for its word is no end of the command. -/
theorem exec_decodeWord_of_room {w : Word} {s : State} (hcat : CatalogIntact s)
    (hroom : s.emitted.length + wordCount w ≤ s.descCap) :
    exec (decodeWord w) s = .next { s with emitted := s.emitted ++ wordValues w, cur := s.cur + 1 } := by
  rw [exec_decodeWord, runWord, emitWord_ok _ _ _ hcat hroom]

/-- Settles O13: every `S8W` row's mask is the selector and its `match` is the row's number there. -/
theorem everyWordIsDecodable : Obligations.EveryWordIsDecodable := by
  have hmask {j : Instr} (hj : j.format = .s8w) : rowMask j = 0xF000000000000000#64 := by simp [rowMask, hj]
  intro w
  have hfmt := decodeWord_format w
  refine ⟨hfmt, ?_, fun j hj hmatch => ?_, fun s hcat hroom =>
    ⟨_, exec_decodeWord_of_room hcat hroom, rfl, rfl⟩⟩
  · obtain ⟨sel, p, hsel, hencode, hrow, -⟩ := encode_of_s8w hfmt
    rw [encode_decodeWord] at hencode
    rw [hmask hfmt, hrow, and_rowMask_eq_iff hsel, List.singleton_inj.mp hencode, selectorOf_wordOf _ _ hsel]
  · obtain ⟨sel, p, hsel, hencode, hrow, -⟩ := encode_of_s8w hj
    rw [hmask hj, hrow, and_rowMask_eq_iff hsel] at hmatch
    exact ⟨p, hmatch ▸ hencode⟩

end Sys2Proof.Machine

/-! ## The fixed-width packer -/

namespace Sys2Proof.Machine

/-- FW.ENC on a block with room for its words (R72). -/
theorem exec_fwEnc_block {bw cap : Nat} (m : Bool) (s : State) (h1 : 1 ≤ bw) (h2 : bw ≤ 32)
    (hroom : fwWords bw ≤ cap) :
    exec (.fwEnc bw m cap 32) s = .next (s.complete {} (fwPack m bw (s.inV32 32))) := by
  have hwidth : ¬(bw < Config.bwMin ∨ Config.bwMax < bw) := by simp [Config.bwMin, Config.bwMax]; omega
  simp only [exec, execFwEnc]
  rw [if_neg (by omega), if_neg hwidth, if_neg (by decide), if_neg (by decide), if_neg (by omega)]
  rfl

/-- FW.DEC on a packed block with room for its values (R76). -/
theorem exec_fwDec_block {bw cap : Nat} (s : State) (h1 : 1 ≤ bw) (h2 : bw ≤ 32) (hroom : 32 ≤ cap) :
    exec (.fwDec bw cap (fwWords bw)) s =
      .next (s.complete {} (cellsOfV32 (fwUnpack bw (s.inW (fwWords bw))))) := by
  have hwidth : ¬(bw < Config.bwMin ∨ Config.bwMax < bw) := by simp [Config.bwMin, Config.bwMax]; omega
  have hwords : fwWords bw ≠ 0 := by unfold fwWords; omega
  simp only [exec, execFwDec]
  rw [if_neg (by omega), if_neg hwidth, if_neg hwords, if_neg (by simp),
    if_neg (by simpa [Config.blockLen] using hroom)]

/-- Beyond the words there is no bit. -/
theorem globalBit_past {ws : List Word} {g : Nat} (h : 64 * ws.length ≤ g) : globalBit ws g = false := by
  rw [globalBit, List.getD_eq_default _ _ (by omega)]
  exact BitVec.getLsbD_zero

/-- Settles O16: `globalBit_fwPack` gives every bit within the words, and there is none beyond them. -/
theorem fwEncPacksBlock : Obligations.FwEncPacksBlock := by
  intro bw m cap s h1 h2 hroom
  refine ⟨_, exec_fwEnc_block m s h1 h2 hroom, fwPack_length _ _ _, fun g => ?_⟩
  by_cases hg : g < 64 * (fwPack m bw (s.inV32 32)).length
  · rw [decide_eq_true hg, Bool.true_and, globalBit_fwPack m bw g _ h1 h2 (by simp)]
  · rw [decide_eq_false hg, Bool.false_and, globalBit_past (Nat.not_lt.mp hg)]

/-- Settles O25: a field ends in its first word or in the next (`secondWord_cases`); a width of at most 32
that crosses bit 64 starts above bit 32. -/
theorem fwFieldPositions : Obligations.FwFieldPositions := by
  intro bw j h1 h2 hj
  have hend := secondWord_cases bw j h1 h2
  refine ⟨by unfold fwWords; omega, ?_, ?_, fwWords_pos_bound bw j h1 hj⟩
  · rw [straddles, bne_iff_ne]
    omega
  · rw [straddles, bne_iff_ne]
    omega

/-! The unused bits of odd widths (R61) -/

/-- A packed run of at most 32 values that fit their width sets no bit beyond its fields. -/
theorem packedBit_past {bw g : Nat} {vs : List Word} (hlen : vs.length ≤ 32) (hg : 32 * bw ≤ g)
    (hfit : ∀ v ∈ vs, ∀ k, bw ≤ k → v.getLsbD k = false) : packedBit bw vs g = false := by
  rw [packedBit, List.any_eq_false]
  intro j hj
  have hj : j < vs.length := List.mem_range.mp hj
  have hfield : (j + 1) * bw ≤ 32 * bw := Nat.mul_le_mul_right _ (by omega)
  rw [Nat.add_mul] at hfield
  have hv : (vs.getD j 0#64).getLsbD (g - j * bw) = false :=
    hfit _ (by simp [List.getD, List.getElem?_eq_getElem hj]) _ (by omega)
  rw [hv, Bool.and_false]
  exact Bool.false_ne_true

/-- At an odd width the last word's upper half begins where the fields end. -/
theorem lastWord_upper {bw : Nat} (hodd : bw % 2 = 1) (ws : List Word) {i : Nat} (hi : i < 32) :
    (ws.getD (fwWords bw - 1) 0#64).getLsbD (32 + i) = globalBit ws (32 * bw + i) := by
  have hword : (32 * bw + i) / 64 = fwWords bw - 1 := by unfold fwWords; omega
  have hbit : (32 * bw + i) % 64 = 32 + i := by omega
  rw [globalBit, hword, hbit]

theorem extract_upper_eq_zero_iff {w : Word} :
    w.extractLsb' 32 32 = 0#32 ↔ ∀ i, i < 32 → w.getLsbD (32 + i) = false := by
  constructor
  · intro h i hi
    have hbit := congrArg (BitVec.getLsbD · i) h
    simpa [hi] using hbit
  · intro h
    apply BitVec.eq_of_getLsbD_eq
    intro i hi
    simp [hi, h i hi]

/-- Values that fit their width, masked or in range, leave the unused bits zero. -/
theorem fwPack_unused_zero {m : Bool} {bw : Nat} {vals : List (BitVec 32)} (hodd : bw % 2 = 1) (h2 : bw ≤ 32)
    (hlen : vals.length ≤ 32) (hfit : ∀ x ∈ vals, m = true ∨ x.toNat < 2 ^ bw) :
    ((fwPack m bw vals).getD (fwWords bw - 1) 0#64).extractLsb' 32 32 = 0#32 := by
  rw [extract_upper_eq_zero_iff]
  intro i hi
  rw [lastWord_upper hodd _ hi, globalBit_fwPack m bw _ _ (by omega) h2 hlen]
  refine packedBit_past (by simpa using hlen) (by omega) fun v hv k hk => ?_
  obtain ⟨x, hx, rfl⟩ := List.mem_map.mp hv
  exact fwOperand_high m bw k x h2 hk (hfit x hx)

/-- FW.DEC looks at no bit beyond the fields (R75). -/
theorem fwUnpack_congr {bw : Nat} {ws ws' : List Word} (h1 : 1 ≤ bw) (h2 : bw ≤ 32)
    (h : ∀ g, g < 32 * bw → globalBit ws g = globalBit ws' g) : fwUnpack bw ws = fwUnpack bw ws' := by
  refine List.map_congr_left fun j hj => BitVec.eq_of_getLsbD_eq fun b _ => ?_
  have hj : j < 32 := List.mem_range.mp hj
  rw [getLsbD_extract bw j b ws h1 h2, getLsbD_extract bw j b ws' h1 h2]
  by_cases hb : b < bw
  · have hfield : (j + 1) * bw ≤ 32 * bw := Nat.mul_le_mul_right _ (by omega)
    rw [Nat.add_mul] at hfield
    rw [h _ (by omega)]
  · simp [hb]

/-- A bit of the input words. -/
theorem globalBit_inW (s : State) {n g : Nat} (h : g < 64 * n) :
    globalBit (s.inW n) g = (s.readW (g / 64)).getLsbD (g % 64) := by
  have hword : g / 64 < n := by omega
  simp [globalBit, State.inW, List.getD, hword]

/-- Input words that agree but for the unused bits of the last one agree in all fields. -/
theorem globalBit_inW_congr {bw g : Nat} {s s' : State} (hodd : bw % 2 = 1)
    (hwords : ∀ q, q < fwWords bw - 1 → s.readW q = s'.readW q)
    (hlast : (s.readW (fwWords bw - 1)).extractLsb' 0 32 = (s'.readW (fwWords bw - 1)).extractLsb' 0 32)
    (hg : g < 32 * bw) : globalBit (s.inW (fwWords bw)) g = globalBit (s'.inW (fwWords bw)) g := by
  have hcount : fwWords bw = (bw + 1) / 2 := by unfold fwWords; omega
  rw [globalBit_inW s (by omega), globalBit_inW s' (by omega)]
  by_cases hq : g / 64 < fwWords bw - 1
  · rw [hwords _ hq]
  · have hword : g / 64 = fwWords bw - 1 := by omega
    have hbit := congrArg (BitVec.getLsbD · (g % 64)) hlast
    simpa [hword, show g % 64 < 32 by omega] using hbit

/-- A block of the greatest 32-bit values, none of which fits an odd width. -/
def onesBlock : State :=
  { State.reset with
    mem := { input := List.replicate 32 (lowMask 32), output := List.replicate 16 0#64 } }

theorem inCell_onesBlock {j : Nat} (hj : j < 32) : onesBlock.inCell j = lowMask 32 := by
  rw [inCell_of_lt _ _ (by simpa [onesBlock] using hj)]
  exact List.getElem_replicate _

theorem readV32_onesBlock {j : Nat} (hj : j < 32) : onesBlock.readV32 j = BitVec.allOnes 32 := by
  rw [State.readV32, inCell_onesBlock hj]
  decide

/-- Value 31 of that block spills into the unused bits of the last word (R74). -/
theorem fwPack_onesBlock_unused {bw : Nat} (hodd : bw % 2 = 1) (h2 : bw ≤ 32) :
    globalBit (fwPack false bw (onesBlock.inV32 32)) (32 * bw) = true := by
  have hvalue : ((onesBlock.inV32 32).map (fwOperand false bw)).getD 31 0#64 = lowMask 32 := by
    have hoperand : fwOperand false bw (BitVec.allOnes 32) = lowMask 32 :=
      show (BitVec.allOnes 32).setWidth 64 = lowMask 32 by decide
    simpa [State.inV32, List.getD, readV32_onesBlock] using hoperand
  have hword : 32 * bw / 64 ≤ secondWord bw 31 := by unfold secondWord; omega
  have hstart : 32 * bw - 31 * bw = bw := by omega
  rw [globalBit_fwPack _ _ _ _ (by omega) h2 (by simp), packedBit, List.any_eq_true]
  refine ⟨31, by simp, ?_⟩
  rw [hvalue, hstart, getLsbD_lowMask 32 bw (by decide), decide_eq_true hword,
    decide_eq_true (p := 31 * bw ≤ 32 * bw) (by omega), decide_eq_true (p := bw < 32) (by omega)]
  rfl

/-- Settles O21. Written: `fwPack_unused_zero`. Read: `fwUnpack_congr` over the bits of the fields. Set: a block
of the greatest 32-bit values, at every odd width. -/
theorem fwUnusedBitsOfOddWidths : Obligations.FwUnusedBitsOfOddWidths := by
  refine ⟨fun bw m cap s hodd h2 hroom hfit => ?_, fun bw cap s s' hodd h2 hroom hwords hlast => ?_,
    fun bw hodd h2 => ?_⟩
  · refine ⟨_, exec_fwEnc_block m s (by omega) h2 hroom, fwPack_unused_zero hodd h2 (by simp) fun x hx => ?_⟩
    obtain ⟨j, hj, rfl⟩ := List.mem_map.mp hx
    exact hfit.imp_right fun h => h j (List.mem_range.mp hj)
  · have hbits : fwUnpack bw (s.inW (fwWords bw)) = fwUnpack bw (s'.inW (fwWords bw)) :=
      fwUnpack_congr (by omega) h2 fun g => globalBit_inW_congr hodd hwords hlast
    exact ⟨_, exec_fwDec_block s (by omega) h2 hroom, hbits ▸ exec_fwDec_block s' (by omega) h2 hroom⟩
  · have hcount : fwWords bw ≤ 16 := by unfold fwWords; omega
    have hlast : fwWords bw - 1 < (fwPack false bw (onesBlock.inV32 32)).length := by
      rw [fwPack_length]; unfold fwWords; omega
    refine ⟨onesBlock, _, _, ⟨0, by decide, ?_⟩, exec_fwEnc_block false onesBlock (by omega) h2 le_rfl,
      (overlay_getElem?_written _ _ _ hlast (by simpa [onesBlock] using hcount)).trans
        (List.getElem?_eq_getElem hlast), fun hzero => ?_⟩
    · rw [readV32_onesBlock (by decide), BitVec.toNat_allOnes]
      have : 2 ^ bw ≤ 2 ^ 31 := Nat.pow_le_pow_right (by decide) (by omega)
      omega
    · rw [← List.getD_eq_getElem _ 0#64 hlast, extract_upper_eq_zero_iff] at hzero
      have hset := lastWord_upper hodd (fwPack false bw (onesBlock.inV32 32)) (i := 0) (by decide)
      rw [hzero 0 (by decide), Nat.add_zero, fwPack_onesBlock_unused hodd h2] at hset
      cases hset

end Sys2Proof.Machine

/-! ## One Simple8b word, bit by bit -/

namespace Sys2Proof.Machine

/-- Every bit of one masked value in field `q`, counted from the low end. -/
theorem getLsbD_field (v : Word) {bits q g : Nat} (hpos : 0 < bits) (hbits : bits ≤ 64) (hg : g < 64) :
    ((v &&& lowMask bits) <<< (bits * q)).getLsbD g = (decide (g / bits = q) && v.getLsbD (g % bits)) := by
  have hdiv := Nat.div_add_mod g bits
  have hmod := Nat.mod_lt g hpos
  rw [BitVec.getLsbD_shiftLeft, BitVec.getLsbD_and, getLsbD_lowMask bits _ hbits]
  rcases Nat.lt_trichotomy (g / bits) q with hlt | rfl | hgt
  · have hstart : bits * (g / bits + 1) ≤ bits * q := Nat.mul_le_mul_left _ hlt
    rw [Nat.mul_add] at hstart
    simp [show g < bits * q by omega, hlt.ne]
  · have hoffset : g - bits * (g / bits) = g % bits := by omega
    simp [hoffset, hmod, hg, show ¬ g < bits * (g / bits) by omega]
  · have hend : bits * (q + 1) ≤ bits * (g / bits) := Nat.mul_le_mul_left _ hgt
    rw [Nat.mul_add] at hend
    simp [show ¬ g - bits * q < bits by omega, hgt.ne']

/-- Field `i` lies below the bits of all fields. -/
theorem field_bit_lt {bits count i b : Nat} (hi : i < count) (hb : b < bits) :
    bits * (count - 1 - i) + b < count * bits := by
  have h : bits * (count - 1 - i + 1) ≤ bits * count := Nat.mul_le_mul_left _ (by omega)
  rw [Nat.mul_add] at h
  rw [Nat.mul_comm count]
  omega

section
variable {sel : Nat} (hsel : sel < 16)
include hsel

/-- The fields of a built word (R96): the field in which bit `g` lies holds the value of its index. -/
theorem insertedBit (vals : List Word) {g : Nat} (hg : g < 64) :
    (List.zip vals (entryAt romCatalog sel).shifts).any
        (fun p => ((p.1 &&& (entryAt romCatalog sel).mask) <<< p.2).getLsbD g) =
      (decide (g < (entryAt romCatalog sel).count * (entryAt romCatalog sel).bits) &&
        (vals.getD ((entryAt romCatalog sel).count - 1 - g / (entryAt romCatalog sel).bits) 0#64).getLsbD
          (g % (entryAt romCatalog sel).bits)) := by
  obtain ⟨hbits, -, -, hmask, -⟩ := catalog_facts sel hsel
  have hshifts := catalog_shifts sel hsel
  have hnone := catalog_no_shifts sel hsel
  generalize entryAt romCatalog sel = e at *
  rcases Nat.eq_zero_or_pos e.bits with h0 | hpos
  · simp [h0, hnone h0]
  · rw [hshifts hpos.ne', hmask, Bool.eq_iff_iff, List.any_eq_true, Bool.and_eq_true, decide_eq_true_eq,
      ← Nat.div_lt_iff_lt_mul hpos]
    constructor
    · rintro ⟨p, hp, hbit⟩
      obtain ⟨k, hk, rfl⟩ := List.mem_iff_getElem.mp hp
      obtain ⟨hv, hc⟩ : k < vals.length ∧ k < e.count := by simpa using hk
      rw [List.getElem_zip, List.getElem_map, List.getElem_range, getLsbD_field _ hpos (by omega) hg,
        Bool.and_eq_true, decide_eq_true_eq] at hbit
      have hindex : e.count - 1 - g / e.bits = k := by omega
      rw [hindex, List.getD_eq_getElem _ _ hv]
      exact ⟨by omega, hbit.2⟩
    · rintro ⟨hfield, hbit⟩
      have hv : e.count - 1 - g / e.bits < vals.length := by
        by_contra hpast
        rw [List.getD_eq_default _ _ (by omega)] at hbit
        simp at hbit
      have hc : e.count - 1 - g / e.bits < e.count := (Nat.sub_le _ _).trans_lt (Nat.sub_one_lt_of_lt hfield)
      rw [List.getD_eq_getElem _ _ hv] at hbit
      refine ⟨(vals[e.count - 1 - g / e.bits], e.bits * (g / e.bits)), List.mem_iff_getElem.mpr
        ⟨e.count - 1 - g / e.bits, by simpa using ⟨hv, hc⟩, ?_⟩, ?_⟩
      · rw [List.getElem_zip, List.getElem_map, List.getElem_range,
          Nat.sub_sub_self (Nat.le_sub_one_of_lt hfield)]
      · rw [getLsbD_field _ hpos (by omega) hg, decide_eq_true rfl, hbit, Bool.and_self]

/-- Every bit of a built word: the selector on top, the values in their fields, and nothing else. -/
theorem getLsbD_encSel (vals : List Word) {g : Nat} (hg : g < 64) :
    (encSel (entryAt romCatalog sel) sel vals).getLsbD g =
      (decide (60 ≤ g) && sel.testBit (g - 60) ||
        (decide (g < (entryAt romCatalog sel).count * (entryAt romCatalog sel).bits) &&
          (vals.getD ((entryAt romCatalog sel).count - 1 - g / (entryAt romCatalog sel).bits) 0#64).getLsbD
            (g % (entryAt romCatalog sel).bits))) := by
  rw [encSel, getLsbD_insertFields, insertedBit hsel vals hg, BitVec.getLsbD_shiftLeft,
    BitVec.getLsbD_ofNat, not_decide_lt]
  simp [hg, show g - 60 < 64 by omega]

theorem selectorOf_encSel (vals : List Word) : selectorOf (encSel (entryAt romCatalog sel) sel vals) = sel := by
  obtain ⟨-, -, -, -, hfields⟩ := catalog_facts sel hsel
  apply extract_toNat_of_bits _ _ _ _ hsel
  intro i hi
  rw [getLsbD_encSel hsel vals (by omega), decide_eq_false (p := 60 + i < _) (by omega)]
  simp

/-- The bits below the selector that belong to no field (R56). -/
theorem getLsbD_wastedMask {g : Nat} (hg : g < 64) :
    (wastedMask (entryAt romCatalog sel)).getLsbD g =
      (decide (g < 60) && !decide (g < (entryAt romCatalog sel).count * (entryAt romCatalog sel).bits)) := by
  obtain ⟨-, -, -, -, hfields⟩ := catalog_facts sel hsel
  rw [wastedMask, BitVec.getLsbD_and, BitVec.getLsbD_not, Config.payloadWidth,
    getLsbD_lowMask 60 g (by decide), getLsbD_lowMask _ g (by omega), decide_eq_true hg, Bool.true_and]

theorem encSel_wasted_zero (vals : List Word) :
    encSel (entryAt romCatalog sel) sel vals &&& wastedMask (entryAt romCatalog sel) = 0#64 := by
  apply BitVec.eq_of_getLsbD_eq
  intro g hg
  rw [BitVec.getLsbD_and, getLsbD_encSel hsel vals hg, getLsbD_wastedMask hsel hg]
  by_cases hfield : g < (entryAt romCatalog sel).count * (entryAt romCatalog sel).bits
  · simp [hfield]
  · by_cases htop : 60 ≤ g
    · simp [hfield, htop]
    · simp [hfield, htop]

/-- Every bit of value `i` of a word (R101). -/
theorem getLsbD_fieldValue (w : Word) {i b : Nat} (hi : i < (entryAt romCatalog sel).count) :
    (fieldValue (entryAt romCatalog sel) w i).getLsbD b =
      (decide (b < (entryAt romCatalog sel).bits) &&
        w.getLsbD ((entryAt romCatalog sel).bits * ((entryAt romCatalog sel).count - 1 - i) + b)) := by
  obtain ⟨hbits, -, -, hmask, -⟩ := catalog_facts sel hsel
  have hshifts := catalog_shifts sel hsel
  generalize entryAt romCatalog sel = e at *
  unfold fieldValue
  split
  · simp [*]
  · have hshift : e.shifts.getD i 0 = e.bits * (e.count - 1 - i) := by simp [hshifts ‹_›, List.getD, hi]
    rw [hshift, hmask, BitVec.getLsbD_and, BitVec.getLsbD_ushiftRight, getLsbD_lowMask _ _ (by omega),
      Bool.and_comm]

/-- Field `i` of a built word holds value `i`, masked, and zero beyond the values (R97, R98). -/
theorem fieldValue_encSel (vals : List Word) {i : Nat} (hi : i < (entryAt romCatalog sel).count) :
    fieldValue (entryAt romCatalog sel) (encSel (entryAt romCatalog sel) sel vals) i =
      vals.getD i 0#64 &&& (entryAt romCatalog sel).mask := by
  obtain ⟨hbits, -, -, hmask, hfields⟩ := catalog_facts sel hsel
  apply BitVec.eq_of_getLsbD_eq
  intro b _
  rw [getLsbD_fieldValue hsel _ hi, BitVec.getLsbD_and, hmask, getLsbD_lowMask _ _ (by omega)]
  by_cases hb : b < (entryAt romCatalog sel).bits
  · have hbit := field_bit_lt hi hb
    have hdiv : ((entryAt romCatalog sel).bits * ((entryAt romCatalog sel).count - 1 - i) + b) /
        (entryAt romCatalog sel).bits = (entryAt romCatalog sel).count - 1 - i := by
      rw [Nat.mul_add_div (by omega), Nat.div_eq_of_lt hb, Nat.add_zero]
    have hmod : ((entryAt romCatalog sel).bits * ((entryAt romCatalog sel).count - 1 - i) + b) %
        (entryAt romCatalog sel).bits = b := by
      rw [Nat.mul_add_mod, Nat.mod_eq_of_lt hb]
    have hindex : (entryAt romCatalog sel).count - 1 - ((entryAt romCatalog sel).count - 1 - i) = i := by omega
    rw [getLsbD_encSel hsel vals (by omega), hdiv, hmod, hindex, decide_eq_false (p := 60 ≤ _) (by omega)]
    simp [hb, hbit]
  · simp [hb]

end

end Sys2Proof.Machine

/-! ## The word commands and the streams of words -/

namespace Sys2Proof.Machine

theorem inV64_getD (s : State) (n i : Nat) :
    (s.inV64 n).getD i 0#64 = if i < n then s.readV64 i else 0#64 := by
  unfold State.inV64
  split
  · simp [List.getD, *]
  · exact List.getD_eq_default _ _ (by simp; omega)

/-- S8.ENCSEL with an input and room for its word (R96). -/
theorem exec_s8Encsel_of_room (sel : Nat) {cap len : Nat} {s : State} (hcat : CatalogIntact s)
    (hlen : 1 ≤ len) (hcap : 1 ≤ cap) :
    exec (.s8Encsel sel cap len) s =
      .next (s.complete { rcount := min (entryAt romCatalog sel).count len,
                          rbits := (entryAt romCatalog sel).bits }
        [encSel (entryAt romCatalog sel) sel (s.inV64 (min (entryAt romCatalog sel).count len))]) := by
  simp only [exec, execS8Encsel, entry_of_intact s sel hcat]
  rw [if_neg (by omega), if_neg (by omega)]

/-- Settles O33, by the bits of a built word (`getLsbD_encSel`). -/
theorem encselBuildsWord : Obligations.EncselBuildsWord := by
  intro sel cap len s hcat hsel hlen hcap
  refine ⟨_, exec_s8Encsel_of_room sel hcat hlen hcap, selectorOf_encSel hsel _, encSel_wasted_zero hsel _,
    fun i hi => ?_⟩
  rw [fieldValue_encSel hsel _ hi, inV64_getD]
  by_cases hi' : i < len
  · simp [hi, hi']
  · simp [hi']

/-- S8.DECSEL with an input and room for its word's run (R101). -/
theorem exec_s8Decsel_of_room {cap len : Nat} {s : State} (hcat : CatalogIntact s) (hlen : 1 ≤ len)
    (hroom : wordCount (s.readW 0) ≤ cap) :
    exec (.s8Decsel cap len) s =
      .next (s.complete { rsel := selectorOf (s.readW 0), rcount := wordCount (s.readW 0),
                          rbits := (entryAt romCatalog (selectorOf (s.readW 0))).bits }
        (wordValues (s.readW 0))) := by
  simp only [exec, execS8Decsel, entry_of_intact s _ hcat]
  rw [if_neg (by omega)]
  exact congrArg _ (if_neg (Nat.not_lt.mpr hroom))

/-- S8.DEC with room for all its words' runs (R113). -/
theorem exec_s8Dec_of_room {cap len : Nat} {s : State} (hcat : CatalogIntact s)
    (hroom : totalCount (s.inW len) ≤ cap) :
    exec (.s8Dec cap len) s = .next (s.complete {} ((s.inW len).flatMap wordValues)) := by
  have hloop := emitWords_ok cap (s.inW len) s.beginWords hcat (by simpa using hroom)
  simp only [exec, execS8Dec, hloop]
  rw [complete_of_emitWords hloop]
  rfl

/-- S8.DEC without it (R115). -/
theorem exec_s8Dec_boundsError {cap len : Nat} {s : State} (hcat : CatalogIntact s)
    (hroom : cap < totalCount (s.inW len)) : exec (.s8Dec cap len) s = .next (s.raise .boundsError cap) := by
  have hloop := emitWords_error cap (s.inW len) s.beginWords hcat (by simp) (by simpa using hroom)
  simp only [exec, execS8Dec, hloop]

/-! The words of a stream (R108) -/

/-- `EncodesTo vals ws`: the S8.ENC loop with no end of room writes the words `ws` for the values `vals`. -/
inductive EncodesTo : List Word → List Word → Prop where
  | nil : EncodesTo [] []
  | run {v : Word} {vs ws : List Word} {sel c : Nat} (hchoose : choose romCatalog (v :: vs) = some (sel, c))
      (hrest : EncodesTo ((v :: vs).drop c) ws) :
      EncodesTo (v :: vs) (encSel (entryAt romCatalog sel) sel ((v :: vs).take c) :: ws)

/-- With any room the loop writes those words, or runs out of room (R110). -/
theorem encodeRuns_of_encodesTo {vals ws : List Word} (h : EncodesTo vals ws) (room : Nat) :
    encodeRuns romCatalog room vals = if ws.length ≤ room then .ok ws else .error .boundsError := by
  induction h generalizing room with
  | nil => cases room <;> rfl
  | run hchoose _ ih =>
    cases room with
    | zero => simp [encodeRuns, hchoose]
    | succ room =>
      rw [encodeRuns, hchoose]
      simp only [ih, List.length_cons, Nat.add_le_add_iff_right]
      split
      · rename_i hok
        split at hok <;> cases hok
        rw [if_pos ‹_›]
      · rename_i herror
        split at herror <;> cases herror
        rw [if_neg ‹_›]

theorem exec_s8Enc_of_room {cap len : Nat} {s : State} {ws : List Word} (hcat : CatalogIntact s)
    (h : EncodesTo (s.inV64 len) ws) (hroom : ws.length ≤ cap) :
    exec (.s8Enc cap len) s = .next (s.complete {} ws) := by
  have hcat : s.cat = romCatalog := hcat
  simp only [exec, execS8Enc, hcat, encodeRuns_of_encodesTo h, if_pos hroom]

/-- What the choice answers (R91): the first selector whose entry is feasible, with its entry's count as
far as the values reach. -/
theorem choose_some {vals : List Word} {sel c : Nat} (h : choose romCatalog vals = some (sel, c)) :
    sel < 16 ∧ c = min (entryAt romCatalog sel).count vals.length ∧
      feasible (entryAt romCatalog sel) vals = true ∧
      ∀ sel', sel' < sel → feasible (entryAt romCatalog sel') vals = false := by
  obtain ⟨k, e, hk, rfl, hfeasible, rfl, hfirst⟩ := chooseFrom_some _ _ _ _ _ h
  have hlt : k < romCatalog.length := (List.getElem?_eq_some_iff.mp hk).1
  have hentry : entryAt romCatalog k = e := by simp [entryAt, hk]
  rw [Nat.zero_add, hentry]
  refine ⟨hlt, rfl, hfeasible, fun sel' hsel' => hfirst sel' hsel' _ ?_⟩
  rw [entryAt, List.getD_eq_getElem _ _ (hsel'.trans hlt), List.getElem?_eq_getElem (hsel'.trans hlt)]

/-- Selector 15 takes one value below `2^60` whatever follows it (R94). -/
theorem feasible_last {v : Word} (vs : List Word) (hv : v.toNat < 2 ^ 60) :
    feasible (entryAt romCatalog 15) (v :: vs) = true := by
  rw [feasible_iff]
  intro u hu
  obtain rfl : u = v := by simpa [entryAt, romCatalog] using hu
  exact (fits_iff _ _ (by decide) (by decide)).mpr hv

/-- A run that starts with a value below `2^60` has a choice, which takes at least that value. -/
theorem choose_of_first_fits {v : Word} (vs : List Word) (hv : v.toNat < 2 ^ 60) :
    ∃ sel c, choose romCatalog (v :: vs) = some (sel, c) ∧ 1 ≤ c := by
  cases h : choose romCatalog (v :: vs) with
  | none =>
    have hlast := chooseFrom_none _ _ _ h (entryAt romCatalog 15) (by decide)
    rw [feasible_last vs hv] at hlast
    cases hlast
  | some r =>
    obtain ⟨sel, c⟩ := r
    obtain ⟨hsel, rfl, -⟩ := choose_some h
    obtain ⟨-, hcount, -⟩ := catalog_facts sel hsel
    exact ⟨sel, _, rfl, le_min hcount (by simp)⟩

/-- Every stream of values below `2^60` has its words (R108). -/
theorem exists_encodesTo (vals : List Word) (hvals : ∀ v ∈ vals, v.toNat < 2 ^ 60) :
    ∃ ws, EncodesTo vals ws := by
  match vals with
  | [] => exact ⟨[], .nil⟩
  | v :: vs =>
    obtain ⟨sel, c, hchoose, hc⟩ := choose_of_first_fits vs (hvals v List.mem_cons_self)
    obtain ⟨ws, hws⟩ := exists_encodesTo ((v :: vs).drop c) fun u hu => hvals u (List.mem_of_mem_drop hu)
    exact ⟨_, .run hchoose hws⟩
termination_by vals.length
decreasing_by simp; omega

theorem mem_inV64 {s : State} {len : Nat} {v : Word} (h : v ∈ s.inV64 len) :
    ∃ i, i < len ∧ s.readV64 i = v := by
  simpa [State.inV64] using h

/-! Wasted bits (R56) -/

/-- The encoder of streams writes no wasted bit. -/
theorem EncodesTo.wasted_zero {vals ws : List Word} (h : EncodesTo vals ws) :
    ∀ w ∈ ws, w &&& wastedMask (entryAt romCatalog (selectorOf w)) = 0#64 := by
  induction h with
  | nil => simp
  | run hchoose _ ih =>
    have hsel := (choose_some hchoose).1
    rw [List.forall_mem_cons, selectorOf_encSel hsel]
    exact ⟨encSel_wasted_zero hsel _, ih⟩

section
variable {x y : Word} (h : AlikeButWasted x y)
include h

/-- Words that differ in wasted bits only agree in the bits of their fields. -/
theorem AlikeButWasted.field_bit {g : Nat}
    (hg : g < (entryAt romCatalog (selectorOf x)).count * (entryAt romCatalog (selectorOf x)).bits) :
    x.getLsbD g = y.getLsbD g := by
  obtain ⟨-, hor⟩ := h
  have hsel := selectorOf_lt x
  obtain ⟨-, -, -, -, hfields⟩ := catalog_facts _ hsel
  have hbit := congrArg (BitVec.getLsbD · g) hor
  simpa [getLsbD_wastedMask hsel (show g < 64 by omega), hg] using hbit

theorem AlikeButWasted.wordCount_eq : wordCount x = wordCount y := by
  rw [wordCount, h.1, wordCount]

theorem AlikeButWasted.wordValues_eq : wordValues x = wordValues y := by
  rw [wordValues, wordValues, ← h.1]
  refine List.map_congr_left fun i hi => BitVec.eq_of_getLsbD_eq fun b _ => ?_
  have hi := List.mem_range.mp hi
  rw [getLsbD_fieldValue (selectorOf_lt x) x hi, getLsbD_fieldValue (selectorOf_lt x) y hi]
  by_cases hb : b < (entryAt romCatalog (selectorOf x)).bits
  · rw [h.field_bit (field_bit_lt hi hb)]
  · rw [decide_eq_false hb, Bool.false_and, Bool.false_and]

/-- They are the same pass of the S8.DEC loop. -/
theorem AlikeButWasted.exec_eq {s : State} (hcat : CatalogIntact s) :
    exec (decodeWord x) s = exec (decodeWord y) s := by
  rw [exec_decodeWord, exec_decodeWord, runWord, runWord]
  by_cases hroom : s.emitted.length + wordCount x ≤ s.descCap
  · rw [emitWord_ok _ _ _ hcat hroom, emitWord_ok _ _ _ hcat (h.wordCount_eq ▸ hroom), h.wordValues_eq]
  · rw [emitWord_error _ _ _ hcat (Nat.not_le.mp hroom),
      emitWord_error _ _ _ hcat (h.wordCount_eq ▸ Nat.not_le.mp hroom)]

end

/-- Inputs whose words differ in wasted bits only hold the same values. -/
theorem inW_alike {s s' : State} {len : Nat} (h : ∀ q, q < len → AlikeButWasted (s.readW q) (s'.readW q)) :
    totalCount (s.inW len) = totalCount (s'.inW len) ∧
      (s.inW len).flatMap wordValues = (s'.inW len).flatMap wordValues := by
  have hcounts : (s.inW len).map wordCount = (s'.inW len).map wordCount := by
    simp only [State.inW, List.map_map]
    exact List.map_congr_left fun q hq => (h q (List.mem_range.mp hq)).wordCount_eq
  have hvalues : (s.inW len).map wordValues = (s'.inW len).map wordValues := by
    simp only [State.inW, List.map_map]
    exact List.map_congr_left fun q hq => (h q (List.mem_range.mp hq)).wordValues_eq
  exact ⟨congrArg List.sum hcounts, by rw [List.flatMap_def, hvalues, ← List.flatMap_def]⟩

/-- Settles O37: fields hold no wasted bit (`getLsbD_wastedMask`), so decoding does not see them, and a built
word has nothing outside its fields. -/
theorem wastedBitsCarryNothing : Obligations.WastedBitsCarryNothing := by
  refine ⟨by decide, fun x y cap len s s' hcat hcat' hxy => ⟨hxy.wordValues_eq, hxy.exec_eq hcat, ?_⟩,
    fun cap len s s' hcat hcat' hxy => ?_, fun sel cap len s hcat hsel hlen hcap => ?_,
    fun len s hcat hvals => ?_⟩
  · rintro rfl rfl hlen hroom
    refine ⟨_, _, exec_s8Decsel_of_room hcat hlen hroom, ?_⟩
    rw [hxy.wordValues_eq, hxy.wordCount_eq, hxy.1]
    exact exec_s8Decsel_of_room hcat' hlen (hxy.wordCount_eq ▸ hroom)
  · obtain ⟨hcount, hvalues⟩ := inW_alike hxy
    by_cases hroom : totalCount (s.inW len) ≤ cap
    · exact .inl ⟨_, exec_s8Dec_of_room hcat hroom, hvalues ▸ exec_s8Dec_of_room hcat' (hcount ▸ hroom)⟩
    · have hroom := Nat.not_le.mp hroom
      exact .inr ⟨exec_s8Dec_boundsError hcat hroom, exec_s8Dec_boundsError hcat' (hcount ▸ hroom)⟩
  · exact ⟨_, _, exec_s8Encsel_of_room sel hcat hlen hcap, encSel_wasted_zero hsel _⟩
  · obtain ⟨ws, hws⟩ := exists_encodesTo (s.inV64 len) fun v hv => by
      obtain ⟨i, hi, rfl⟩ := mem_inV64 hv
      exact hvals i hi
    exact ⟨ws, fun cap hroom => exec_s8Enc_of_room hcat hws hroom, hws.wasted_zero⟩

end Sys2Proof.Machine

/-! ## The step of a BUSY engine at the start of its command -/

namespace Sys2Proof.Machine

/-- A BUSY engine that no reset interrupts makes its own move, and the host's conduct is taken into account. -/
theorem step_eq_of_busy {s : State} (hbusy : s.run = .busy) (hhost : ∀ rest, s.host ≠ .reset :: rest) :
    step s = onNext (State.settle s.outLimit) (engineMove s.tickHost) := by
  obtain ⟨t, ht⟩ := step_next s
  obtain ⟨u, hmove, rfl⟩ := step_of_busy hbusy hhost ht
  rw [ht, hmove, onNext]

/-- The host's conduct changes nothing in what a command leaves when it kept its duties. -/
theorem onNext_settle_exec {i : Instr} {s : State} (cap : Nat) (hcmd : i.format = .cmd)
    (hkept : s.dutiesKept = true) : onNext (State.settle cap) (exec i s) = exec i s := by
  obtain ⟨t, ht⟩ := exec_next i s
  have hduties : t.dutiesKept = true := by
    rcases exec_command_shape i s t hcmd ht with ⟨r, vals, rfl⟩ | ⟨f, c, rfl⟩ <;> simpa using hkept
  rw [ht, onNext, State.settle_of_kept cap t hduties]

/-- At the start of a command a reserved descriptor raises InvalidArgument (R51, R52). -/
theorem engineMove_of_reject {s : State} {e : Reject} (hstage : s.stage = .command)
    (hdecode : decodeCommand s.desc.d0 s.desc.d1 = .error e) :
    engineMove s = .next (s.raise .invalidArgument 0) := by
  simp [engineMove, commandMove, hstage, hdecode]

/-- Settles O4: the engine's own move at the start of a command, as the descriptor decodes or does not. -/
theorem stepRunsDecodedCommand : Obligations.StepRunsDecodedCommand := by
  intro s hbusy hstage hhost
  have hstage' : s.tickHost.stage = .command := s.tickHost_stage.trans hstage
  rw [step_eq_of_busy hbusy hhost]
  refine ⟨fun i hdecode => ?_, fun e hdecode => ?_⟩
  · rw [engineMove_of_decode hstage' (by simpa using hdecode)]
    exact ⟨rfl, fun hkept => onNext_settle_exec _ (decodeCommand_format hdecode) (by simpa using hkept)⟩
  · rw [engineMove_of_reject hstage' (by simpa using hdecode), onNext]

/-- A descriptor outside the table is rejected: `decodeCommand_ok_iff` names all that are in it. -/
theorem decodeCommand_error_of_reserved {d0 : Word} (d1 : Word)
    (h : fieldRsv d0 ≠ 0 ∨ fieldOp d0 = 0 ∨ 9 ≤ fieldOp d0) : ∃ e, decodeCommand d0 d1 = .error e := by
  cases hd : decodeCommand d0 d1 with
  | error e => exact ⟨e, rfl⟩
  | ok i =>
    obtain ⟨hrsv, hnames⟩ := decodeCommand_ok_iff.mp hd
    obtain ⟨hlo, hhi⟩ := hnames.op_bounds
    omega

/-- A fault that concerns no output element leaves both buffers. -/
theorem State.raise_zero_mem (s : State) (f : FaultKind) : (s.raise f 0).mem = s.mem := by
  simp [State.raise]

/-- Settles O14: a reserved descriptor does not decode, and the fault its step raises (O4) concerns no output
element. -/
theorem reservedDescriptorsRaiseInvalidArgument : Obligations.ReservedDescriptorsRaiseInvalidArgument := by
  intro s hbusy hstage hhost hreserved
  obtain ⟨e, hdecode⟩ := decodeCommand_error_of_reserved s.desc.d1 hreserved
  obtain ⟨-, hreject⟩ := stepRunsDecodedCommand s hbusy hstage hhost
  refine ⟨_, hreject e hdecode, by simp, by simp, fun hkept => ?_⟩
  rw [State.settle_of_kept _ _ (by simpa using hkept)]
  have hrsp : faultRsp .invalidArgument = 0x4000000000000000#64 := by decide
  exact ⟨hrsp, rfl, (State.raise_zero_mem _ _).trans s.tickHost_mem⟩

/-- Settles O8: the decoder evaluated on each word. -/
theorem decodesTheSpecsOwnWords : Obligations.DecodesTheSpecsOwnWords := by
  unfold Obligations.DecodesTheSpecsOwnWords
  decide

end Sys2Proof.Machine

/-! ## Masked mode and the fixed-width round trip -/

namespace Sys2Proof.Machine

/-! The block of a command, value by value -/

theorem inV32_getD (s : State) {n j : Nat} (hj : j < n) : (s.inV32 n).getD j 0#32 = s.readV32 j := by
  simp [State.inV32, List.getD, hj]

theorem inV32_in_range {s : State} {n bw : Nat} (h : ∀ j, j < n → (s.readV32 j).toNat < 2 ^ bw) :
    ∀ x ∈ s.inV32 n, x.toNat < 2 ^ bw := by
  simpa [State.inV32] using h

/-- What is placed for value `j`; beyond the block both sides are zero. -/
theorem map_fwOperand_getD (m : Bool) (bw : Nat) (vals : List (BitVec 32)) (j : Nat) :
    (vals.map (fwOperand m bw)).getD j 0#64 = fwOperand m bw (vals.getD j 0#32) := by
  have hzero : fwOperand m bw 0#32 = 0#64 := by cases m <;> simp [fwOperand]
  rw [← hzero, List.getD_map]

/-! The mask of R73 -/

theorem getLsbD_maskedValue {bw : Nat} (h2 : bw ≤ 32) (x : BitVec 32) (b : Nat) :
    (maskedValue bw x).getLsbD b = (decide (b < bw) && x.getLsbD b) := by
  rw [maskedValue, BitVec.getLsbD_setWidth, BitVec.getLsbD_and, getLsbD_lowMask bw b (by omega),
    BitVec.getLsbD_setWidth]
  by_cases hb : b < bw
  · simp [hb, show b < 32 by omega, show b < 64 by omega]
  · simp [hb]

theorem maskedValue_of_lt {bw : Nat} (h2 : bw ≤ 32) {x : BitVec 32} (hx : x.toNat < 2 ^ bw) :
    maskedValue bw x = x := by
  apply BitVec.eq_of_getLsbD_eq
  intro b _
  rw [getLsbD_maskedValue h2]
  by_cases hb : b < bw
  · simp [hb]
  · have hhigh : x.getLsbD b = false :=
      Nat.testBit_lt_two_pow (hx.trans_le (Nat.pow_le_pow_right (by decide) (Nat.not_lt.mp hb)))
    simp [hhigh]

/-- A block in range is left by the mask. -/
theorem map_maskedValue_of_lt {bw : Nat} (h2 : bw ≤ 32) {vals : List (BitVec 32)}
    (hin : ∀ x ∈ vals, x.toNat < 2 ^ bw) : vals.map (maskedValue bw) = vals :=
  (List.map_congr_left fun x hx => maskedValue_of_lt h2 (hin x hx)).trans vals.map_id

/-- What masked mode places is the masked value, zero-extended. -/
theorem fwOperand_true {bw : Nat} (h2 : bw ≤ 32) (x : BitVec 32) :
    fwOperand true bw x = fwOperand false bw (maskedValue bw x) := by
  apply BitVec.eq_of_getLsbD_eq
  intro b _
  by_cases hb : b < bw
  · rw [fwOperand_low true bw b x h2 hb, fwOperand_low false bw b _ h2 hb, getLsbD_maskedValue h2]
    simp [hb]
  · rw [fwOperand_high true bw b x h2 (Nat.not_lt.mp hb) (.inl rfl)]
    simp [fwOperand, getLsbD_maskedValue h2, hb]

/-- Masked mode packs the masked block (R73). -/
theorem fwPack_true {bw : Nat} (h2 : bw ≤ 32) (vals : List (BitVec 32)) :
    fwPack true bw vals = fwPack false bw (vals.map (maskedValue bw)) := by
  rw [fwPack, fwPack, List.map_map]
  exact congrArg (placeFrom bw 0 · _) (List.map_congr_left fun x _ => fwOperand_true h2 x)

/-- A block in range is packed alike in both modes. -/
theorem fwPack_modes_eq {bw : Nat} (h2 : bw ≤ 32) {vals : List (BitVec 32)}
    (hin : ∀ x ∈ vals, x.toNat < 2 ^ bw) : fwPack true bw vals = fwPack false bw vals := by
  rw [fwPack_true h2, map_maskedValue_of_lt h2 hin]

/-! The bits of a block packed in masked mode -/

section
variable {bw : Nat} {vals : List (BitVec 32)}

theorem masked_operand_high (h2 : bw ≤ 32) :
    ∀ v ∈ vals.map (fwOperand true bw), ∀ k, bw ≤ k → v.getLsbD k = false := by
  intro v hv k hk
  obtain ⟨x, -, rfl⟩ := List.mem_map.mp hv
  exact fwOperand_high true bw k x h2 hk (.inl rfl)

/-- Each field holds the low bits of its own value. -/
theorem globalBit_fwPack_true_field (h2 : bw ≤ 32) (hlen : vals.length ≤ 32) {j b : Nat}
    (hj : j < vals.length) (hb : b < bw) :
    globalBit (fwPack true bw vals) (j * bw + b) = (vals.getD j 0#32).getLsbD b := by
  rw [globalBit_fwPack true bw _ _ (by omega) h2 hlen,
    packedBit_field bw j b _ hb h2 (by simpa using hj) (masked_operand_high h2),
    map_fwOperand_getD, fwOperand_low true bw b _ h2 hb]

/-- No bit beyond the fields is set. -/
theorem globalBit_fwPack_true_past (h1 : 1 ≤ bw) (h2 : bw ≤ 32) (hlen : vals.length ≤ 32) {g : Nat}
    (hg : 32 * bw ≤ g) : globalBit (fwPack true bw vals) g = false := by
  rw [globalBit_fwPack true bw g _ h1 h2 hlen]
  exact packedBit_past (by simpa using hlen) hg (masked_operand_high h2)

/-- A field of the words of a masked block extracts to the masked value. -/
theorem extract_fwPack_true (h1 : 1 ≤ bw) (h2 : bw ≤ 32) (hlen : vals.length ≤ 32) {j : Nat}
    (hj : j < vals.length) : extract bw (fwPack true bw vals) j = maskedValue bw (vals.getD j 0#32) := by
  apply BitVec.eq_of_getLsbD_eq
  intro b _
  rw [getLsbD_extract bw j b _ h1 h2, getLsbD_maskedValue h2]
  by_cases hb : b < bw
  · rw [globalBit_fwPack_true_field h2 hlen hj hb]
  · simp [hb]

/-- The round trip in masked mode (R78). -/
theorem fwUnpack_fwPack_true (h1 : 1 ≤ bw) (h2 : bw ≤ 32) (hlen : vals.length = 32) :
    fwUnpack bw (fwPack true bw vals) = vals.map (maskedValue bw) := by
  have hlength : (fwUnpack bw (fwPack true bw vals)).length = (vals.map (maskedValue bw)).length := by
    simp [fwUnpack, Config.blockLen, hlen]
  refine List.ext_getElem hlength fun j hj _ => ?_
  have hj : j < vals.length := by simpa [fwUnpack, Config.blockLen, hlen] using hj
  simpa [fwUnpack, hj] using extract_fwPack_true h1 h2 hlen.le hj

end

/-- Settles O20. The round trip of masked mode, `fwUnpack_fwPack_true`; a block in range is packed alike in both
modes and left by the mask. -/
theorem fwRoundTrip : Obligations.FwRoundTrip := by
  intro bw m cap cap' s u h1 h2 hroom hroom'
  refine ⟨_, exec_fwEnc_block m s h1 h2 hroom, fwPack_length _ _ _, fun hinput => ?_⟩
  rw [fwPack_length] at hinput ⊢
  have hmasked : fwUnpack bw (fwPack true bw (s.inV32 32)) = (s.inV32 32).map (maskedValue bw) :=
    fwUnpack_fwPack_true h1 h2 (by simp)
  refine ⟨_, exec_fwDec_block u h1 h2 hroom', fun hin => ?_, fun hm => ?_⟩
  · have hrange := inV32_in_range hin
    have hmode : fwPack m bw (s.inV32 32) = fwPack true bw (s.inV32 32) := by
      cases m
      · exact (fwPack_modes_eq h2 hrange).symm
      · rfl
    rw [hinput, hmode, hmasked, map_maskedValue_of_lt h2 hrange]
  · rw [hinput, hm, hmasked]

/-- Settles O17: the words of masked mode, their fields, the bits beyond, and the two modes on a block in
range. -/
theorem fwEncMaskedMode : Obligations.FwEncMaskedMode := by
  intro bw cap s h1 h2 hroom
  refine ⟨⟨_, exec_fwEnc_block true s h1 h2 hroom, fwPack_true h2 _, fun j b hj hb => ?_, fun g hg => ?_⟩,
    fun hin => ?_⟩
  · rw [globalBit_fwPack_true_field h2 (by simp) (by simpa using hj) hb, inV32_getD s hj]
  · exact globalBit_fwPack_true_past h1 h2 (by simp) hg
  · rw [exec_fwEnc_block true s h1 h2 hroom, exec_fwEnc_block false s h1 h2 hroom,
      fwPack_modes_eq h2 (inV32_in_range hin)]

end Sys2Proof.Machine

/-! ## Earlier values, and the values FW.DEC gives -/

namespace Sys2Proof.Machine

/-- Below the start of field `j` a packed run depends on the values before `j` alone: a later field starts above
(R74). -/
theorem packedBit_congr_below {bw j g : Nat} {vs vs' : List Word} (hlen : vs.length = vs'.length)
    (hg : g < j * bw) (h : ∀ i, i < j → vs.getD i 0#64 = vs'.getD i 0#64) :
    packedBit bw vs g = packedBit bw vs' g := by
  rw [packedBit, packedBit, hlen]
  refine congrArg (List.any _) (funext fun i => ?_)
  rcases Nat.lt_or_ge i j with hi | hi
  · rw [h i hi]
  · have hstart : j * bw ≤ i * bw := Nat.mul_le_mul_right _ hi
    simp [show ¬i * bw ≤ g by omega]

/-- Settles O18, by `packedBit_congr_below` on the two blocks. -/
theorem fwEncNeverDisturbsEarlierValues : Obligations.FwEncNeverDisturbsEarlierValues := by
  intro bw j cap m s s' h1 h2 hroom hj hsame
  refine ⟨_, _, exec_fwEnc_block m s h1 h2 hroom, exec_fwEnc_block m s' h1 h2 hroom, fun g hg => ?_⟩
  rw [globalBit_fwPack m bw g _ h1 h2 (by simp), globalBit_fwPack m bw g _ h1 h2 (by simp)]
  refine packedBit_congr_below (by simp) hg fun i hi => ?_
  have hi' : i < 32 := by omega
  rw [map_fwOperand_getD, map_fwOperand_getD, inV32_getD s hi', inV32_getD s' hi', hsame i hi]

theorem fwUnpack_getD (bw : Nat) (ws : List Word) {j : Nat} (hj : j < 32) :
    (fwUnpack bw ws).getD j 0#32 = extract bw ws j := by
  simp [fwUnpack, Config.blockLen, List.getD, hj]

theorem extract_lt {bw : Nat} (h1 : 1 ≤ bw) (h2 : bw ≤ 32) (ws : List Word) (j : Nat) :
    (extract bw ws j).toNat < 2 ^ bw := by
  refine Nat.lt_pow_two_of_testBit _ fun b hb => ?_
  have hbit := getLsbD_extract bw j b ws h1 h2
  rwa [decide_eq_false (Nat.not_lt.mpr hb), Bool.false_and] at hbit

/-- Settles O19: the bits of each value are `getLsbD_extract`, its bound `extract_lt`. -/
theorem fwDecUnpacksBlock : Obligations.FwDecUnpacksBlock := by
  intro bw cap s h1 h2 hroom
  refine ⟨_, exec_fwDec_block s h1 h2 hroom, by simp [fwUnpack, Config.blockLen], fun j hj => ?_⟩
  rw [fwUnpack_getD bw _ hj]
  refine ⟨extract_lt h1 h2 _ j, fun b hb => ?_⟩
  rw [getLsbD_extract bw j b _ h1 h2, decide_eq_true hb, Bool.true_and]

end Sys2Proof.Machine

/-! ## The widths and lengths of the fixed-width scheme -/

namespace Sys2Proof.Machine

theorem width_illegal_iff {bw : Nat} : bw < Config.bwMin ∨ Config.bwMax < bw ↔ bw = 0 ∨ 32 < bw := by
  simp [Config.bwMin, Config.bwMax]

theorem width_legal {bw : Nat} (h1 : 1 ≤ bw) (h2 : bw ≤ 32) : ¬(bw < Config.bwMin ∨ Config.bwMax < bw) := by
  rw [width_illegal_iff]
  omega

/-- Settles O22: the width is tested first, and no illegal one is accepted here. -/
theorem fwWidthOutOfRangeRaisesInvalidArgument : Obligations.FwWidthOutOfRangeRaisesInvalidArgument := by
  intro bw cap len m s hbw
  have hrefused : ¬(bw = 0 ∧ s.params.zeroWidth = .accept) := by
    rintro ⟨rfl, haccept⟩
    simp [haccept] at hbw
  have hillegal : bw < Config.bwMin ∨ Config.bwMax < bw := width_illegal_iff.mpr (by omega)
  simp only [exec, execFwEnc, execFwDec, if_neg hrefused, if_pos hillegal, and_self]

theorem exec_fwEnc_accepted_zero {s : State} (haccept : s.params.zeroWidth = .accept) (m : Bool) (cap len : Nat) :
    exec (.fwEnc 0 m cap len) s = .next (fwEncZeroWidth cap len s) := by
  simp [exec, execFwEnc, haccept]

theorem exec_fwDec_accepted_zero {s : State} (haccept : s.params.zeroWidth = .accept) (cap len : Nat) :
    exec (.fwDec 0 cap len) s = .next (fwDecZeroWidth cap len s) := by
  simp [exec, execFwDec, haccept]

/-- Settles O23. Refused, width 0 is out of range (O22); accepted, the commands have rules of their own. -/
theorem fwZeroWidth : Obligations.FwZeroWidth := by
  refine ⟨rfl, fun cap len m s => ⟨fun hfault => ?_, fun haccept => ?_⟩⟩
  · exact fwWidthOutOfRangeRaisesInvalidArgument 0 cap len m s (.inr ⟨rfl, hfault⟩)
  · rw [exec_fwEnc_accepted_zero haccept, exec_fwDec_accepted_zero haccept, fwEncZeroWidth, fwDecZeroWidth]
    refine ⟨fun hlen => ?_, fun hne hne' => ?_, fun hlen hroom => ?_, fun hbad => ?_⟩
    · rw [if_pos (show len = 0 ∨ len = Config.blockLen from hlen)]
    · rw [if_neg (show ¬(len = 0 ∨ len = Config.blockLen) from not_or.mpr ⟨hne, hne'⟩)]
    · rw [if_neg (by simp [Config.blockLen, hlen, hroom])]
      rfl
    · rw [if_pos (show len ≠ 0 ∨ cap < Config.blockLen from hbad)]

/-- R77 for FW.ENC: what it does at a legal width, by its length and room. -/
theorem exec_fwEnc_of_legal {bw : Nat} (h1 : 1 ≤ bw) (h2 : bw ≤ 32) (m : Bool) (cap len : Nat) (s : State) :
    exec (.fwEnc bw m cap len) s = .next (
      if len = 0 then s.complete {} []
      else if len ≠ 32 ∨ cap < fwWords bw then s.raise .boundsError cap
      else s.complete {} (fwPack m bw (s.inV32 32))) := by
  simp only [exec, execFwEnc]
  rw [if_neg (by omega), if_neg (width_legal h1 h2), ite_or]
  rfl

/-- R77 for FW.DEC. -/
theorem exec_fwDec_of_legal {bw : Nat} (h1 : 1 ≤ bw) (h2 : bw ≤ 32) (cap len : Nat) (s : State) :
    exec (.fwDec bw cap len) s = .next (
      if len = 0 then s.complete {} []
      else if len ≠ fwWords bw ∨ cap < 32 then s.raise .boundsError cap
      else s.complete {} (cellsOfV32 (fwUnpack bw (s.inW (fwWords bw))))) := by
  simp only [exec, execFwDec]
  rw [if_neg (by omega), if_neg (width_legal h1 h2), ite_or]
  rfl

/-- Settles O24, by the two commands' rules at a legal width. -/
theorem fwLengthRules : Obligations.FwLengthRules := by
  intro bw cap len m s h1 h2
  simp only [exec_fwEnc_of_legal h1 h2, exec_fwDec_of_legal h1 h2]
  refine ⟨rfl, rfl, fun hne hbad => ?_, fun hne hbad => ?_⟩
  · rw [if_neg hne, if_pos hbad]
  · rw [if_neg hne, if_pos hbad]

end Sys2Proof.Machine

/-! ## The catalog's contents and CAT.RD -/

namespace Sys2Proof.Machine

/-- R83, items 2 and 3: selectors 2 to 15 have fields, and the two irregular ones waste four payload bits. -/
theorem catalog_payload (sel : Nat) (h : sel < 16) (h2 : 2 ≤ sel) :
    (entryAt romCatalog sel).bits ≠ 0 ∧
    (entryAt romCatalog sel).count * (entryAt romCatalog sel).bits = if sel = 8 ∨ sel = 9 then 56 else 60 := by
  revert sel
  decide

/-- Settles O26. The masks are `lowMask` of a width of at most 60, which has the value R82 gives it; an entry
that has fields has the shift list of R84's formula. -/
theorem catalogShapes : Obligations.CatalogShapes := by
  refine ⟨rfl, rfl, fun sel hsel => ?_, fun sel h2 hsel => ?_⟩
  · obtain ⟨hbits, -, -, hmask, -⟩ := catalog_facts sel hsel
    exact ⟨hmask, by rw [hmask, lowMask_toNat _ (by omega)]⟩
  · obtain ⟨hbits, hpayload⟩ := catalog_payload sel hsel h2
    exact ⟨catalog_shifts sel hsel hbits, hpayload⟩

theorem exec_catRd_of_room (sel : Nat) {cap : Nat} {s : State} (hcat : CatalogIntact s) (hcap : 1 ≤ cap) :
    exec (.catRd sel cap) s =
      .next (s.complete { rsel := sel, rcount := (entryAt romCatalog sel).count,
                          rbits := (entryAt romCatalog sel).bits } [(entryAt romCatalog sel).mask]) := by
  simp only [exec, execCatRd]
  rw [if_neg (Nat.not_lt.mpr hcap), entry_of_intact s sel hcat]

/-- CAT.RD's one fault (R86). -/
theorem exec_catRd_boundsError (sel : Nat) (s : State) :
    exec (.catRd sel 0) s = .next (s.raise .boundsError 0) := by
  simp only [exec, execCatRd]
  rw [if_pos Nat.zero_lt_one]

/-- R86: whatever stands in BW, M and LEN, the descriptor reads as its SEL and CAP. -/
theorem decodeCommand_catRd {bw sel cap len : Nat} (m : Bool) (hbw : bw < 64) (hsel : sel < 16)
    (hcap : cap < 2 ^ 32) (hlen : len < 2 ^ 32) :
    decodeCommand (encodeD0 3 bw m sel) (encodeD1 cap len) = .ok (.catRd sel cap) := by
  have hnames : Names (encodeD0 3 bw m sel) (encodeD1 cap len) (.catRd _ _) :=
    .catRd (fieldOp_encodeD0 3 bw sel m (by decide) hbw hsel)
  rw [fieldSel_encodeD0 3 bw sel m hsel, fieldCap_encodeD1 cap len hcap hlen] at hnames
  exact decodeCommand_ok_iff.mpr ⟨fieldRsv_encodeD0 3 bw sel m, hnames⟩

/-- Settles O27, by CAT.RD's two outcomes and its descriptor. -/
theorem catRdReadsEntry : Obligations.CatRdReadsEntry := by
  refine ⟨fun sel cap s hcat => ⟨exec_catRd_of_room sel hcat, ?_⟩, fun bw m sel cap len => decodeCommand_catRd m⟩
  rintro rfl
  exact exec_catRd_boundsError sel s

end Sys2Proof.Machine

/-! ## The word-level round trip -/

namespace Sys2Proof.Machine

/-- The mask leaves a value that needs no more bits than it has. -/
theorem and_lowMask_of_lt {v : Word} {b : Nat} (hb : b ≤ 64) (hv : v.toNat < 2 ^ b) : v &&& lowMask b = v := by
  apply BitVec.eq_of_toNat_eq
  rw [BitVec.toNat_and, lowMask_toNat b hb, Nat.and_two_pow_sub_one_eq_mod, Nat.mod_eq_of_lt hv]

/-- The bits above the payload are the selector's (R54). -/
theorem testBit_selectorOf (w : Word) {g : Nat} (hg : 60 ≤ g) : (selectorOf w).testBit (g - 60) = w.getLsbD g := by
  rw [selectorOf, BitVec.testBit_toNat, BitVec.getLsbD_extractLsb', Nat.add_sub_of_le hg]
  by_cases htop : g < 64
  · simp [show g - 60 < 4 by omega]
  · rw [BitVec.getLsbD_of_ge _ _ (Nat.not_lt.mp htop), Bool.and_false]

/-- Decoding a built word gives its values back, and zeros for the fields beyond them (R103). -/
theorem wordValues_encSel {sel : Nat} (hsel : sel < 16) {vals : List Word}
    (hlen : vals.length ≤ (entryAt romCatalog sel).count)
    (hfit : ∀ v ∈ vals, v.toNat < 2 ^ (entryAt romCatalog sel).bits) :
    wordValues (encSel (entryAt romCatalog sel) sel vals) =
      vals ++ List.replicate ((entryAt romCatalog sel).count - vals.length) 0#64 := by
  obtain ⟨hbits, -, -, hmask, -⟩ := catalog_facts sel hsel
  rw [wordValues, selectorOf_encSel hsel]
  refine List.ext_getElem (by simp; omega) fun i hi _ => ?_
  have hi : i < (entryAt romCatalog sel).count := by simpa using hi
  rw [← List.getD_eq_getElem _ 0#64, decodeFields_getD _ _ _ hi, fieldValue_encSel hsel _ hi, hmask]
  by_cases hv : i < vals.length
  · rw [List.getD_eq_getElem _ _ hv, and_lowMask_of_lt (by omega) (hfit _ (List.getElem_mem hv)),
      List.getElem_append_left hv]
  · rw [List.getD_eq_default _ _ (by omega), List.getElem_append_right (by omega), List.getElem_replicate,
      BitVec.zero_and]

/-- The field in which bit `g` lies, counted from the first value, and the bit's place in the word again. -/
theorem field_of_bit {bits count g : Nat} (hg : g < count * bits) :
    count - 1 - g / bits < count ∧ bits * (count - 1 - (count - 1 - g / bits)) + g % bits = g := by
  have hfield : g / bits < count := Nat.div_lt_of_lt_mul (by rwa [Nat.mul_comm])
  rw [Nat.sub_sub_self (Nat.le_sub_one_of_lt hfield), Nat.div_add_mod]
  exact ⟨(Nat.sub_le _ _).trans_lt (Nat.sub_one_lt_of_lt hfield), rfl⟩

/-- Building a word from the values of `x` gives `x` with its wasted bits cleared (R103). -/
theorem encSel_wordValues (x : Word) :
    encSel (entryAt romCatalog (selectorOf x)) (selectorOf x) (wordValues x) =
      x &&& ~~~wastedMask (entryAt romCatalog (selectorOf x)) := by
  have hsel := selectorOf_lt x
  obtain ⟨-, -, -, -, hfields⟩ := catalog_facts _ hsel
  apply BitVec.eq_of_getLsbD_eq
  intro g hg
  rw [getLsbD_encSel hsel _ hg, BitVec.getLsbD_and, BitVec.getLsbD_not, getLsbD_wastedMask hsel hg]
  by_cases hfield : g < (entryAt romCatalog (selectorOf x)).count * (entryAt romCatalog (selectorOf x)).bits
  · have hlow : ¬60 ≤ g := by omega
    obtain ⟨hi, hplace⟩ := field_of_bit hfield
    have hb := Nat.mod_lt g (Nat.pos_of_lt_mul_left hfield)
    rw [wordValues, decodeFields_getD _ _ _ hi, getLsbD_fieldValue hsel x hi, hplace]
    simp [hlow, hfield, hb, hg]
  · by_cases htop : 60 ≤ g
    · simp [hfield, htop, hg, testBit_selectorOf x htop]
    · simp [hfield, htop, Nat.not_le.mp htop]

/-- S8.DECSEL on a built word (R103). -/
theorem exec_s8Decsel_encSel {sel cap len : Nat} {s : State} {vals : List Word} (hcat : CatalogIntact s)
    (hsel : sel < 16) (hcount : vals.length ≤ (entryAt romCatalog sel).count)
    (hfit : ∀ v ∈ vals, v.toNat < 2 ^ (entryAt romCatalog sel).bits) (hlen : 1 ≤ len)
    (hcap : (entryAt romCatalog sel).count ≤ cap) (hword : s.readW 0 = encSel (entryAt romCatalog sel) sel vals) :
    exec (.s8Decsel cap len) s =
      .next (s.complete { rsel := sel, rcount := (entryAt romCatalog sel).count,
                          rbits := (entryAt romCatalog sel).bits }
        (vals ++ List.replicate ((entryAt romCatalog sel).count - vals.length) 0#64)) := by
  have hselector : selectorOf (s.readW 0) = sel := by rw [hword, selectorOf_encSel hsel]
  have hvalues := wordValues_encSel hsel hcount hfit
  rw [← hword] at hvalues
  rw [exec_s8Decsel_of_room hcat hlen (by rwa [wordCount, hselector]), hvalues, wordCount, hselector]

/-- Settles O38, by the two directions over a word: `exec_s8Decsel_encSel` and `encSel_wordValues`. -/
theorem wordRoundTrip : Obligations.WordRoundTrip := by
  refine ⟨fun sel cap cap' len len' s u hcat hcat' hsel hlen hcount hcap hlen' hcap' hfit => ?_,
    fun x cap s hcat hcap hvals => ?_⟩
  · have hexec := exec_s8Encsel_of_room sel hcat hlen hcap
    rw [min_eq_right hcount] at hexec
    refine ⟨_, _, hexec, fun hword => ?_⟩
    have hfit' : ∀ v ∈ s.inV64 len, v.toNat < 2 ^ (entryAt romCatalog sel).bits := fun v hv => by
      obtain ⟨i, hi, rfl⟩ := mem_inV64 hv
      exact hfit i hi
    simpa using exec_s8Decsel_encSel hcat' hsel (by simpa using hcount) hfit' hlen' hcap' hword
  · obtain ⟨-, hcount, -⟩ := catalog_facts _ (selectorOf_lt x)
    have hexec := exec_s8Encsel_of_room (selectorOf x) hcat hcount hcap
    rw [min_self, ← wordCount, hvals, encSel_wordValues] at hexec
    exact ⟨_, hexec⟩

end Sys2Proof.Machine

/-! ## The fit test -/

namespace Sys2Proof.Machine

theorem bitsRequired_le_iff (n b : Nat) : bitsRequired n ≤ b ↔ n < 2 ^ b := by
  unfold bitsRequired
  split
  · subst n
    simp
  · exact Nat.log2_lt ‹_›

/-- The fit test of a catalog entry is a comparison with a power of two (R90). -/
theorem fits_entry_iff {sel : Nat} (hsel : sel < 16) (v : Word) :
    fits (entryAt romCatalog sel) v = true ↔ v.toNat < 2 ^ (entryAt romCatalog sel).bits := by
  obtain ⟨hbits, -, -, hmask, -⟩ := catalog_facts sel hsel
  exact fits_iff _ v (by omega) hmask

/-- Entries 0 and 1 have no fields, and they are the only ones. -/
theorem catalog_bits_eq_zero_iff {sel : Nat} (hsel : sel < 16) : (entryAt romCatalog sel).bits = 0 ↔ sel ≤ 1 := by
  revert sel
  decide

theorem toNat_lt_pow_zero_iff (v : Word) : v.toNat < 2 ^ 0 ↔ v = 0#64 := by
  rw [Nat.pow_zero, Nat.lt_one_iff, ← BitVec.toNat_inj, BitVec.toNat_ofNat, Nat.zero_mod]

/-- No field is wider than 60 bits. -/
theorem pow_bits_le {sel : Nat} (hsel : sel < 16) : 2 ^ (entryAt romCatalog sel).bits ≤ 2 ^ 60 :=
  Nat.pow_le_pow_right (by decide) (catalog_facts sel hsel).1

/-- Settles O28, by the test as a comparison (`fits_entry_iff`). -/
theorem fitTestComparesBitsRequired : Obligations.FitTestComparesBitsRequired := by
  intro sel v hsel
  have hfits := fits_entry_iff hsel v
  refine ⟨by rw [hfits, bitsRequired_le_iff], hfits, fun hzero => ?_, fun hbig => ?_⟩
  · rw [hfits, (catalog_bits_eq_zero_iff hsel).mpr hzero, toNat_lt_pow_zero_iff]
  · rw [Bool.eq_false_iff, Ne, hfits, Nat.not_lt]
    exact (pow_bits_le hsel).trans hbig

end Sys2Proof.Machine

/-! ## The selector choice -/

namespace Sys2Proof.Machine

/-- Selector `sel` is valid for the `len` input values (R91): those its entry takes of them fit it. -/
def RunFits (s : State) (len sel : Nat) : Prop :=
  ∀ i, i < min (entryAt romCatalog sel).count len → (s.readV64 i).toNat < 2 ^ (entryAt romCatalog sel).bits

/-- Selector `sel` is the first one valid for the `len` input values. -/
structure FirstFit (s : State) (len sel : Nat) : Prop where
  sel_lt : sel < 16
  fits : RunFits s len sel
  first : ∀ sel', sel' < sel → ¬RunFits s len sel'

/-- What S8.CHOOSE returns with selector `sel` (R91). -/
def chooseResults (len sel : Nat) : Results :=
  { rsel := sel, rcount := min (entryAt romCatalog sel).count len, rbits := (entryAt romCatalog sel).bits }

theorem feasible_iff_runFits {s : State} {len sel : Nat} (hsel : sel < 16) :
    feasible (entryAt romCatalog sel) (s.inV64 len) = true ↔ RunFits s len sel := by
  have htake (n : Nat) : (s.inV64 len).take n = (List.range (min n len)).map s.readV64 := by
    rw [State.inV64, ← List.map_take, List.take_range]
  rw [feasible_iff, htake, List.forall_mem_map, inV64_length]
  simp only [List.mem_range, fits_entry_iff hsel, RunFits, Nat.min_assoc, Nat.min_self]

/-- There is at most one first valid selector. -/
theorem FirstFit.unique {s : State} {len sel sel' : Nat} (h : FirstFit s len sel) (h' : FirstFit s len sel') :
    sel = sel' := by
  rcases Nat.lt_trichotomy sel sel' with hlt | heq | hgt
  · exact absurd h.fits (h'.first _ hlt)
  · exact heq
  · exact absurd h'.fits (h.first _ hgt)

/-- A later selector packs no more values. -/
theorem catalog_count_antitone {sel sel' : Nat} (hsel' : sel' < 16) (h : sel ≤ sel') :
    (entryAt romCatalog sel').count ≤ (entryAt romCatalog sel).count := by
  have hall : ∀ n < 16, ∀ m ≤ n, (entryAt romCatalog n).count ≤ (entryAt romCatalog m).count := by decide
  exact hall sel' hsel' sel h

/-- The choice looks at no more than 240 values (R92). -/
theorem runFits_congr {s s' : State} {len sel : Nat} (hsel : sel < 16)
    (h : ∀ i, i < min 240 len → s'.readV64 i = s.readV64 i) : RunFits s' len sel ↔ RunFits s len sel := by
  obtain ⟨-, -, hcount, -⟩ := catalog_facts sel hsel
  refine forall₂_congr fun i hi => ?_
  rw [h i (hi.trans_le (min_le_min_right len hcount))]

theorem FirstFit.congr {s s' : State} {len sel : Nat} (hfirst : FirstFit s len sel)
    (h : ∀ i, i < min 240 len → s'.readV64 i = s.readV64 i) : FirstFit s' len sel := by
  obtain ⟨hsel, hfits, hnone⟩ := hfirst
  exact ⟨hsel, (runFits_congr hsel h).mpr hfits,
    fun sel' hsel' hfits' => hnone sel' hsel' ((runFits_congr (hsel'.trans hsel) h).mp hfits')⟩

/-- With an input, a valid selector means that the first value is below `2^60`. -/
theorem RunFits.first_lt {s : State} {len sel : Nat} (h : RunFits s len sel) (hsel : sel < 16) (hlen : 1 ≤ len) :
    (s.readV64 0).toNat < 2 ^ 60 := by
  obtain ⟨-, hcount, -⟩ := catalog_facts sel hsel
  exact (h 0 (lt_min hcount hlen)).trans_le (pow_bits_le hsel)

/-- Selector 15 takes one value below `2^60` (R94). -/
theorem runFits_last {s : State} {len : Nat} (h : (s.readV64 0).toNat < 2 ^ 60) : RunFits s len 15 := by
  intro i hi
  obtain rfl : i = 0 := Nat.lt_one_iff.mp (hi.trans_le (min_le_left _ _))
  exact h

theorem not_runFits_iff {s : State} {len sel : Nat} :
    ¬RunFits s len sel ↔ ∃ i, i < min (entryAt romCatalog sel).count len ∧
      2 ^ (entryAt romCatalog sel).bits ≤ (s.readV64 i).toNat := by
  simp only [RunFits, not_forall, Nat.not_lt, exists_prop]

/-- A first value below `2^60` has a first valid selector (R94). -/
theorem exists_firstFit {s : State} {len : Nat} (h : (s.readV64 0).toNat < 2 ^ 60) : ∃ sel, FirstFit s len sel := by
  classical
  have hlast : ∃ sel, RunFits s len sel := ⟨15, runFits_last h⟩
  have hle : Nat.find hlast ≤ 15 := Nat.find_min' hlast (runFits_last h)
  exact ⟨Nat.find hlast, by omega, Nat.find_spec hlast, fun _ hlt => Nat.find_min hlast hlt⟩

theorem firstFit_of_choose {s : State} {len sel c : Nat} (h : choose romCatalog (s.inV64 len) = some (sel, c)) :
    FirstFit s len sel ∧ c = min (entryAt romCatalog sel).count len := by
  obtain ⟨hsel, hc, hfeasible, hnone⟩ := choose_some h
  rw [inV64_length] at hc
  refine ⟨⟨hsel, (feasible_iff_runFits hsel).mp hfeasible, fun sel' hlt hfits => ?_⟩, hc⟩
  exact Bool.eq_false_iff.mp (hnone sel' hlt) ((feasible_iff_runFits (hlt.trans hsel)).mpr hfits)

/-- The scan of the catalog answers the first valid selector and its count (R91). -/
theorem choose_of_firstFit {s : State} {len sel : Nat} (h : FirstFit s len sel) :
    choose romCatalog (s.inV64 len) = some (sel, min (entryAt romCatalog sel).count len) := by
  cases hchoose : choose romCatalog (s.inV64 len) with
  | none =>
    have hmem : entryAt romCatalog sel ∈ romCatalog := by
      rw [entryAt, List.getD_eq_getElem _ _ (show sel < romCatalog.length from h.sel_lt)]
      exact List.getElem_mem _
    exact absurd ((feasible_iff_runFits h.sel_lt).mpr h.fits)
      (Bool.eq_false_iff.mp (chooseFrom_none _ _ _ hchoose _ hmem))
  | some r =>
    obtain ⟨sel', c⟩ := r
    obtain ⟨hfirst, rfl⟩ := firstFit_of_choose hchoose
    rw [hfirst.unique h]

/-! What S8.CHOOSE does, in its three cases -/

section
variable {s : State} (hcat : CatalogIntact s)
include hcat

theorem exec_s8Choose_of_firstFit {len sel : Nat} (hlen : 1 ≤ len) (h : FirstFit s len sel) :
    exec (.s8Choose len) s = .next (s.complete (chooseResults len sel) []) := by
  have hrom : s.cat = romCatalog := hcat
  simp only [exec, execS8Choose, hrom, choose_of_firstFit h, entry_of_intact s sel hcat]
  rw [if_neg (by omega), chooseResults]

theorem exec_s8Choose_invalidArgument {len : Nat} (hlen : 1 ≤ len) (hbig : 2 ^ 60 ≤ (s.readV64 0).toNat) :
    exec (.s8Choose len) s = .next (s.raise .invalidArgument 0) := by
  have hrom : s.cat = romCatalog := hcat
  have hnone : choose romCatalog (s.inV64 len) = none := by
    refine Option.eq_none_iff_forall_ne_some.mpr fun r hsome => ?_
    obtain ⟨hfirst, -⟩ := firstFit_of_choose hsome
    exact absurd (hfirst.fits.first_lt hfirst.sel_lt hlen) (Nat.not_lt.mpr hbig)
  simp only [exec, execS8Choose, hrom, hnone]
  rw [if_neg (by omega)]

end

theorem exec_s8Choose_boundsError (s : State) : exec (.s8Choose 0) s = .next (s.raise .boundsError 0) := rfl

/-- Settles O29: there is a first valid selector (`exists_firstFit`), and S8.CHOOSE returns it. -/
theorem chooseReturnsFirstFeasible : Obligations.ChooseReturnsFirstFeasible := by
  intro len s hcat hlen hfirst
  obtain ⟨sel, h⟩ := exists_firstFit (len := len) hfirst
  have hexec := exec_s8Choose_of_firstFit hcat hlen h
  obtain ⟨hsel, hfits, hnone⟩ := h
  obtain ⟨-, hcount, hcount', -⟩ := catalog_facts sel hsel
  refine ⟨sel, _, hsel, rfl, le_min hcount hlen, min_le_min_right len hcount', hexec, fun i hi => ?_,
    fun sel' hlt => ?_⟩
  · exact (bitsRequired_le_iff _ _).mpr (hfits i hi)
  · obtain ⟨i, hi, hbig⟩ := not_runFits_iff.mp (hnone sel' hlt)
    exact ⟨i, hi, Nat.not_le.mp fun hle => Nat.not_lt.mpr hbig ((bitsRequired_le_iff _ _).mp hle)⟩

end Sys2Proof.Machine

/-! ## The responses of S8.CHOOSE -/

namespace Sys2Proof.Machine

theorem rspRsel_okRsp {r : Results} {n : Nat} (hr : r.Legal) (hn : n < 2 ^ 32) : rspRsel (okRsp r n) = r.rsel := by
  obtain ⟨hrsel, hrcount, hrbits⟩ := hr
  exact rspRsel_rspWord _ _ _ _ _ hrsel (by omega) (by omega) hn

theorem rspRcount_okRsp {r : Results} {n : Nat} (hr : r.Legal) (hn : n < 2 ^ 32) :
    rspRcount (okRsp r n) = r.rcount := by
  obtain ⟨-, hrcount, hrbits⟩ := hr
  exact rspRcount_rspWord _ _ _ _ _ (by omega) (by omega) hn

theorem chooseResults_legal (len : Nat) {sel : Nat} (hsel : sel < 16) : (chooseResults len sel).Legal := by
  obtain ⟨hbits, -, hcount, -⟩ := catalog_facts sel hsel
  exact ⟨hsel, (min_le_left _ _).trans hcount, hbits⟩

/-- The response of S8.CHOOSE with selector `sel`, field by field. -/
theorem okRsp_chooseResults_fields (len : Nat) {sel : Nat} (hsel : sel < 16) :
    rspStatus (okRsp (chooseResults len sel) 0) = 0 ∧ rspRsel (okRsp (chooseResults len sel) 0) = sel ∧
      rspRcount (okRsp (chooseResults len sel) 0) = min (entryAt romCatalog sel).count len :=
  have hlegal := chooseResults_legal len hsel
  ⟨rspStatus_okRsp hlegal (by decide), rspRsel_okRsp hlegal (by decide), rspRcount_okRsp hlegal (by decide)⟩

/-- A fault's response is not OK. -/
theorem not_ok_of_exec_raise {i : Instr} {s t : State} {f : FaultKind} {cap : Nat}
    (hraise : exec i s = .next (s.raise f cap)) (hexec : exec i s = .next t) : rspStatus t.rsp ≠ 0 := by
  rw [hraise] at hexec
  cases hexec
  exact rspStatus_faultRsp_ne_zero f

section
variable {s t : State} {len : Nat} (hcat : CatalogIntact s)
include hcat

/-- Everything S8.CHOOSE can do: its two faults (R95, R104), or the first valid selector (R91). -/
theorem exec_s8Choose_cases (len : Nat) :
    (len = 0 ∧ exec (.s8Choose len) s = .next (s.raise .boundsError 0)) ∨
    (1 ≤ len ∧ 2 ^ 60 ≤ (s.readV64 0).toNat ∧ exec (.s8Choose len) s = .next (s.raise .invalidArgument 0)) ∨
    (1 ≤ len ∧ ∃ sel, FirstFit s len sel ∧
      exec (.s8Choose len) s = .next (s.complete (chooseResults len sel) [])) := by
  rcases Nat.eq_zero_or_pos len with rfl | hlen
  · exact .inl ⟨rfl, exec_s8Choose_boundsError s⟩
  rcases Nat.lt_or_ge (s.readV64 0).toNat (2 ^ 60) with hsmall | hbig
  · obtain ⟨sel, h⟩ := exists_firstFit (len := len) hsmall
    exact .inr (.inr ⟨hlen, sel, h, exec_s8Choose_of_firstFit hcat hlen h⟩)
  · exact .inr (.inl ⟨hlen, hbig, exec_s8Choose_invalidArgument hcat hlen hbig⟩)

/-- The response where there is a first valid selector. -/
theorem rsp_of_firstFit {sel : Nat} (hlen : 1 ≤ len) (h : FirstFit s len sel)
    (hexec : exec (.s8Choose len) s = .next t) : t.rsp = okRsp (chooseResults len sel) 0 := by
  rw [exec_s8Choose_of_firstFit hcat hlen h] at hexec
  cases hexec
  rfl

/-- A response without a fault names the first valid selector. -/
theorem firstFit_of_ok (hexec : exec (.s8Choose len) s = .next t) (hok : rspStatus t.rsp = 0) :
    1 ≤ len ∧ FirstFit s len (rspRsel t.rsp) := by
  rcases exec_s8Choose_cases hcat len with ⟨-, hraise⟩ | ⟨-, -, hraise⟩ | ⟨hlen, sel, h, -⟩
  · exact absurd hok (not_ok_of_exec_raise hraise hexec)
  · exact absurd hok (not_ok_of_exec_raise hraise hexec)
  · rw [rsp_of_firstFit hcat hlen h hexec, (okRsp_chooseResults_fields len h.sel_lt).2.1]
    exact ⟨hlen, h⟩

end

/-- Settles O30. The first valid selector takes at least as many values as a later one
(`catalog_count_antitone`), and whether a selector is valid depends on 240 values at most. -/
theorem chooseIsGreedy : Obligations.ChooseIsGreedy := by
  intro len s s' t t' hcat hcat' hexec hok
  obtain ⟨hlen, h⟩ := firstFit_of_ok hcat hexec hok
  have hrsp := rsp_of_firstFit hcat hlen h hexec
  generalize rspRsel t.rsp = sel at *
  refine ⟨fun sel' hsel' hfits => ?_, fun hsame hexec' => ?_⟩
  · have hle : sel ≤ sel' := Nat.not_lt.mp fun hlt => h.first sel' hlt hfits
    rw [hrsp, (okRsp_chooseResults_fields len h.sel_lt).2.2]
    exact ⟨min_le_min_right len (catalog_count_antitone hsel' hle), fun _ => hle⟩
  · rw [hrsp, rsp_of_firstFit hcat' hlen (h.congr hsame) hexec']

/-! Runs of zeros (R93) -/

theorem catalog_count_zero : (entryAt romCatalog 0).count = 240 := rfl

theorem catalog_count_one : (entryAt romCatalog 1).count = 120 := rfl

/-- Selectors 0 and 1 are valid for zeros alone. -/
theorem runFits_iff_zeros {s : State} {len sel : Nat} (hsel : sel ≤ 1) :
    RunFits s len sel ↔ ∀ i, i < min (entryAt romCatalog sel).count len → s.readV64 i = 0#64 := by
  simp only [RunFits, (catalog_bits_eq_zero_iff (by omega)).mpr hsel, toNat_lt_pow_zero_iff]

/-- 240 leading zeros, or as many as there are values. -/
theorem firstFit_zero {s : State} {len : Nat} (h : ∀ i, i < min 240 len → s.readV64 i = 0#64) :
    FirstFit s len 0 :=
  ⟨by decide, (runFits_iff_zeros (by decide)).mpr h, fun _ hlt => absurd hlt (Nat.not_lt_zero _)⟩

/-- 120 leading zeros, and a value that is none among the first 240. -/
theorem firstFit_one {s : State} {len z : Nat} (h : ∀ i, i < min 120 len → s.readV64 i = 0#64)
    (hz : z < min 240 len) (hne : s.readV64 z ≠ 0#64) : FirstFit s len 1 := by
  refine ⟨by decide, (runFits_iff_zeros le_rfl).mpr h, fun sel hlt hfits => hne ?_⟩
  obtain rfl : sel = 0 := Nat.lt_one_iff.mp hlt
  exact (runFits_iff_zeros (by decide)).mp hfits z hz

/-- Settles O31: which selector is the first valid one for a run of leading zeros. -/
theorem chooseZeroRuns : Obligations.ChooseZeroRuns := by
  intro len z s t hcat hlen hz hzeros hexec
  have hresponse {sel : Nat} (h : FirstFit s len sel) : rspStatus t.rsp = 0 ∧ rspRsel t.rsp = sel ∧
      rspRcount t.rsp = min (entryAt romCatalog sel).count len := by
    rw [rsp_of_firstFit hcat hlen h hexec]
    exact okRsp_chooseResults_fields len h.sel_lt
  have hreturned (hok : rspStatus t.rsp = 0) : RunFits s len (rspRsel t.rsp) :=
    (firstFit_of_ok hcat hexec hok).2.fits
  refine ⟨fun hok hsel => ?_, fun hok hsel => ?_, fun hlong => ?_, fun hlong hshort hlt hne => ?_,
    fun hshort hlt hne hok => ?_, fun hall hshort => ?_⟩
  · exact (runFits_iff_zeros (by decide)).mp (hsel ▸ hreturned hok)
  · exact (runFits_iff_zeros le_rfl).mp (hsel ▸ hreturned hok)
  · obtain ⟨hok, hsel, hcount⟩ := hresponse (firstFit_zero fun i hi => hzeros i (by omega))
    rw [catalog_count_zero] at hcount
    exact ⟨hok, hsel, by omega⟩
  · obtain ⟨hok, hsel, hcount⟩ := hresponse
      (firstFit_one (fun i hi => hzeros i (by omega)) (show z < min 240 len by omega) hne)
    rw [catalog_count_one] at hcount
    exact ⟨hok, hsel, by omega⟩
  · by_contra hsel
    have hsel : rspRsel t.rsp ≤ 1 := by omega
    have hcount : 120 ≤ (entryAt romCatalog (rspRsel t.rsp)).count :=
      catalog_count_one.ge.trans (catalog_count_antitone (by decide) hsel)
    exact hne ((runFits_iff_zeros hsel).mp (hreturned hok) z (by omega))
  · obtain ⟨hok, hsel, hcount⟩ := hresponse (firstFit_zero fun i hi => hzeros i (by omega))
    rw [catalog_count_zero] at hcount
    exact ⟨hok, hsel, by omega⟩

/-! The faults (R95, R104) -/

/-- A command that completes leaves another response than one that raises a fault. -/
theorem complete_ne_raise {s : State} {r : Results} (hr : r.Legal) (f : FaultKind) (cap : Nat) :
    s.complete r [] ≠ s.raise f cap := by
  intro h
  have hrsp := congrArg State.rsp h
  rw [State.complete_rsp, State.raise_rsp] at hrsp
  exact rspStatus_faultRsp_ne_zero f (hrsp ▸ rspStatus_okRsp hr (by decide))

/-- The two faults have different codes (R49). -/
theorem raise_kind_inj {s : State} {f f' : FaultKind} {cap : Nat} (h : s.raise f cap = s.raise f' cap) : f = f' := by
  have hstatus := congrArg rspStatus (congrArg State.rsp h)
  rw [State.raise_rsp, State.raise_rsp, rspStatus_faultRsp, rspStatus_faultRsp] at hstatus
  revert hstatus
  cases f <;> cases f' <;> decide

/-- Settles O32: the three cases of S8.CHOOSE exclude each other, and so do the states they end in. -/
theorem chooseFaults : Obligations.ChooseFaults := by
  intro len s hcat
  have hkind : FaultKind.boundsError ≠ .invalidArgument := by decide
  rcases exec_s8Choose_cases hcat len with ⟨rfl, hexec⟩ | ⟨hlen, hbig, hexec⟩ | ⟨hlen, sel, h, hexec⟩
  · rw [hexec]
    exact ⟨iff_of_true rfl rfl, iff_of_false (hkind ∘ raise_kind_inj ∘ Host.Outcome.next.inj) (by simp)⟩
  · rw [hexec]
    exact ⟨iff_of_false (hkind.symm ∘ raise_kind_inj ∘ Host.Outcome.next.inj) (by omega),
      iff_of_true rfl ⟨hlen, hbig⟩⟩
  · have hends (f : FaultKind) := complete_ne_raise (s := s) (chooseResults_legal len h.sel_lt) f 0
    have hsmall := h.fits.first_lt h.sel_lt hlen
    rw [hexec]
    exact ⟨iff_of_false (hends _ ∘ Host.Outcome.next.inj) (by omega),
      iff_of_false (hends _ ∘ Host.Outcome.next.inj) fun hbig => Nat.not_lt.mpr hbig.2 hsmall⟩

end Sys2Proof.Machine

/-! ## S8.DECSEL, and the words as passes of the S8.DEC loop -/

namespace Sys2Proof.Machine

theorem wordValues_getD (w : Word) {i : Nat} (hi : i < wordCount w) :
    (wordValues w).getD i 0#64 = fieldValue (entryAt romCatalog (selectorOf w)) w i :=
  decodeFields_getD _ w i hi

theorem fieldValue_lt {sel : Nat} (hsel : sel < 16) (w : Word) {i : Nat} (hi : i < (entryAt romCatalog sel).count) :
    (fieldValue (entryAt romCatalog sel) w i).toNat < 2 ^ (entryAt romCatalog sel).bits := by
  refine Nat.lt_pow_two_of_testBit _ fun b hb => ?_
  have hbit := getLsbD_fieldValue hsel w hi (b := b)
  rwa [decide_eq_false (Nat.not_lt.mpr hb), Bool.false_and] at hbit

/-- Settles O36: the bits of each value are `getLsbD_fieldValue`, its bound `fieldValue_lt`. -/
theorem decselReturnsFields : Obligations.DecselReturnsFields := by
  intro cap len s hcat hlen hroom
  refine ⟨_, exec_s8Decsel_of_room hcat hlen hroom, wordValues_length _, fun i hi => ?_⟩
  have hsel := selectorOf_lt (s.readW 0)
  have hi : i < wordCount (s.readW 0) := by rwa [wordValues_length] at hi
  rw [wordValues_getD _ hi]
  refine ⟨fieldValue_lt hsel _ hi, fun b hb => ?_⟩
  rw [getLsbD_fieldValue hsel _ hi, decide_eq_true hb, Bool.true_and, wordCount]

/-- A pass of the loop without room for its word (R115). -/
theorem exec_decodeWord_boundsError {w : Word} {s : State} (hcat : CatalogIntact s)
    (hroom : s.descCap < s.emitted.length + wordCount w) :
    exec (decodeWord w) s = .next (s.raise .boundsError s.descCap) := by
  rw [exec_decodeWord, runWord, emitWord_error _ _ _ hcat hroom]

/-- Settles O46: every `S8W` instruction is what its word decodes to, and a decoded word runs as one pass. -/
theorem wordsRunAsDecLoopPasses : Obligations.WordsRunAsDecLoopPasses := by
  intro i w s hs8w hencode hcat
  obtain ⟨sel, p, -, hword, -, hdecode⟩ := encode_of_s8w hs8w
  obtain rfl : w = wordOf sel p := List.singleton_inj.mp (hencode.symm.trans hword)
  rw [← hdecode]
  exact ⟨fun hroom => ⟨exec_decodeWord_of_room hcat hroom, wordValues_length _⟩,
    exec_decodeWord_boundsError hcat⟩

end Sys2Proof.Machine

/-! ## The faults of the word commands, and the words of the irregular selectors -/

namespace Sys2Proof.Machine

/-- S8.DECSEL without room for its word's run, whatever LEN is (R105). -/
theorem exec_s8Decsel_boundsError {cap : Nat} (len : Nat) {s : State} (hcat : CatalogIntact s)
    (hroom : cap < wordCount (s.readW 0)) :
    exec (.s8Decsel cap len) s = .next (s.raise .boundsError cap) := by
  simp only [exec, execS8Decsel, entry_of_intact s _ hcat]
  rcases Nat.eq_zero_or_pos len with rfl | hlen
  · rfl
  · rw [if_neg hlen.ne']
    exact congrArg _ (if_pos hroom)

/-- S8.ENCSEL without room for its word, whatever LEN is. -/
theorem exec_s8Encsel_boundsError (sel len : Nat) (s : State) :
    exec (.s8Encsel sel 0 len) s = .next (s.raise .boundsError 0) := by
  simp only [exec, execS8Encsel]
  rw [if_pos Nat.zero_lt_one, ite_self]

/-- Settles O34: LEN is tested first, and the room after it. -/
theorem wordCommandsRaiseBoundsError : Obligations.WordCommandsRaiseBoundsError :=
  fun sel _ len s hcat =>
    ⟨rfl, rfl, exec_s8Encsel_boundsError sel len s, exec_s8Decsel_boundsError len hcat⟩

/-- R99's word of selector 8. -/
theorem encSel_eight : encSel (entryAt romCatalog 8) 8 [0, 1, 2, 3, 4, 5, 6, 7] = 0x8000041030814307#64 := by
  decide

/-- The word of selector 9 that R99 derives by analogy. -/
theorem encSel_nine : encSel (entryAt romCatalog 9) 9 [1, 2, 3, 4, 5, 6, 7] = 0x9001020304050607#64 := by
  decide

theorem catalog_eight : (entryAt romCatalog 8).count = 8 ∧ (entryAt romCatalog 8).bits = 7 := by decide

theorem catalog_nine : (entryAt romCatalog 9).count = 7 ∧ (entryAt romCatalog 9).bits = 8 := by decide

/-- Settles O35: the literal words built, and taken apart as the words they are built as. -/
theorem irregularSelectorWords : Obligations.IrregularSelectorWords := by
  intro s hcat
  refine ⟨fun hvals => ?_, fun hword => ?_, fun hvals => ?_, fun hword => ?_⟩
  · have hexec := exec_s8Encsel_of_room 8 hcat (show 1 ≤ 8 by decide) le_rfl
    rwa [catalog_eight.1, catalog_eight.2, min_self, hvals, encSel_eight] at hexec
  · have hfit : ∀ v ∈ ([0, 1, 2, 3, 4, 5, 6, 7] : List Word), v.toNat < 2 ^ (entryAt romCatalog 8).bits := by
      simp [catalog_eight.2]
    exact exec_s8Decsel_encSel hcat (by decide) (by decide) hfit le_rfl (by decide) (hword.trans encSel_eight.symm)
  · have hexec := exec_s8Encsel_of_room 9 hcat (show 1 ≤ 7 by decide) le_rfl
    rwa [catalog_nine.1, catalog_nine.2, min_self, hvals, encSel_nine] at hexec
  · have hfit : ∀ v ∈ ([1, 2, 3, 4, 5, 6, 7] : List Word), v.toNat < 2 ^ (entryAt romCatalog 9).bits := by
      simp [catalog_nine.2]
    exact exec_s8Decsel_encSel hcat (by decide) (by decide) hfit le_rfl (by decide) (hword.trans encSel_nine.symm)

end Sys2Proof.Machine

/-! ## What the encoder of streams writes, decoded -/

namespace Sys2Proof.Machine

theorem flatMap_wordValues_length (ws : List Word) : (ws.flatMap wordValues).length = totalCount ws := by
  simp [List.length_flatMap, totalCount]

/-- The choice fills its word, or takes all the values that are left (R112). -/
theorem choose_full_or_last {vals : List Word} {sel c : Nat} (h : choose romCatalog vals = some (sel, c)) :
    c ≤ vals.length ∧ c ≤ (entryAt romCatalog sel).count ∧
      (c = (entryAt romCatalog sel).count ∨ vals.drop c = []) := by
  obtain ⟨-, rfl, -⟩ := choose_some h
  rw [List.drop_eq_nil_iff]
  omega

/-- A run takes at least one value (R109). -/
theorem one_le_of_choose {v : Word} {vs : List Word} {sel c : Nat} (h : choose romCatalog (v :: vs) = some (sel, c)) :
    1 ≤ c := by
  obtain ⟨hsel, rfl, -⟩ := choose_some h
  exact le_min (catalog_facts sel hsel).2.1 (Nat.succ_pos _)

/-- The values chosen fit the selector's fields (R91). -/
theorem choose_fits {vals : List Word} {sel c : Nat} (h : choose romCatalog vals = some (sel, c)) :
    ∀ v ∈ vals.take c, v.toNat < 2 ^ (entryAt romCatalog sel).bits := by
  obtain ⟨hsel, rfl, hfeasible, -⟩ := choose_some h
  exact fun v hv => (fits_entry_iff hsel v).mp ((feasible_iff _ _).mp hfeasible v hv)

/-- The word of one run decodes to the run and, for the fields beyond it, zeros (R103). -/
theorem wordValues_of_choose {vals : List Word} {sel c : Nat} (h : choose romCatalog vals = some (sel, c)) :
    wordValues (encSel (entryAt romCatalog sel) sel (vals.take c)) =
      vals.take c ++ List.replicate ((entryAt romCatalog sel).count - c) 0#64 := by
  obtain ⟨hlen, hcount, -⟩ := choose_full_or_last h
  have htake : (vals.take c).length = c := by simpa using hlen
  rw [wordValues_encSel (choose_some h).1 (htake.trans_le hcount) (choose_fits h), htake]

theorem wordCount_encSel {sel : Nat} (hsel : sel < 16) (vals : List Word) :
    wordCount (encSel (entryAt romCatalog sel) sel vals) = (entryAt romCatalog sel).count := by
  rw [wordCount, selectorOf_encSel hsel]

/-- The words of a stream decode to the stream and, for the fields beyond it, zeros (R114, R116): a run
with values after it has no field beyond it. -/
theorem EncodesTo.flatMap_wordValues {vals ws : List Word} (h : EncodesTo vals ws) :
    ∃ pad, ws.flatMap wordValues = vals ++ List.replicate pad 0#64 := by
  induction h with
  | nil => exact ⟨0, rfl⟩
  | @run v vs ws sel c hchoose hrest ih =>
    obtain ⟨pad, hpad⟩ := ih
    rw [List.flatMap_cons, wordValues_of_choose hchoose, hpad]
    obtain ⟨-, -, rfl | hlast⟩ := choose_full_or_last hchoose
    · refine ⟨pad, ?_⟩
      rw [Nat.sub_self, List.replicate_zero, List.append_nil, ← List.append_assoc, List.take_append_drop]
    · refine ⟨(entryAt romCatalog sel).count - c + pad, ?_⟩
      rw [hlast, List.nil_append, List.append_assoc, List.replicate_append_replicate,
        List.take_of_length_le (List.drop_eq_nil_iff.mp hlast)]

theorem exists_encodesTo_inV64 {s : State} {len : Nat} (h : ∀ i, i < len → (s.readV64 i).toNat < 2 ^ 60) :
    ∃ ws, EncodesTo (s.inV64 len) ws := by
  refine exists_encodesTo _ fun v hv => ?_
  obtain ⟨i, hi, rfl⟩ := mem_inV64 hv
  exact h i hi

/-- Settles O43: the decoder gives the stream with its padding (`EncodesTo.flatMap_wordValues`), and the
counts of the words add up to the length of both. -/
theorem streamRoundTrip : Obligations.StreamRoundTrip := by
  intro len s hcat hvals
  obtain ⟨ws, hws⟩ := exists_encodesTo_inV64 hvals
  refine ⟨ws, fun cap hroom => exec_s8Enc_of_room hcat hws hroom, fun u cap' hcat' hinput hroom => ?_⟩
  obtain ⟨pad, hpad⟩ := hws.flatMap_wordValues
  have hdec := exec_s8Dec_of_room hcat' (hinput.symm ▸ hroom)
  have hcount := flatMap_wordValues_length ws
  rw [hinput, hpad] at hdec
  rw [hpad, List.length_append, inV64_length, List.length_replicate] at hcount
  refine ⟨_, hdec, by simp, ?_, fun i hi => ?_, ?_⟩
  · rw [List.take_left' (inV64_length s len)]
  · rw [List.getD_append_right _ _ _ _ (by simpa using hi)]
    simp
  · rw [List.append_right_eq_self, List.replicate_eq_nil_iff]
    omega

end Sys2Proof.Machine

/-! ## S8.ENC: its words, their number and their padding -/

namespace Sys2Proof.Machine

/-- S8.ENC without room for its words (R110). -/
theorem exec_s8Enc_boundsError {cap len : Nat} {s : State} {ws : List Word} (hcat : CatalogIntact s)
    (h : EncodesTo (s.inV64 len) ws) (hroom : cap < ws.length) :
    exec (.s8Enc cap len) s = .next (s.raise .boundsError cap) := by
  have hrom : s.cat = romCatalog := hcat
  simp only [exec, execS8Enc, hrom, encodeRuns_of_encodesTo h, if_neg (Nat.not_le.mpr hroom)]

theorem wordCount_bounds (w : Word) : 1 ≤ wordCount w ∧ wordCount w ≤ 240 := by
  obtain ⟨-, hpos, hmax, -⟩ := catalog_facts _ (selectorOf_lt w)
  exact ⟨hpos, hmax⟩

@[simp] theorem totalCount_nil : totalCount [] = 0 := rfl

@[simp] theorem totalCount_cons (w : Word) (ws : List Word) :
    totalCount (w :: ws) = wordCount w + totalCount ws := by simp [totalCount]

/-- Every word stands for at least one value and at most 240 (R83). -/
theorem totalCount_bounds (ws : List Word) : ws.length ≤ totalCount ws ∧ totalCount ws ≤ 240 * ws.length := by
  induction ws with
  | nil => simp
  | cons w ws ih =>
    obtain ⟨hpos, hmax⟩ := wordCount_bounds w
    rw [totalCount_cons, List.length_cons]
    omega

/-- The words of a stream stand for all its values. -/
theorem EncodesTo.length_le_totalCount {vals ws : List Word} (h : EncodesTo vals ws) :
    vals.length ≤ totalCount ws := by
  obtain ⟨pad, hpad⟩ := h.flatMap_wordValues
  rw [← flatMap_wordValues_length, hpad, List.length_append]
  exact Nat.le_add_right _ _

/-- No values give no words. -/
theorem EncodesTo.words_of_nil {ws : List Word} (h : EncodesTo [] ws) : ws = [] := by
  cases h
  rfl

/-- Some values give some words. -/
theorem EncodesTo.words_ne_nil {vals ws : List Word} (h : EncodesTo vals ws) (hne : vals ≠ []) : ws ≠ [] := by
  cases h with
  | nil => exact absurd rfl hne
  | run => exact List.cons_ne_nil _ _

/-- The words before the last one do not stand for all the values (R112): a run with values after it fills
its word. -/
theorem EncodesTo.totalCount_dropLast_lt {vals ws : List Word} (h : EncodesTo vals ws) (hne : vals ≠ []) :
    totalCount ws.dropLast < vals.length := by
  induction h with
  | nil => exact absurd rfl hne
  | @run v vs ws sel c hchoose hrest ih =>
    obtain ⟨hlen, -, hfull⟩ := choose_full_or_last hchoose
    by_cases hlast : (v :: vs).drop c = []
    · rw [hlast] at hrest
      simp [hrest.words_of_nil]
    · have hcount : c = (entryAt romCatalog sel).count := hfull.resolve_right hlast
      have hrest' := ih hlast
      rw [List.length_drop] at hrest'
      rw [List.dropLast_cons_of_ne_nil (hrest.words_ne_nil hlast), totalCount_cons,
        wordCount_encSel (choose_some hchoose).1]
      omega

/-- A stream has no more words than values (R109). -/
theorem EncodesTo.length_le {vals ws : List Word} (h : EncodesTo vals ws) : ws.length ≤ vals.length := by
  rcases List.eq_nil_or_concat vals with rfl | ⟨vs, v, rfl⟩
  · simp [h.words_of_nil]
  · have hlt := h.totalCount_dropLast_lt (by simp)
    have hle := (totalCount_bounds ws.dropLast).1
    rw [List.length_dropLast] at hle
    omega

/-- Settles O39, by the room tested before each word and the bounds on the counts of words. -/
theorem encEncodesStream : Obligations.EncEncodesStream := by
  intro len s hcat hvals
  obtain ⟨ws, hws⟩ := exists_encodesTo_inV64 hvals
  have hcount := hws.length_le_totalCount.trans (totalCount_bounds ws).2
  exact ⟨ws, by simpa using hws.length_le, by simpa using hcount,
    fun cap hroom => exec_s8Enc_of_room hcat hws hroom, fun cap hroom => exec_s8Enc_boundsError hcat hws hroom⟩

theorem inV64_ne_nil (s : State) {len : Nat} (hlen : 1 ≤ len) : s.inV64 len ≠ [] :=
  List.ne_nil_of_length_pos (hlen.trans_eq (inV64_length s len).symm)

/-- A stream of one run has one word. -/
theorem encodesTo_of_choose_all {vals : List Word} {sel : Nat} (hne : vals ≠ [])
    (h : choose romCatalog vals = some (sel, vals.length)) :
    EncodesTo vals [encSel (entryAt romCatalog sel) sel vals] := by
  obtain ⟨v, vs, rfl⟩ := List.exists_cons_of_ne_nil hne
  have hrun := EncodesTo.run h (by rw [List.drop_length]; exact .nil)
  rwa [List.take_length] at hrun

/-- Selector 0 has no field, so its word is the selector alone. -/
theorem encSel_zero (vals : List Word) : encSel (entryAt romCatalog 0) 0 vals = 0#64 := by
  cases vals <;> rfl

/-- Fewer than 240 zeros and nothing else are the all-zero Word (R112). -/
theorem encodesTo_zeros {s : State} {len : Nat} (hlen : 1 ≤ len) (hshort : len < 240)
    (hzeros : ∀ i, i < len → s.readV64 i = 0#64) : EncodesTo (s.inV64 len) [0#64] := by
  have hchoose := choose_of_firstFit (firstFit_zero (len := len) fun i hi => hzeros i (by omega))
  rw [catalog_count_zero, min_eq_right hshort.le] at hchoose
  rw [← encSel_zero (s.inV64 len)]
  exact encodesTo_of_choose_all (inV64_ne_nil s hlen) (by simpa using hchoose)

/-- Settles O41, by the counts of the words (`EncodesTo.totalCount_dropLast_lt`) and, for zeros alone, by the
choice of selector 0. -/
theorem encPadsLastWordOnly : Obligations.EncPadsLastWordOnly := by
  refine ⟨fun len s hcat hlen hvals => ?_, fun cap len s hcat hlen hshort hcap hzeros => ?_⟩
  · obtain ⟨ws, hws⟩ := exists_encodesTo_inV64 hvals
    have hne := inV64_ne_nil s hlen
    exact ⟨ws, hws.words_ne_nil hne, fun cap hroom => exec_s8Enc_of_room hcat hws hroom,
      by simpa using hws.totalCount_dropLast_lt hne, by simpa using hws.length_le_totalCount⟩
  · exact exec_s8Enc_of_room hcat (encodesTo_zeros hlen hshort hzeros) hcap

end Sys2Proof.Machine

/-! ## S8.ENC on a stream with a value it cannot encode -/

namespace Sys2Proof.Machine

/-- A run does not reach a value of `2^60` or more. -/
theorem choose_stops_before {pre post : List Word} {big : Word} (hbig : 2 ^ 60 ≤ big.toNat) {sel c : Nat}
    (h : choose romCatalog (pre ++ big :: post) = some (sel, c)) : c ≤ pre.length := by
  by_contra hlong
  obtain ⟨n, hn⟩ : ∃ n, c - pre.length = n + 1 := ⟨c - pre.length - 1, by omega⟩
  have hmem : big ∈ (pre ++ big :: post).take c := by
    rw [List.take_append, hn, List.take_succ_cons]
    simp
  exact absurd ((choose_fits h big hmem).trans_le (pow_bits_le (choose_some h).1)) (Nat.not_lt.mpr hbig)

theorem choose_none_of_first_big {big : Word} (post : List Word) (hbig : 2 ^ 60 ≤ big.toNat) :
    choose romCatalog (big :: post) = none := by
  refine Option.eq_none_iff_forall_ne_some.mpr fun ⟨sel, c⟩ hsome => ?_
  have hstops : c ≤ 0 := choose_stops_before (pre := []) hbig hsome
  exact absurd ((one_le_of_choose hsome).trans hstops) (by decide)

/-- `FaultsAfter vals n`: the S8.ENC loop with no end of room writes `n` words for the values `vals` and then
comes to a run that has no selector (R95, R110). -/
inductive FaultsAfter : List Word → Nat → Prop where
  | fault {v : Word} {vs : List Word} (hchoose : choose romCatalog (v :: vs) = none) : FaultsAfter (v :: vs) 0
  | run {v : Word} {vs : List Word} {sel c n : Nat} (hchoose : choose romCatalog (v :: vs) = some (sel, c))
      (hrest : FaultsAfter ((v :: vs).drop c) n) : FaultsAfter (v :: vs) (n + 1)

/-- With room for the words before it the loop comes to that run, and with less it does not (R110). -/
theorem encodeRuns_of_faultsAfter {vals : List Word} {n : Nat} (h : FaultsAfter vals n) (room : Nat) :
    encodeRuns romCatalog room vals = .error (if n ≤ room then .invalidArgument else .boundsError) := by
  induction h generalizing room with
  | fault hchoose => cases room <;> simp [encodeRuns, hchoose]
  | run hchoose _ ih =>
    cases room with
    | zero => simp [encodeRuns, hchoose]
    | succ room => simp [encodeRuns, hchoose, ih]

/-- Every run before the first value of `2^60` or more takes at least one value and stops before that one. -/
theorem exists_faultsAfter (pre : List Word) {big : Word} (post : List Word) (hbig : 2 ^ 60 ≤ big.toNat)
    (hpre : ∀ v ∈ pre, v.toNat < 2 ^ 60) :
    ∃ n, n ≤ pre.length ∧ (n = 0 ↔ pre.length = 0) ∧ FaultsAfter (pre ++ big :: post) n := by
  match pre with
  | [] => exact ⟨0, le_rfl, Iff.rfl, .fault (choose_none_of_first_big post hbig)⟩
  | v :: vs =>
    obtain ⟨sel, c, hchoose, hc⟩ := choose_of_first_fits (vs ++ big :: post) (hpre v List.mem_cons_self)
    have hstops : c ≤ (v :: vs).length := choose_stops_before hbig hchoose
    obtain ⟨n, hn, -, hfault⟩ := exists_faultsAfter ((v :: vs).drop c) post hbig
      fun u hu => hpre u (List.mem_of_mem_drop hu)
    rw [← List.drop_append_of_le_length hstops] at hfault
    rw [List.length_drop] at hn
    exact ⟨n + 1, by omega, by simp, .run hchoose hfault⟩
termination_by pre.length
decreasing_by simp; omega

/-- The input split at one of its values. -/
theorem inV64_split (s : State) {len p : Nat} (hp : p < len) :
    ∃ post, s.inV64 len = s.inV64 p ++ s.readV64 p :: post := by
  refine ⟨(s.inV64 len).drop (p + 1), ?_⟩
  have htake : (s.inV64 len).take p = s.inV64 p := by
    rw [State.inV64, ← List.map_take, List.take_range, min_eq_left hp.le, State.inV64]
  have hget : (s.inV64 len)[p]'(by simpa using hp) = s.readV64 p := by simp [State.inV64]
  rw [← htake, ← hget, List.getElem_cons_drop, List.take_append_drop]

/-- S8.ENC on such a stream. -/
theorem exec_s8Enc_of_faultsAfter {cap len n : Nat} {s : State} (hcat : CatalogIntact s)
    (h : FaultsAfter (s.inV64 len) n) :
    exec (.s8Enc cap len) s = .next (s.raise (if n ≤ cap then .invalidArgument else .boundsError) cap) := by
  have hrom : s.cat = romCatalog := hcat
  simp only [exec, execS8Enc, hrom, encodeRuns_of_faultsAfter h]

/-- Settles O40: the words before the first value of `2^60` or more are at most its predecessors, and the loop
comes to it when there is room for them. -/
theorem encFaultsInStreamOrder : Obligations.EncFaultsInStreamOrder := by
  intro len p s hcat hp hbig hsmall
  obtain ⟨post, hsplit⟩ := inV64_split s hp
  obtain ⟨n, hle, hzero, hfault⟩ := exists_faultsAfter (s.inV64 p) post hbig fun v hv => by
    obtain ⟨i, hi, rfl⟩ := mem_inV64 hv
    exact hsmall i hi
  rw [← hsplit] at hfault
  rw [inV64_length] at hle hzero
  refine ⟨n, hle, hzero, fun cap hroom => ?_, fun cap hroom => ?_⟩
  · rw [exec_s8Enc_of_faultsAfter hcat hfault, if_pos hroom]
  · rw [exec_s8Enc_of_faultsAfter hcat hfault, if_neg (Nat.not_le.mpr hroom)]

end Sys2Proof.Machine

/-! ## S8.DEC: its words one by one -/

namespace Sys2Proof.Machine

/-- Settles O42, by the S8.DEC loop with room for all its words and without. -/
theorem decDecodesWords : Obligations.DecDecodesWords := by
  intro cap len s hcat
  exact ⟨fun hroom => ⟨exec_s8Dec_of_room hcat hroom, flatMap_wordValues_length _⟩, exec_s8Dec_boundsError hcat⟩

theorem totalCount_append (ws ws' : List Word) : totalCount (ws ++ ws') = totalCount ws + totalCount ws' := by
  simp [totalCount]

theorem inW_one (s : State) : s.inW 1 = [s.readW 0] := rfl

/-- Settles O44: the values of a list of words are those of its parts, one after the other, and S8.DECSEL writes
the values of one word. -/
theorem decWordsAreIndependent : Obligations.DecWordsAreIndependent := by
  refine ⟨fun n m cap s a b hcat hcatA hcatB hjoin hroom => ?_, fun cap s hcat hroom => ?_⟩
  · have hdec := exec_s8Dec_of_room hcat hroom
    rw [hjoin, totalCount_append] at hroom
    rw [hjoin, List.flatMap_append] at hdec
    exact ⟨_, _, exec_s8Dec_of_room hcatA (by omega), exec_s8Dec_of_room hcatB (by omega), hdec⟩
  · have hdec := exec_s8Dec_of_room (len := 1) hcat (by simpa [inW_one] using hroom)
    rw [inW_one, List.flatMap_singleton] at hdec
    exact ⟨_, _, hdec, exec_s8Decsel_of_room hcat le_rfl hroom⟩

/-- Settles O53: every `S8W` instruction runs as its word (`runWord_cases`). -/
theorem wordFrame : Obligations.WordFrame := by
  intro i s t hs8w hexec
  obtain ⟨sel, p, -, -, -, hdecode⟩ := encode_of_s8w hs8w
  rw [← hdecode, exec_decodeWord] at hexec
  obtain rfl := Host.Outcome.next.inj hexec
  rcases runWord_cases (wordOf sel p) s with ⟨hroom, hpass⟩ | ⟨-, hraise⟩
  · exact .inl ⟨_, hpass, by rwa [decodeFields_length]⟩
  · exact .inr hraise

end Sys2Proof.Machine

/-! ## The steps of the S8.DEC loop -/

namespace Sys2Proof.Machine

theorem State.tickHost_readW (s : State) (i : Nat) : s.tickHost.readW i = s.readW i := by
  simp [State.readW, State.inCell]

theorem State.tickHost_descLen (s : State) : s.tickHost.descLen = s.descLen := by
  simp [State.descLen]

/-- Inside the loop the engine's move is the word at the cursor. -/
theorem engineMove_of_word {s : State} (hstage : s.stage = .words) (hcur : s.cur < s.descLen) :
    engineMove s = exec (decodeWord (s.readW s.cur)) s := by
  simp [engineMove, wordsMove, hstage, hcur]

/-- With its words exhausted the command completes (R113). -/
theorem engineMove_of_exhausted {s : State} (hstage : s.stage = .words) (hcur : s.descLen ≤ s.cur) :
    engineMove s = .next (s.complete {} s.emitted) := by
  simp [engineMove, wordsMove, hstage, hcur]

theorem runWord_dutiesKept (w : Word) (s : State) : (runWord w s).dutiesKept = s.dutiesKept := by
  rcases runWord_cases w s with ⟨-, hpass⟩ | ⟨-, hraise⟩
  · rw [hpass]
  · rw [hraise, State.raise_dutiesKept]

/-- The host's conduct changes nothing in what a word leaves when it kept its duties. -/
theorem onNext_settle_decodeWord (cap : Nat) (w : Word) {s : State} (hkept : s.dutiesKept = true) :
    onNext (State.settle cap) (exec (decodeWord w) s) = exec (decodeWord w) s := by
  rw [exec_decodeWord, onNext, State.settle_of_kept _ _ ((runWord_dutiesKept w s).trans hkept)]

/-- Settles O5: the engine's own move inside the loop, before its words are exhausted and after. -/
theorem stepRunsWordAtCursor : Obligations.StepRunsWordAtCursor := by
  intro s hbusy hstage hhost
  have hstage' : s.tickHost.stage = .words := s.tickHost_stage.trans hstage
  rw [step_eq_of_busy hbusy hhost]
  refine ⟨fun hcur => ?_, fun hcur => ?_⟩
  · rw [engineMove_of_word hstage' (by simpa [State.tickHost_descLen] using hcur), State.tickHost_readW,
      State.tickHost_cur]
    exact ⟨rfl, fun hkept => onNext_settle_decodeWord _ _ (by simpa using hkept)⟩
  · rw [engineMove_of_exhausted hstage' (by simpa [State.tickHost_descLen] using hcur), onNext,
      State.tickHost_emitted]

/-! Word by word and as one step -/

/-- The S8.DEC loop from a state in it to the end of its command, for the words left. -/
def finishWords (cap : Nat) (ws : List Word) (s : State) : State :=
  match emitWords cap ws s with
  | .ok t => t.complete {} t.emitted
  | .error f => s.raise f cap

/-- S8.DEC is the loop from its start (R113). -/
theorem exec_s8Dec_eq_finishWords (cap len : Nat) (s : State) :
    exec (.s8Dec cap len) s = .next (finishWords cap (s.inW len) s.beginWords) := rfl

theorem finishWords_nil (cap : Nat) (s : State) : finishWords cap [] s = s.complete {} s.emitted := rfl

theorem emitWord_pass {cap : Nat} {w : Word} {s t : State} (h : emitWord cap w s = .ok t) :
    t = { s with emitted := s.emitted ++ decodeFields (s.entry (selectorOf w)) w, cur := s.cur + 1 } := by
  unfold emitWord at h
  split at h <;> cases h
  rfl

/-- A fault later in the loop does not know of the values produced before it (R124). -/
theorem finishWords_cons_of_ok {cap : Nat} {w : Word} {s t : State} (ws : List Word) (h : emitWord cap w s = .ok t) :
    finishWords cap (w :: ws) s = finishWords cap ws t := by
  have hraise (f : FaultKind) : s.raise f cap = t.raise f cap := by
    rw [emitWord_pass h]
    rfl
  simp only [finishWords, emitWords, h, hraise]

theorem finishWords_cons_of_error {cap : Nat} {w : Word} {s : State} {f : FaultKind} (ws : List Word)
    (h : emitWord cap w s = .error f) : finishWords cap (w :: ws) s = s.raise f cap := by
  simp only [finishWords, emitWords, h]

/-- An engine in the S8.DEC loop, with no host input to come and the host's duties kept. -/
structure InQuietLoop (s : State) : Prop where
  busy : s.run = .busy
  words : s.stage = .words
  quiet : s.host = []
  kept : s.dutiesKept = true

/-- A pass leaves the engine in the loop. -/
theorem InQuietLoop.of_emitWord {cap : Nat} {w : Word} {s t : State} (hs : InQuietLoop s)
    (h : emitWord cap w s = .ok t) : InQuietLoop t := by
  rw [emitWord_pass h]
  exact ⟨hs.busy, hs.words, hs.quiet, hs.kept⟩

theorem State.tickHost_of_quiet {s : State} (h : s.host = []) : s.tickHost = s := by
  simp [State.tickHost, h]

section
variable {s : State} (hs : InQuietLoop s)
include hs

theorem step_of_quiet_word (hcur : s.cur < s.descLen) : step s = .next (runWord (s.readW s.cur) s) := by
  obtain ⟨hword, -⟩ := stepRunsWordAtCursor s hs.busy hs.words (by simp [hs.quiet])
  rw [(hword hcur).2 hs.kept, State.tickHost_of_quiet hs.quiet, exec_decodeWord]

theorem step_of_quiet_exhausted (hcur : s.descLen ≤ s.cur) : step s = .next (s.complete {} s.emitted) := by
  obtain ⟨-, hend⟩ := stepRunsWordAtCursor s hs.busy hs.words (by simp [hs.quiet])
  rw [hend hcur, State.tickHost_of_quiet hs.quiet, State.settle_of_kept _ _ (by simpa using hs.kept)]

end

theorem run_core_succ {s t : State} (n : Nat) (h : step s = .next t) :
    Host.Core.run Sys2Proof.core (n + 1) s = Host.Core.run Sys2Proof.core n t := by
  have hstep : Sys2Proof.core.step s = .next t := h
  simp only [Host.Core.run, hstep]

/-- An IDLE engine with nothing issued stands still. -/
theorem run_core_of_idle {s : State} (n : Nat) (hrun : s.run = .idle) (hquiet : s.host = []) :
    Host.Core.run Sys2Proof.core n s = .next s := by
  induction n with
  | zero => rfl
  | succ n ih => rw [run_core_succ n (step_of_idle hrun hquiet), ih]

/-- One step for each of the `n` words left and one more bring the loop to its end. -/
theorem run_core_of_quiet_loop (n : Nat) {s : State} (hs : InQuietLoop s) (hcur : s.cur + n = s.descLen) :
    Host.Core.run Sys2Proof.core (n + 1) s =
      .next (finishWords s.descCap ((List.range' s.cur n).map s.readW) s) := by
  induction n generalizing s with
  | zero =>
    rw [run_core_succ 0 (step_of_quiet_exhausted hs hcur.ge), List.range'_zero, List.map_nil, finishWords_nil]
    rfl
  | succ n ih =>
    rw [run_core_succ _ (step_of_quiet_word hs (by omega)), List.range'_succ, List.map_cons, runWord]
    cases hpass : emitWord s.descCap (s.readW s.cur) s with
    | error f =>
      rw [finishWords_cons_of_error _ hpass]
      exact run_core_of_idle _ rfl hs.quiet
    | ok t =>
      have ht := hs.of_emitWord hpass
      rw [finishWords_cons_of_ok _ hpass]
      obtain rfl := emitWord_pass hpass
      exact ih ht ((Nat.succ_add_eq_add_succ _ _).trans hcur)

/-- Settles O47, by induction on the words left (`run_core_of_quiet_loop`). -/
theorem wordStepsRefineDec : Obligations.WordStepsRefineDec := by
  intro s hquiet hkept
  have hloop : InQuietLoop s.beginWords := ⟨rfl, rfl, hquiet, hkept⟩
  rw [run_core_of_quiet_loop s.descLen hloop (Nat.zero_add _), exec_s8Dec_eq_finishWords, State.inW,
    List.range_eq_range']
  rfl

end Sys2Proof.Machine

/-! ## The host's loop over the word commands -/

namespace Sys2Proof.Machine

theorem inV64_of_input {s : State} {vals : List Word} (h : s.mem.input = vals) : s.inV64 vals.length = vals := by
  rw [inV64_eq_take s _ (by rw [h]), h, List.take_length]

/-- S8.CHOOSE on a buffer that holds the values. -/
theorem exec_s8Choose_of_choose {s : State} {vals : List Word} {sel c : Nat} (hcat : CatalogIntact s)
    (hinput : s.mem.input = vals) (hne : vals ≠ []) (h : choose romCatalog vals = some (sel, c)) :
    exec (.s8Choose vals.length) s = .next (s.complete (chooseResults vals.length sel) []) := by
  rw [← inV64_of_input hinput] at h
  exact exec_s8Choose_of_firstFit hcat (List.length_pos_of_ne_nil hne) (firstFit_of_choose h).1

/-- S8.ENCSEL returns no selector, and else what S8.CHOOSE does. -/
theorem encselResults_legal (len : Nat) {sel : Nat} (hsel : sel < 16) :
    (⟨0, min (entryAt romCatalog sel).count len, (entryAt romCatalog sel).bits⟩ : Results).Legal := by
  obtain ⟨-, hcount, hbits⟩ := chooseResults_legal len hsel
  exact ⟨Nat.succ_pos _, hcount, hbits⟩

/-- S8.ENCSEL with the selector chosen, on the same buffer, builds the word of the run. -/
theorem exec_s8Encsel_of_choose {s : State} {vals : List Word} {sel c : Nat} (hcat : CatalogIntact s)
    (hinput : s.mem.input = vals) (hne : vals ≠ []) (h : choose romCatalog vals = some (sel, c)) :
    exec (.s8Encsel sel 1 vals.length) s =
      .next (s.complete ⟨0, c, (entryAt romCatalog sel).bits⟩
        [encSel (entryAt romCatalog sel) sel (vals.take c)]) := by
  obtain ⟨-, rfl, -⟩ := choose_some h
  have htake (n : Nat) (hn : n ≤ vals.length) : s.inV64 n = vals.take n := by
    rw [inV64_eq_take s n (by rwa [hinput]), hinput]
  rw [exec_s8Encsel_of_room sel hcat (List.length_pos_of_ne_nil hne) le_rfl, htake _ (min_le_right _ _)]

/-- The S8.CHOOSE that the host issues for what is left of its stream (R118). -/
def chooseIssue (vals : List Word) : Issue :=
  { d0 := encodeD0 4 0 false 0, d1 := encodeD1 0 vals.length, input := vals, output := [], dutiesKept := true }

/-- The S8.ENCSEL that it issues next, with the selector returned. -/
def encselIssue (sel : Nat) (vals : List Word) : Issue :=
  { d0 := encodeD0 5 0 false sel, d1 := encodeD1 1 vals.length, input := vals, output := [0#64],
    dutiesKept := true }

/-- One pass of the host's loop: selector `sel` and `c` values chosen, word `w` built. -/
theorem hostEncodeLoop_pass {fuel sel c : Nat} {v w : Word} {vs ws : List Word} {s t u : State}
    (hchoose : exec (.s8Choose (v :: vs).length) (s.accept (chooseIssue (v :: vs))) = .next t)
    (hchosen : rspStatus t.rsp = 0) (hsel : rspRsel t.rsp = sel) (hcount : rspRcount t.rsp = c)
    (hencsel : exec (.s8Encsel sel 1 (v :: vs).length) (t.accept (encselIssue sel (v :: vs))) = .next u)
    (hbuilt : rspStatus u.rsp = 0) (hword : u.mem.output.getD 0 0#64 = w)
    (hrest : hostEncodeLoop fuel ((v :: vs).drop c) u = some ws) :
    hostEncodeLoop (fuel + 1) (v :: vs) s = some (w :: ws) := by
  unfold chooseIssue at hchoose
  unfold encselIssue at hencsel
  simp only [hostEncodeLoop, hchoose, hchosen, hsel, hcount, hencsel, hbuilt, hword, hrest, ne_eq,
    not_true_eq_false, if_false]

/-- The host's loop gives the words of S8.ENC, with a pass for each value at most (R118). -/
theorem hostEncodeLoop_of_encodesTo {vals ws : List Word} (h : EncodesTo vals ws) {fuel : Nat} {s : State}
    (hcat : CatalogIntact s) (hfuel : vals.length ≤ fuel) : hostEncodeLoop fuel vals s = some ws := by
  induction h generalizing fuel s with
  | nil => cases fuel <;> rfl
  | @run v vs ws sel c hchoose hrest ih =>
    obtain ⟨hsel, hc, -⟩ := choose_some hchoose
    obtain ⟨hchosen, hrsel, hrcount⟩ := okRsp_chooseResults_fields (v :: vs).length hsel
    have hbuilt : rspStatus (okRsp ⟨0, c, (entryAt romCatalog sel).bits⟩ 1) = 0 :=
      hc ▸ rspStatus_okRsp (encselResults_legal (v :: vs).length hsel) (by decide)
    have hne := List.cons_ne_nil v vs
    have hpos := one_le_of_choose hchoose
    obtain ⟨fuel, rfl⟩ := Nat.exists_eq_succ_of_ne_zero (Nat.ne_of_gt ((Nat.succ_pos _).trans_le hfuel))
    have hrest_length : ((v :: vs).drop c).length ≤ fuel := by
      rw [List.length_drop]
      omega
    have hencsel := exec_s8Encsel_of_choose
      (s := ((s.accept (chooseIssue (v :: vs))).complete (chooseResults (v :: vs).length sel) []).accept
        (encselIssue sel (v :: vs))) hcat rfl hne hchoose
    exact hostEncodeLoop_pass (exec_s8Choose_of_choose hcat rfl hne hchoose) hchosen hrsel
      (hrcount.trans hc.symm) hencsel hbuilt rfl (ih hcat hrest_length)

/-- Settles O45, by induction on the words (`hostEncodeLoop_of_encodesTo`). -/
theorem hostLoopEqualsEnc : Obligations.HostLoopEqualsEnc := by
  intro vals s u cap hcat hcat' _ hcap hvals hinput
  obtain ⟨ws, hws⟩ := exists_encodesTo vals hvals
  exact ⟨ws, hostEncodeLoop_of_encodesTo hws hcat le_rfl,
    exec_s8Enc_of_room hcat' (hinput.symm ▸ hws) (hws.length_le.trans hcap)⟩

end Sys2Proof.Machine

/-! ## Raising a fault -/

namespace Sys2Proof.Machine

/-- Settles O6: a BUSY engine's move has a next state because every instruction has one (`exec_next`). -/
theorem everyStepHasNextState : Obligations.EveryStepHasNextState := ⟨step_next, exec_next⟩

/-- R124: beside its code a fault's response carries nothing. -/
theorem faultRsp_fields (f : FaultKind) : rspRsel (faultRsp f) = 0 ∧ rspRcount (faultRsp f) = 0 ∧
    rspRbits (faultRsp f) = 0 ∧ rspZero (faultRsp f) = 0 ∧ rspNout (faultRsp f) = 0 :=
  ⟨rspRsel_rspWord _ _ _ _ _ (by decide) (by decide) (by decide) (by decide),
    rspRcount_rspWord _ _ _ _ _ (by decide) (by decide) (by decide),
    rspRbits_rspWord _ _ _ _ _ (by decide) (by decide), rspZero_rspWord _ _ _ _ _ (by decide),
    rspNout_faultRsp f⟩

/-- Settles O48: the response word read back field by field, and the frame of `State.raise`. -/
theorem raiseLeavesCodeAndNothingElse : Obligations.RaiseLeavesCodeAndNothingElse := by
  intro s f cap
  obtain ⟨hrsel, hrcount, hrbits, hzero, hnout⟩ := faultRsp_fields f
  exact ⟨rfl, rspStatus_faultRsp f, hrsel, hrcount, hrbits, hzero, hnout, rfl, rfl, rfl, rfl, ⟨s.draws, rfl⟩, rfl⟩

end Sys2Proof.Machine

/-! ## The output buffer after a fault -/

namespace Sys2Proof.Machine

/-- A fault that the command's response reports is one it has raised, over an output buffer of `cap` elements.
(`EndsWithin` does not fix that buffer, and `WritesWithin` does not exclude that the results of a command that
completed spill into STATUS.) -/
def RaisedIfReported (cap : Nat) (s t : State) : Prop := rspStatus t.rsp ≠ 0 → ∃ f, t = s.raise f cap

section
variable {cap : Nat} {s : State}

theorem RaisedIfReported.raise (f : FaultKind) : RaisedIfReported cap s (s.raise f cap) := fun _ => ⟨f, rfl⟩

/-- A command that completes with legal results reports no fault. -/
theorem RaisedIfReported.complete {r : Results} {vals : List Word} (hr : r.Legal) (hn : vals.length < 2 ^ 32) :
    RaisedIfReported cap s (s.complete r vals) :=
  fun hreported => absurd (rspStatus_okRsp hr hn) hreported

theorem RaisedIfReported.ite {p : Prop} [Decidable p] {a b : State} (ha : RaisedIfReported cap s a)
    (hb : RaisedIfReported cap s b) : RaisedIfReported cap s (if p then a else b) := by
  split
  · exact ha
  · exact hb

theorem execFwEnc_raisedIfReported {bw : Nat} (hbw : bw < 64) (m : Bool) (len : Nat) :
    ∃ t, execFwEnc bw m cap len s = .next t ∧ RaisedIfReported cap s t :=
  ⟨_, rfl,
    .ite (.ite (.complete legal_default (by decide)) (.raise _)) <|
    .ite (.raise _) <|
    .ite (.complete legal_default (by decide)) <|
    .ite (.raise _) <|
    .ite (.raise _) <|
    .complete legal_default (by rw [fwPack_length, fwWords]; omega)⟩

theorem execFwDec_raisedIfReported (bw len : Nat) :
    ∃ t, execFwDec bw cap len s = .next t ∧ RaisedIfReported cap s t :=
  ⟨_, rfl,
    .ite (.ite (.raise _) (.complete legal_default (by decide))) <|
    .ite (.raise _) <|
    .ite (.complete legal_default (by decide)) <|
    .ite (.raise _) <|
    .ite (.raise _) <|
    .complete legal_default (by simp [cellsOfV32, fwUnpack, Config.blockLen])⟩

theorem execS8Enc_raisedIfReported (hcap : cap < 2 ^ 32) (len : Nat) :
    ∃ t, execS8Enc cap len s = .next t ∧ RaisedIfReported cap s t := by
  refine ⟨_, rfl, ?_⟩
  cases h : encodeRuns s.cat cap (s.inV64 len) with
  | ok ws => exact .complete legal_default ((encodeRuns_length h).trans_lt hcap)
  | error f => exact .raise f

section
variable (hcat : CatalogIntact s)
include hcat

theorem execCatRd_raisedIfReported {sel : Nat} (hsel : sel < 16) :
    ∃ t, execCatRd sel cap s = .next t ∧ RaisedIfReported cap s t :=
  ⟨_, rfl, .ite (.raise _) (.complete (legal_of_entry hcat hsel hsel le_rfl) (Nat.one_lt_two_pow (by decide)))⟩

theorem execS8Encsel_raisedIfReported {sel : Nat} (hsel : sel < 16) (len : Nat) :
    ∃ t, execS8Encsel sel cap len s = .next t ∧ RaisedIfReported cap s t :=
  ⟨_, rfl,
    .ite (.raise _) <|
    .ite (.raise _) <|
    .complete (legal_of_entry hcat hsel (by decide) (min_le_left _ _)) (Nat.one_lt_two_pow (by decide))⟩

theorem exec_s8Choose_raisedIfReported (len : Nat) :
    ∃ t, exec (.s8Choose len) s = .next t ∧ RaisedIfReported 0 s t := by
  rcases exec_s8Choose_cases hcat len with ⟨-, hexec⟩ | ⟨-, -, hexec⟩ | ⟨-, sel, hfirst, hexec⟩
  · exact ⟨_, hexec, .raise _⟩
  · exact ⟨_, hexec, .raise _⟩
  · exact ⟨_, hexec, .complete (chooseResults_legal len hfirst.sel_lt) (by decide)⟩

theorem execS8Decsel_raisedIfReported (len : Nat) :
    ∃ t, execS8Decsel cap len s = .next t ∧ RaisedIfReported cap s t := by
  have hsel := selectorOf_lt (s.readW 0)
  obtain ⟨-, -, hcount, -⟩ := catalog_facts _ hsel
  refine ⟨_, rfl, .ite (.raise _) (.ite (.raise _) (.complete (legal_of_entry hcat hsel hsel le_rfl) ?_))⟩
  rw [decodeFields_length, entry_of_intact s _ hcat]
  exact hcount.trans_lt (by decide)

theorem exec_s8Dec_raisedIfReported (hcap : cap < 2 ^ 32) (len : Nat) :
    ∃ t, exec (.s8Dec cap len) s = .next t ∧ RaisedIfReported cap s t := by
  rcases Nat.lt_or_ge cap (totalCount (s.inW len)) with hsmall | hroom
  · exact ⟨_, exec_s8Dec_boundsError hcat hsmall, .raise _⟩
  · refine ⟨_, exec_s8Dec_of_room hcat hroom, .complete legal_default ?_⟩
    rw [flatMap_wordValues_length]
    exact hroom.trans_lt hcap

end

end

/-- Every command raises the fault it reports, over its own output buffer. -/
theorem exec_raisedIfReported {i : Instr} {s t : State} (hcmd : i.format = .cmd) (hwf : WellFormed i = true)
    (hcat : CatalogIntact s) (h : exec i s = .next t) : RaisedIfReported (outCap i s) s t := by
  suffices ∃ u, exec i s = .next u ∧ RaisedIfReported (outCap i s) s u by
    obtain ⟨u, hu, hraised⟩ := this
    exact Host.Outcome.next.inj (hu.symm.trans h) ▸ hraised
  have hcap := outCap_lt hcmd hwf s
  cases i with
  | fwEnc bw m cap len =>
    simp only [WellFormed, bwFits, Bool.and_eq_true, decide_eq_true_eq] at hwf
    exact execFwEnc_raisedIfReported hwf.1.1 m len
  | fwDec bw cap len => exact execFwDec_raisedIfReported bw len
  | catRd sel cap =>
    simp only [WellFormed, selFits, Bool.and_eq_true, decide_eq_true_eq] at hwf
    exact execCatRd_raisedIfReported hcat hwf.1
  | s8Choose len => exact exec_s8Choose_raisedIfReported hcat len
  | s8Encsel sel cap len =>
    simp only [WellFormed, selFits, Bool.and_eq_true, decide_eq_true_eq] at hwf
    exact execS8Encsel_raisedIfReported hcat hwf.1.1 len
  | s8Decsel cap len => exact execS8Decsel_raisedIfReported hcat len
  | s8Enc cap len => exact execS8Enc_raisedIfReported hcap len
  | s8Dec cap len => exact exec_s8Dec_raisedIfReported hcat hcap len
  | _ => cases hcmd

/-- No instruction writes its input buffer. -/
theorem exec_mem_input {i : Instr} {s t : State} (h : exec i s = .next t) : t.mem.input = s.mem.input := by
  cases hformat : i.format with
  | cmd =>
    obtain ⟨-, -, -, hinput, -⟩ := commandFrame i s t hformat h
    exact hinput
  | s8w => rcases wordFrame i s t hformat h with ⟨vals, rfl, -⟩ | rfl <;> rfl

theorem State.faultOutput_of_untouched {s : State} (h : s.params.faultOutput = .untouched) (cap : Nat) :
    s.faultOutput cap = s.mem.output := by
  rw [State.faultOutput, h]

theorem State.faultOutput_of_any {s : State} (h : s.params.faultOutput = .any) (cap : Nat) :
    s.faultOutput cap = scrambled s.unit s.draws cap s.mem.output := by
  rw [State.faultOutput, h]

/-- Settles O49: a reported fault was raised (`exec_raisedIfReported`), and what raising leaves in the output
buffer is `State.faultOutput`. -/
theorem outputAfterFault : Obligations.OutputAfterFault := by
  intro i s t h
  refine ⟨exec_mem_input h, fun hcmd hwf hcat => exec_raisedIfReported hcmd hwf hcat h, ?_⟩
  rintro f rfl
  refine ⟨fun huntouched => State.faultOutput_of_untouched huntouched _, fun hany k hk hbuf => ⟨s.draws, ?_⟩,
    fun k => faultOutput_getElem?_past s _ k⟩
  rw [State.raise_mem_output, State.faultOutput_of_any hany, scrambled_getElem?_free _ _ _ _ _ hk hbuf]

end Sys2Proof.Machine

/-! ## The order of the fault conditions -/

namespace Sys2Proof.Machine

/-- R123 items 1 and 2: which of the two tests rejects a descriptor. -/
theorem decodeCommand_error {d0 d1 : Word} {e : Reject} (h : decodeCommand d0 d1 = .error e) :
    e = if fieldRsv d0 ≠ 0 then .reservedBits else .reservedOp := by
  unfold decodeCommand at h
  split
  · rw [if_pos ‹_›] at h
    cases h
    rfl
  · rw [if_neg ‹_›] at h
    split at h <;> cases h
    rfl

/-- S8.ENC with an input and no room, where the first value has a selector. -/
theorem exec_s8Enc_no_room {len : Nat} {s : State} (hcat : CatalogIntact s) (hlen : 1 ≤ len)
    (hsmall : (s.readV64 0).toNat < 2 ^ 60) : exec (.s8Enc 0 len) s = .next (s.raise .boundsError 0) := by
  have hrom : s.cat = romCatalog := hcat
  obtain ⟨post, hsplit⟩ := inV64_split s hlen
  obtain ⟨sel, c, hchoose, -⟩ := choose_of_first_fits post hsmall
  have hruns : encodeRuns romCatalog 0 (s.inV64 len) = .error .boundsError := by
    rw [hsplit, State.inV64, List.range_zero, List.map_nil, List.nil_append, encodeRuns, hchoose]
  simp only [exec, execS8Enc, hrom, hruns]

/-- Settles O50, by what each command does under each of its conditions (O22, O24, O40). -/
theorem faultPriority : Obligations.FaultPriority := by
  refine ⟨fun d0 d1 hrsv => ?_, fun d0 d1 hrsv hop => ?_, fun bw cap len m s hcat =>
    ⟨fun hbw => fwWidthOutOfRangeRaisesInvalidArgument bw cap len m s (.inl hbw), fun h1 h2 => ?_,
      fun h1 h2 hne => ?_, rfl, rfl, fun hlen hbig => ?_, fun hlen => exec_s8Enc_no_room hcat hlen⟩⟩
  · obtain ⟨e, he⟩ := decodeCommand_error_of_reserved d1 (.inl hrsv)
    rw [he, decodeCommand_error he, if_pos hrsv]
  · obtain ⟨e, he⟩ := decodeCommand_error_of_reserved d1 (.inr hop)
    rw [he, decodeCommand_error he, if_neg (not_not.mpr hrsv)]
  · obtain ⟨henc, hdec, -⟩ := fwLengthRules bw 0 0 m s h1 h2
    exact ⟨henc, hdec⟩
  · obtain ⟨-, -, henc, hdec⟩ := fwLengthRules bw cap len m s h1 h2
    exact ⟨fun hwrong => henc hne (.inl hwrong), fun hwrong => hdec hne (.inl hwrong)⟩
  · obtain ⟨n, hn, -, hinvalid, -⟩ :=
      encFaultsInStreamOrder len 0 s hcat hlen hbig fun i hi => absurd hi (Nat.not_lt_zero i)
    exact hinvalid 0 hn

end Sys2Proof.Machine

/-! ## The end of an accepted command -/

namespace Sys2Proof.Machine

/-- The engine's own move ends its command with a response, or is one pass of the S8.DEC loop with a word
left (R113). -/
theorem engineMove_ends_or_advances {s u : State} (h : engineMove s = .next u) :
    (u.run = .idle ∧ u.rspValid = true) ∨
    (u.run = s.run ∧ s.cur < s.descLen ∧ u.cur = s.cur + 1 ∧ u.desc = s.desc) := by
  rcases engineMove_outcome h with ⟨r, vals, rfl⟩ | ⟨f, cap, rfl⟩ | ⟨hstage, w, -, rfl⟩
  · exact .inl ⟨rfl, rfl⟩
  · exact .inl ⟨rfl, rfl⟩
  · refine .inr ⟨rfl, lt_of_not_ge fun hexhausted => ?_, rfl, rfl⟩
    have hend := Host.Outcome.next.inj (h.symm.trans (engineMove_of_exhausted hstage hexhausted))
    exact absurd (congrArg State.cur hend) (Nat.succ_ne_zero _)

/-- A tick uses up an input of the host and adds none. -/
theorem State.tickHost_host_subset (s : State) : s.tickHost.host ⊆ s.host := by
  unfold State.tickHost
  split
  · rename_i rest hhost
    rw [hhost]
    exact List.subset_cons_self _ _
  · exact List.Subset.refl _

theorem engineMove_host {s u : State} (h : engineMove s = .next u) : u.host = s.host := by
  rcases engineMove_outcome h with ⟨r, vals, rfl⟩ | ⟨f, cap, rfl⟩ | ⟨-, w, -, rfl⟩ <;> rfl

/-- A step of a BUSY engine ends its command, with a response if the host asserts no reset, or runs one of
the words left. -/
theorem step_ends_or_advances {s t : State} (hbusy : s.run = .busy) (h : step s = .next t) :
    (t.run = .idle ∧ (HostInput.reset ∉ s.host → t.rspValid = true)) ∨
    (t.run = .busy ∧ s.cur < s.descLen ∧ t.cur = s.cur + 1 ∧ t.descLen = s.descLen ∧ t.host ⊆ s.host) := by
  by_cases hreset : ∃ rest, s.host = .reset :: rest
  · obtain ⟨rest, hhost⟩ := hreset
    obtain rfl := Host.Outcome.next.inj ((step_of_reset hhost).symm.trans h)
    exact .inl ⟨rfl, fun hnone => absurd (hhost ▸ List.mem_cons_self) hnone⟩
  · obtain ⟨u, hmove, rfl⟩ := step_of_busy hbusy (not_exists.mp hreset) h
    rcases engineMove_ends_or_advances hmove with ⟨hidle, hvalid⟩ | ⟨hrun, hcur, hnext, hdesc⟩
    · exact .inl ⟨by simpa using hidle, fun _ => by simpa using hvalid⟩
    · rw [State.tickHost_cur, State.tickHost_descLen] at hcur
      rw [State.settle_of_busy _ u (by simpa [hbusy] using hrun)]
      refine .inr ⟨by simpa [hbusy] using hrun, hcur, by simpa using hnext, ?_, ?_⟩
      · rw [State.descLen, hdesc, State.tickHost_desc, State.descLen]
      · exact engineMove_host hmove ▸ s.tickHost_host_subset

/-- Settles O7, by induction on the words left: a step that does not end the command leaves one fewer. -/
theorem acceptedCommandEnds : Obligations.AcceptedCommandEnds := by
  intro s hbusy
  induction hleft : s.descLen - s.cur using Nat.strong_induction_on generalizing s with
  | _ left ih =>
    obtain ⟨t, hstep⟩ := step_next s
    rcases step_ends_or_advances hbusy hstep with ⟨hidle, hvalid⟩ | ⟨hrun, hcur, hnext, hlen, hhost⟩
    · exact ⟨1, t, Nat.le_add_left 1 left, run_core_succ 0 hstep, hidle, hvalid⟩
    · obtain ⟨n, u, hn, hu, hidle, hvalid⟩ := ih (t.descLen - t.cur) (by omega) t hrun rfl
      exact ⟨n + 1, u, by omega, (run_core_succ n hstep).trans hu, hidle,
        fun hnone => hvalid fun hmem => hnone (hhost hmem)⟩

end Sys2Proof.Machine

/-! ## A descriptor that waits -/

namespace Sys2Proof.Machine

/-- The engine with another list of host inputs to come. -/
def State.withHost (s : State) (inputs : List HostInput) : State := { s with host := inputs }

/-- A command neither reads nor writes the host's inputs. -/
theorem exec_withHost {i : Instr} {s t : State} (hcmd : i.format = .cmd) (h : exec i s = .next t)
    (inputs : List HostInput) : exec i (s.withHost inputs) = .next (t.withHost inputs) := by
  obtain ⟨u, u', hu, hu', halike⟩ :=
    exec_alike (s := s) (s' := s.withHost inputs) hcmd rfl rfl fun _ _ => rfl
  obtain rfl := Host.Outcome.next.inj (hu.symm.trans h)
  rw [hu']
  cases halike <;> rfl

/-- A Simple8b word neither reads nor writes the host's inputs. -/
theorem runWord_withHost (w : Word) (s : State) (inputs : List HostInput) :
    runWord w (s.withHost inputs) = (runWord w s).withHost inputs := by
  unfold runWord emitWord
  by_cases hfull : s.descCap < s.emitted.length + (s.entry (selectorOf w)).count
  · rw [if_pos hfull, if_pos (by exact hfull)]
    rfl
  · rw [if_neg hfull, if_neg (by exact hfull)]
    rfl

/-- The engine's own move neither reads nor writes the host's inputs. -/
theorem engineMove_withHost {s u : State} (h : engineMove s = .next u) (inputs : List HostInput) :
    engineMove (s.withHost inputs) = .next (u.withHost inputs) := by
  rcases engineMove_cases s with
    ⟨hstage, i, hdecode, hmove⟩ | ⟨hstage, ⟨e, hdecode⟩, hmove⟩ | ⟨hstage, hcur, hmove⟩ |
      ⟨hstage, hcur, hmove⟩ <;> rw [hmove] at h
  · rw [engineMove_of_decode (s := s.withHost inputs) hstage hdecode]
    exact exec_withHost (decodeCommand_format hdecode) h inputs
  · obtain rfl := Host.Outcome.next.inj h
    exact engineMove_of_reject (s := s.withHost inputs) hstage hdecode
  · rw [exec_decodeWord] at h
    obtain rfl := Host.Outcome.next.inj h
    rw [engineMove_of_word (s := s.withHost inputs) hstage hcur, exec_decodeWord, runWord_withHost]
    rfl
  · obtain rfl := Host.Outcome.next.inj h
    exact engineMove_of_exhausted (s := s.withHost inputs) hstage hcur

theorem State.settle_withHost (cap : Nat) (s : State) (inputs : List HostInput) :
    (s.withHost inputs).settle cap = (s.settle cap).withHost inputs := by
  simp only [State.settle, State.withHost]
  split <;> rfl

/-- A waiting descriptor is no tick. -/
theorem State.tickHost_of_issue {s : State} {c : Issue} {rest : List HostInput} (h : s.host = .issue c :: rest) :
    s.tickHost = s := by
  simp [State.tickHost, h]

/-- Settles O57: the step is the engine's own move, which does not know of the host's inputs
(`engineMove_withHost`). -/
theorem busyEngineTakesNoDescriptor : Obligations.BusyEngineTakesNoDescriptor := by
  intro s c hbusy
  refine ⟨by rw [hostIssue, hbusy], fun rest t hhost h => ?_⟩
  obtain ⟨u, hmove, rfl⟩ := step_of_busy hbusy (by simp [hhost]) h
  rw [State.tickHost_of_issue hhost] at hmove
  obtain ⟨-, -, hinput⟩ := engineMove_keeps_params_unit_input hmove
  refine ⟨?_, fun hrun => ?_, ?_, ?_⟩
  · rw [State.settle_host, engineMove_host hmove]
  · rw [State.settle_run] at hrun
    rcases engineMove_ends_or_advances hmove with ⟨hidle, -⟩ | ⟨-, -, -, hdesc⟩
    · cases hrun.symm.trans hidle
    · rw [State.settle_desc, hdesc]
  · rw [State.settle_mem_input, hinput]
  · have hquiet : step (s.withHost []) = onNext (State.settle s.outLimit) (engineMove (s.withHost [])) :=
      step_eq_of_busy hbusy nofun
    rw [engineMove_withHost hmove, onNext, State.settle_withHost] at hquiet
    exact hquiet

end Sys2Proof.Machine

/-! ## Reset while a command runs -/

namespace Sys2Proof.Machine

/-- Reset leaves unspecified what a command in flight has of an output buffer (R139). -/
theorem State.resetOutput_of_busy {s : State} (h : s.run = .busy) :
    s.resetOutput = scrambled s.unit s.draws s.outLimit s.mem.output := by
  rw [State.resetOutput, h]

theorem State.outLimit_le_descCap (s : State) : s.outLimit ≤ s.descCap := by
  unfold State.outLimit
  split
  · exact Nat.zero_le _
  · exact le_rfl

/-- Settles O58: reset takes effect in that step, and draws the output elements anew below
`State.outLimit`. -/
theorem resetAbandonsCommand : Obligations.ResetAbandonsCommand := by
  intro s rest hhost hbusy
  have hout : (State.assertReset { s with host := rest }).mem.output =
      scrambled s.unit s.draws s.outLimit s.mem.output :=
    State.resetOutput_of_busy (s := { s with host := rest }) hbusy
  refine ⟨_, step_of_reset hhost, rfl, rfl, rfl, fun hnot k hk hbuf => ⟨s.draws, ?_⟩, fun len hchoose => ?_,
    fun k hk => ?_⟩ <;> rw [hout]
  · rw [s.outLimit_of_not_choose hnot, scrambled_getElem?_free _ _ _ _ _ hk hbuf]
  · rw [s.outLimit_of_choose len hchoose, scrambled_zero]
  · exact scrambled_getElem?_past _ _ _ _ _ (s.outLimit_le_descCap.trans hk)

end Sys2Proof.Machine
